-- ==== Sys2Proof/Word.lean ====
section
/-! DEFINITION. The word of RSA-NTE: 32 bits, bit 0 least significant (spec 00_scope.md R9 LIMB_BITS, R11). Big integers
are Lean `Int`, exact and unbounded (R11, R12), and need no type of their own. -/

namespace Sys2Proof

/-- A 32-bit word: a command word, a port word, a limb, MR_TRIALS (R9, R11). -/
abbrev Word := BitVec 32

end Sys2Proof
end

