-- ==== Sys2Proof/Syntax.lean ====
section
/-! DEFINITION. The syntax whole: the six commands (spec 30_encoding.md R91, spec/opcode_table.json), the names of the
big-integer registers (10_state.md R21), the host-script statements (30_encoding.md R97) and the turns of a schedule. -/

namespace Sys2Proof

/-- The commands of R91, one constructor a row. No command word carries an operand (R92). -/
inductive Instr where
  | modpow   -- R122: A^B mod M
  | xgcd     -- R127: gcd(A, B) with Bezout coefficients
  | modinv   -- R132: inverse of A modulo M
  | mrtest   -- R160: Miller-Rabin test of A
  | tdiv     -- R170: trial division of A
  | resume   -- R165: the witness in W is delivered
deriving DecidableEq, Repr

/-- The seven big-integer registers of R21. -/
inductive RegName where
  | a | b | m | r0 | r1 | r2 | w
deriving DecidableEq, Repr

/-- What the host does next, one statement of R97: a port transaction (`MemRead`, `MemWrite` of R61, whose size is an
argument because R66 speaks of accesses of other sizes), a whole-register transfer (R64), or POLL. The statements WRT,
CMD, CMDW, RDS and RDT of R97 are `memWrite` and `memRead` (Machine/Script.lean). -/
inductive HostStmt where
  | memRead (addr size : Nat)
  | memWrite (addr size : Nat) (w : Word)
  | readInt (r : RegName)
  | writeInt (r : RegName) (v : Int)
  | poll
deriving DecidableEq, Repr

/-- Who moves in a step (00_scope.md R18, 70_reset_and_hazards.md R270; log 2): the engine by one micro-step, the host by
one statement, or the reset input, asserted. -/
inductive Turn where
  | engine
  | host
  | rst
deriving DecidableEq, Repr

end Sys2Proof
end

