-- ==== Sys2Proof/Decode.lean ====
section
/-! DEFINITION. Decoding and encoding of command words: the one format CMD32 (spec 30_encoding.md R90), the opcode map of
R91, and the illegal words of R93 and R94, rejected by name. -/

namespace Sys2Proof

/-- Why a word is illegal (R93). The engine records neither the word nor the reason (R242); the names are the model's. -/
inductive Illegal where
  | reservedBits   -- RSV (bits 31:8) is not 0
  | noSuchOpcode   -- OPC is not one of 0x01 to 0x06
deriving DecidableEq, Repr

/-- OPC, bits 7:0 (R90). -/
def opcField (w : Word) : BitVec 8 := w.extractLsb' 0 8

/-- RSV, bits 31:8 (R90). -/
def rsvField (w : Word) : BitVec 24 := w.extractLsb' 8 24

/-- The opcode map of R91, from OPC. -/
def opcodeOf (opc : BitVec 8) : Option Instr :=
  if opc = 0x01#8 then some .modpow
  else if opc = 0x02#8 then some .xgcd
  else if opc = 0x03#8 then some .modinv
  else if opc = 0x04#8 then some .mrtest
  else if opc = 0x05#8 then some .tdiv
  else if opc = 0x06#8 then some .resume
  else none

/-- The decoder, total on every word (R90, R91, R93, R94). -/
def decode (w : Word) : Except Illegal Instr :=
  if rsvField w ≠ 0#24 then .error .reservedBits
  else
    match opcodeOf (opcField w) with
    | some i => .ok i
    | none => .error .noSuchOpcode

/-- OPC of a command (R91). -/
def Instr.opcode : Instr → BitVec 8
  | .modpow => 0x01#8
  | .xgcd => 0x02#8
  | .modinv => 0x03#8
  | .mrtest => 0x04#8
  | .tdiv => 0x05#8
  | .resume => 0x06#8

/-- The encoder: RSV = 0 above OPC (R90, R91). -/
def encode (i : Instr) : Word := 0#24 ++ i.opcode

/-- The decoder on an instruction whose bits are `w` as spec/opcode_table.json numbers them: a command is one 32-bit word
(R90), so bits above `nbits` are 0 and a value past 32 bits is no command word. -/
def decodeTableWord (nbits w : Nat) : Option Instr :=
  let bits := w % 2 ^ nbits
  if bits < 2 ^ 32 then
    match decode (BitVec.ofNat 32 bits) with
    | .ok i => some i
    | .error _ => none
  else none

end Sys2Proof
end

