-- ==== Sys2Proof/Config.lean ====
section
/-! DEFINITION. What an implementation fixes (spec 00_scope.md R9: NLIMBS, BASE) and the free values of the model: opaque
constants with no body, so that nothing proved can rest on a value of theirs. BUS_PROTOCOL is OPEN and no rule depends on
it (log 21). LIMB_BITS and TRIALS_BITS are 32 by R9 and stand in the types. -/

namespace Sys2Proof

/-- The parameters that R9 leaves OPEN. The model takes them as an argument: they stand in `State.cfg`, which no step
changes (log 1). -/
structure Config where
  /-- NLIMBS: limbs of a big-integer register, `none` for unbounded (R9, R26). -/
  nlimbs : Option Nat
  /-- BASE / 4. Every port access is to a multiple of 4 (R66), so BASE is one (DEDUCED, log 1). -/
  baseWords : Nat
deriving DecidableEq, Repr

/-- BASE, the byte address of the register block (R9, R62). -/
def Config.base (c : Config) : Nat := 4 * c.baseWords

/-- R9: a finite NLIMBS is a positive integer. -/
def Config.wf (c : Config) : Bool :=
  match c.nlimbs with
  | none => true
  | some n => decide (0 < n)

/-- FREE VALUE (log 5): the word an unspecified port read returns (R22, R32, R69, R70, R71; U3 'any value'), by the
number of the draw. -/
opaque Config.freeWord : Nat → BitVec 32

/-- FREE VALUE (log 5): the Integer an unspecified `HostReadInt` returns (R22; U3 'a draw of any Integer'), by the number
of the draw. -/
opaque Config.freeInt : Nat → Int

/-- FREE VALUE (log 4): the Integer that a command finds in an operand register that holds `none` (U2: 'The hardware would
compute on whatever bits are there; no claim may rest on it'). It depends on the epoch (which command since power-up),
the register's index, and what the register's cells hold (sign, magnitude, cells not yet written). -/
opaque Config.freeOperand : (epoch index : Nat) → (neg : Bool) → (mag : Nat) → (unwritten : List Nat) → Int

end Sys2Proof
end

