-- ==== Sys2Proof/Machine/RegisterMap.lean ====
section
/-! DEFINITION. The host register space (spec 20_memory.md R60, R62, R71): offsets from BASE and what stands at each. -/

namespace Sys2Proof

/-- The index of a register, x[0] to x[6] (R13, R21). -/
def RegName.index : RegName → Nat
  | .a => 0
  | .b => 1
  | .m => 2
  | .r0 => 3
  | .r1 => 4
  | .r2 => 5
  | .w => 6

/-- The register of an index (R21). -/
def RegName.ofIndex : Nat → Option RegName
  | 0 => some .a
  | 1 => some .b
  | 2 => some .m
  | 3 => some .r0
  | 4 => some .r1
  | 5 => some .r2
  | 6 => some .w
  | _ => none

/-- The storage cells of one big-integer register: the sign word and NLIMBS limbs (R63). With NLIMBS unbounded there are no
word cells (R62) and the register counts as one cell, written whole (R64; log 9). -/
def Config.cells (c : Config) : Nat :=
  match c.nlimbs with
  | none => 1
  | some n => n + 1

/-- R10, R26: the Integers a register can hold. -/
def Config.fits (c : Config) (v : Int) : Bool :=
  match c.nlimbs with
  | none => true
  | some n => decide (v.natAbs < 2 ^ (32 * n))

/-- Any Integer brought into a register's range, every one in range being its own image: the limit that R26 sets on the
free contents of a register (log 4). -/
def Config.fit (c : Config) (v : Int) : Int :=
  match c.nlimbs with
  | none => v
  | some n => v.tmod (2 ^ (32 * n))

/-- What stands at an offset from BASE. -/
inductive PortTarget where
  | cmd                              -- 0x000 (R32)
  | status                           -- 0x004 (R33)
  | trials                           -- 0x008 (R34)
  | cell (r : RegName) (j : Nat)     -- cell j of a register: 0 the sign word, j + 1 limb j (R63)
  | unmapped                         -- 0x00C, and 0x010 + 7*STRIDE and beyond (R71)
  | wordless                         -- a register cell while NLIMBS is unbounded: no word map (R62)
deriving DecidableEq, Repr

/-- STRIDE of R62, in bytes, for a finite NLIMBS. -/
def Config.stride (nlimbs : Nat) : Nat := 4 * (nlimbs + 1)

/-- The register map of R62. -/
def Config.target (c : Config) (off : Nat) : PortTarget :=
  if off = 0x000 then .cmd
  else if off = 0x004 then .status
  else if off = 0x008 then .trials
  else if off < 0x010 then .unmapped
  else
    match c.nlimbs with
    | none => .wordless
    | some n =>
      match RegName.ofIndex ((off - 0x010) / Config.stride n) with
      | some r => .cell r ((off - 0x010) % Config.stride n / 4)
      | none => .unmapped

end Sys2Proof
end

