-- ==== Sys2Proof/Machine/State.lean ====
section
/-! DEFINITION. The state of RSA-NTE as plain data (spec 10_state.md R20 to R40), the reasons a step can stop, and the
state after reset (R40). -/

namespace Sys2Proof.Machine

/-- STATE, the 2-bit field of STATUS (R27). -/
inductive EngState where
  | idle      -- no command has run since reset
  | busy      -- a command is running
  | waitRng   -- an MRTEST is waiting for a witness
  | done      -- the last command has ended
deriving DecidableEq, Repr

/-- ERR, the fault code of the last command (R31, R240). The codes 4 to 15 of the 4-bit field are never produced (R31), so
they have no name here. -/
inductive FaultCode where
  | none              -- 0
  | invalidArgument   -- 1
  | illegalCommand    -- 2
  | rngRange          -- 3
deriving DecidableEq, Repr

/-- PH, the hidden phase register: an enumeration, not a number (R28). -/
inductive Phase where
  | idle
  | mpCheck | mpInit | mpLoop | mpFin
  | xgCheck | xgInit | xgLoop | xgFin
  | miCheck | miNorm | miFin
  | mrSpecial | mrDecomp | mrTrial | mrWait | mrFirst | mrSq | mrFin
  | tdCheck | tdLoop | tdFin
deriving DecidableEq, Repr

/-- A big-integer register (R20, R63): sign and magnitude, and the cells that nothing has written. Cell 0 is the sign word,
cell j + 1 is limb j. Its bits in an unwritten cell stand as 0 here and are never read: the register holds a value only
when `unwritten` is empty, and `none` otherwise (R22, R63). -/
structure BigReg where
  /-- bit 0 of the sign word -/
  neg : Bool
  /-- the limbs as one number, limb 0 least significant -/
  mag : Nat
  /-- the cells not written since the register last came to hold `none`, in rising order -/
  unwritten : List Nat
deriving DecidableEq, Repr

/-- A register that holds `none` (R20, R22): none of its `cells` cells is written. -/
def BigReg.void (cells : Nat) : BigReg := ⟨false, 0, List.range cells⟩

/-- The MEXP working registers ACC, SQ, K and MOD (R35). -/
structure MexpRegs where
  acc : Int
  sq : Int
  k : Int
  modulus : Int
deriving DecidableEq, Repr

/-- The XGCD working registers G0, G1, S0, S1, T0, T1 and Q, and MODINV's INV (R36). -/
structure XgcdRegs where
  g0 : Int
  g1 : Int
  s0 : Int
  s1 : Int
  t0 : Int
  t1 : Int
  q : Int
  inv : Int
deriving DecidableEq, Repr

/-- The MR working registers D, S, T, X and J, TDIV's KD, and VERD (R37). -/
structure MrRegs where
  d : Int
  s : Int
  t : Int
  x : Int
  j : Int
  kd : Int
  verd : Bool
deriving DecidableEq, Repr

/-- What the port answers to a host read: a word (`MemRead`, R61) or an Integer (`HostReadInt`, R64). -/
inductive Reply where
  | word (w : Word)
  | int (v : Int)
deriving DecidableEq, Repr

/-- Reasons for which the machine itself stops. No command raises one: the faults of R240 are taken, as R247 says, and lead
to a next state. -/
inductive Fault where
  /-- Raised by a port access (Machine/Port.lean `portAccess`) below BASE: no such address is in the register space (R60,
  R62). Safe: the access never reaches the engine (log 8). -/
  | belowRegisterBlock (addr : Nat)
deriving DecidableEq, Repr

/-- Reasons for which the model gives no meaning. No command that has its meaning raises one. -/
inductive Refusal where
  /-- Raised by exec's arm for a command that has no meaning yet (none is left). Safe. -/
  | notModelled (mnemonic : String)
  /-- Raised by a port access (Machine/Port.lean `portAccess`) of a size other than 4 bytes: no transaction of this port (R66, R67). Safe (log 8). -/
  | accessSize (size : Nat)
  /-- Raised by a port access (Machine/Port.lean `portAccess`) to an address that is no multiple of 4: no transaction of this port (R66). Safe (log 8). -/
  | misaligned (addr : Nat)
  /-- Raised by a word access at or beyond offset 0x010 (Machine/Port.lean) while NLIMBS is unbounded: the map has no finite
  size and only whole-register transfers are used (R62). Safe (log 9). -/
  | noWordMap
  /-- Raised by `HostWriteInt` (Machine/Port.lean) of an Integer that does not fit NLIMBS limbs: it cannot be presented to the engine (R10, U15). Safe (log 10). -/
  | operandTooWide
  /-- Raised by the recommended machine alone (Machine/Recommended.lean `stepRecommended`), never by `step`: a host statement that
  R22, R66, R69, R70, R71 or R95 recommends to refuse, a command with an operand that holds `none` among them. Safe (log 4). -/
  | notAdmitted (h : HostStmt)
deriving DecidableEq, Repr

/-- The whole machine: the parameters, the registers of the spec, the model's own counters and ghost, and what the host
still has to do. -/
structure State where
  /-- NLIMBS and BASE (R9, R39); no step changes it (log 1). -/
  cfg : Config
  /-- x[0], operand (R21) -/
  a : BigReg
  /-- x[1], operand -/
  b : BigReg
  /-- x[2], operand -/
  m : BigReg
  /-- x[3], result -/
  r0 : BigReg
  /-- x[4], result -/
  r1 : BigReg
  /-- x[5], result -/
  r2 : BigReg
  /-- x[6], witness mailbox (R25) -/
  w : BigReg
  /-- STATUS.STATE (R27) -/
  state : EngState
  /-- STATUS.V (R30) -/
  v : Bool
  /-- STATUS.ERR (R31) -/
  err : FaultCode
  /-- MR_TRIALS (R34) -/
  trials : Word
  /-- PH (R28) -/
  ph : Phase
  /-- OP, the opcode of the command in progress (R29) -/
  op : BitVec 8
  /-- RET, the phase a shared loop returns to (R29) -/
  ret : Phase
  /-- whether the witness request draw(2, A - 2) is open (R38) -/
  request : Bool
  /-- R35 -/
  mexp : MexpRegs
  /-- R36 -/
  xg : XgcdRegs
  /-- R37 -/
  mr : MrRegs
  /-- the model's own: numbers the commands ended and the resets (log 4) -/
  epoch : Nat
  /-- the model's own: numbers the free values the host has read (log 5) -/
  draws : Nat
  /-- the model's own ghost: every fault entered, oldest first, never cleared (R248; log 15) -/
  history : List FaultCode
  /-- the host's remaining statements (R18, R97; log 2) -/
  script : List HostStmt
  /-- the agents that move in the coming steps (log 2) -/
  turns : List Turn
  /-- what the port has answered to the host's reads, newest first (log 27) -/
  replies : List Reply
deriving DecidableEq, Repr

/-- The state after reset (R40), for parameters `c`. Every big-integer register holds `none`. OP, RET and the working
registers are unspecified in R40 and stand at 0 and PH_IDLE here (DESIGN CHOICE, log 11); the model's own fields start
empty. -/
def State.resetWith (c : Config) : State where
  cfg := c
  a := .void c.cells
  b := .void c.cells
  m := .void c.cells
  r0 := .void c.cells
  r1 := .void c.cells
  r2 := .void c.cells
  w := .void c.cells
  state := .idle
  v := false
  err := .none
  trials := 20#32
  ph := .idle
  op := 0#8
  ret := .idle
  request := false
  mexp := ⟨0, 0, 0, 0⟩
  xg := ⟨0, 0, 0, 0, 0, 0, 0, 0⟩
  mr := ⟨0, 0, 0, 0, 0, 0, false⟩
  epoch := 0
  draws := 0
  history := []
  script := []
  turns := []
  replies := []

/-- The machine right after reset (R40, R270), with NLIMBS unbounded ('the faithful reading', R9) and BASE = 0 (DESIGN
CHOICE, log 1). No program is in it: a command comes from the host (log 3). -/
def State.reset : State := State.resetWith ⟨none, 0⟩

end Sys2Proof.Machine
end

