-- ==== Sys2Proof/Machine/Flags.lean ====
section
/-! DEFINITION. The STATUS word (spec 10_state.md R33), made of STATE (R27), V (R30) and ERR (R31, R240), and MODINV's and
the tests' verdict. -/

namespace Sys2Proof.Machine

/-- The 2-bit value of STATE (R27). -/
def EngState.code : EngState → BitVec 2
  | .idle => 0
  | .busy => 1
  | .waitRng => 2
  | .done => 3

/-- The 4-bit value of ERR (R31, R240). -/
def FaultCode.code : FaultCode → BitVec 4
  | .none => 0
  | .invalidArgument => 1
  | .illegalCommand => 2
  | .rngRange => 3

/-- The STATUS word of R33: bits 31:8 read 0, ERR in 7:4, bit 3 reads 0, V in bit 2, STATE in 1:0. -/
def State.status (s : State) : Word :=
  0#24 ++ s.err.code ++ 0#1 ++ BitVec.ofBool s.v ++ s.state.code

end Sys2Proof.Machine
end

