-- ==== Sys2Proof/Machine/Operands.lean ====
section
/-! DEFINITION. The big-integer registers: their value and cells (spec 20_memory.md R63 to R65), reads and writes by name
(10_state.md R21), what a command reads (R22, R92; log 4), and what the host may read and write in each STATE
(20_memory.md R69, R70). -/

namespace Sys2Proof.Machine

/-- The register holding the Integer `v`, every cell written: sign 1 exactly when v < 0, limbs of |v|, unused high limbs 0
(R64); so 0 is stored with sign 0 (R65). -/
def BigReg.ofInt (v : Int) : BigReg := ⟨decide (v < 0), v.natAbs, []⟩

/-- The Integer of sign and magnitude (R63); negative zero is 0 (R65). -/
def BigReg.int (r : BigReg) : Int := if r.neg then -(r.mag : Int) else (r.mag : Int)

/-- The value of a register, or `none` while some cell of it is unwritten (R22, R63). -/
def BigReg.value (r : BigReg) : Option Int := if r.unwritten = [] then some r.int else none

/-- Limb j of a magnitude, limb 0 least significant (R63). -/
def limb (mag j : Nat) : Word := BitVec.ofNat 32 (mag / 2 ^ (32 * j))

/-- A magnitude with its limb j replaced (R63). -/
def setLimb (mag j : Nat) (w : Word) : Nat :=
  mag % 2 ^ (32 * j) + w.toNat * 2 ^ (32 * j) + mag / 2 ^ (32 * (j + 1)) * 2 ^ (32 * (j + 1))

/-- A written cell as the port reads it: the sign word has the sign in bit 0 and reads 0 in bits 31:1 (R63). A cell that
nothing has written has no defined word (log 17). -/
def BigReg.readCell (r : BigReg) (j : Nat) : Option Word :=
  if j ∈ r.unwritten then none
  else
    match j with
    | 0 => some (if r.neg then 1#32 else 0#32)
    | i + 1 => some (limb r.mag i)

/-- One cell written by the host: bits 31:1 of the sign word are ignored (R63). -/
def BigReg.writeCell (r : BigReg) (j : Nat) (w : Word) : BigReg :=
  match j with
  | 0 => { r with neg := w.getLsbD 0, unwritten := r.unwritten.filter (· ≠ 0) }
  | i + 1 => { r with mag := setLimb r.mag i w, unwritten := r.unwritten.filter (· ≠ i + 1) }

/-- x[i] (R13, R21). -/
def State.reg (s : State) : RegName → BigReg
  | .a => s.a
  | .b => s.b
  | .m => s.m
  | .r0 => s.r0
  | .r1 => s.r1
  | .r2 => s.r2
  | .w => s.w

/-- x[i] <- r (R13, R21). -/
def State.setReg (s : State) (n : RegName) (r : BigReg) : State :=
  match n with
  | .a => { s with a := r }
  | .b => { s with b := r }
  | .m => { s with m := r }
  | .r0 => { s with r0 := r }
  | .r1 => { s with r1 := r }
  | .r2 => { s with r2 := r }
  | .w => { s with w := r }

/-- The Integer a command finds in an operand register (R92). A register that holds `none` gives a free value within the
register's width, the same one through one command (R22, U2; log 4). -/
def State.operand (s : State) (n : RegName) : Int :=
  match (s.reg n).value with
  | some v => v
  | none =>
    s.cfg.fit (Config.freeOperand s.epoch n.index (s.reg n).neg (s.reg n).mag (s.reg n).unwritten)

/-- R69, the write rows: in which STATE a write to the cells of a register is stored; in every other it is dropped. -/
def hostMayWrite (n : RegName) (st : EngState) : Bool :=
  match n with
  | .a | .b | .m => decide (st = .idle ∨ st = .done)
  | .w => decide (st = .waitRng)
  | .r0 | .r1 | .r2 => false

/-- R69 and R70, the read rows: in which STATE a read of a register's cells is not unspecified. -/
def State.hostMayRead (s : State) (n : RegName) : Bool :=
  match n with
  | .a | .b | .m => true
  | .w => decide (s.state = .waitRng)
  | .r0 | .r1 | .r2 => decide (s.state = .done ∧ s.err = .none)

end Sys2Proof.Machine
end

