-- ==== Sys2Proof/Machine/Ops.lean ====
section
/-! DEFINITION. The operations the meanings share: accepting a command (spec 30_encoding.md R95), ending one (10_state.md
R24, 20_memory.md R73), taking a fault (60_exceptions.md R247), reset (70_reset_and_hazards.md R270), the port's answers
and its whole-register transfers (20_memory.md R64), and the arithmetic of 40_modular_arithmetic.md R120, R121. -/

namespace Sys2Proof.Machine

/-- R121. `Int`'s `%` is the remainder of R120 for the operands R120 allows. -/
def mulmod (u v m : Int) : Int := (u * v) % m

/-- R0, R1, R2 <- none (R24, R95, R247). -/
def State.voidResults (s : State) : State :=
  { s with r0 := .void s.cfg.cells, r1 := .void s.cfg.cells, r2 := .void s.cfg.cells }

/-- TAKING A FAULT, `raise f` of R247, one atomic step. There is no saved pc, handler or vector (R247) and no return
instruction (R248): the host goes on from DONE. The ghost `history` keeps the fault (R248; log 15), and `epoch` counts the
end of the command (log 4). -/
def raiseFault (f : FaultCode) (s : State) : State :=
  { s.voidResults with
    err := f
    v := false
    request := false
    state := .done
    ph := .idle
    epoch := s.epoch + 1
    history := s.history ++ [f] }

/-- THE LAST MICRO-STEP of a command that completes: the results, V, ERR and STATE = DONE in one atomic step (R24, R73; log
14), and PH <- PH_IDLE. -/
def finish (r0 r1 r2 : BigReg) (v : Bool) (s : State) : State :=
  { s with
    r0 := r0
    r1 := r1
    r2 := r2
    v := v
    err := .none
    state := .done
    ph := .idle
    epoch := s.epoch + 1 }

/-- The last micro-step of a command that leaves no result register and only a verdict (R24: MRTEST, TDIV, MODINV with no
inverse). -/
def finishVerdict (v : Bool) (s : State) : State :=
  finish (.void s.cfg.cells) (.void s.cfg.cells) (.void s.cfg.cells) v s

/-- R95: STATE is IDLE or DONE, so that a command other than RESUME is accepted. -/
def State.mayAccept (s : State) : Bool := decide (s.state = .idle ∨ s.state = .done)

/-- R95, the column of OPC 0x01 to 0x05: the command `opc`, whose first phase is `first`, is accepted in IDLE and DONE; in BUSY
and WAIT_RNG the write is dropped, which changes nothing (log 6). -/
def acceptCommand (opc : BitVec 8) (first : Phase) (s : State) : State :=
  if s.mayAccept then
    { s.voidResults with
      op := opc
      v := false
      err := .none
      state := .busy
      ph := first }
  else s

/-- R95, the column of illegal words: ILLEGAL_COMMAND in IDLE and DONE (R93, R242), dropped in BUSY and WAIT_RNG. -/
def illegalCommand (s : State) : State :=
  if s.mayAccept then raiseFault .illegalCommand s else s

/-- R270, R40: the state when reset is released. A running command is abandoned. What lies outside the engine stays (the host's
script, its schedule and what it has read), as do the model's ghost and counters (log 20). -/
def applyReset (s : State) : State :=
  { State.resetWith s.cfg with
    epoch := s.epoch + 1
    draws := s.draws
    history := s.history
    script := s.script
    turns := s.turns
    replies := s.replies }

/-- A host read answered. A read has no side effect in the engine (R68). -/
def State.answer (s : State) (r : Reply) : State := { s with replies := r :: s.replies }

/-- A word read whose value is unspecified: a free word (U3; log 5). -/
def State.answerFreeWord (s : State) : State :=
  { s with replies := .word (Config.freeWord s.draws) :: s.replies, draws := s.draws + 1 }

/-- A whole-register read whose value is unspecified: a free Integer within the register's width (U3; log 5). -/
def State.answerFreeInt (s : State) : State :=
  { s with
    replies := .int (s.cfg.fit (Config.freeInt s.draws)) :: s.replies
    draws := s.draws + 1 }

/-- `HostReadInt(i)` (R64) under R69 and R70. -/
def hostReadInt (n : RegName) (s : State) : State :=
  match (s.reg n).value with
  | some v => if s.hostMayRead n then s.answer (.int v) else s.answerFreeInt
  | none => s.answerFreeInt

/-- `HostWriteInt(i, v)` of a v that fits (R64) under R69. -/
def hostWriteInt (n : RegName) (v : Int) (s : State) : State :=
  if hostMayWrite n s.state then s.setReg n (.ofInt v) else s

/-- A host read of cell j of a register (R61, R63) under R69 and R70. -/
def hostReadCell (n : RegName) (j : Nat) (s : State) : State :=
  match (s.reg n).readCell j with
  | some w => if s.hostMayRead n then s.answer (.word w) else s.answerFreeWord
  | none => s.answerFreeWord

/-- A host write of cell j of a register (R61, R63) under R69. -/
def hostWriteCell (n : RegName) (j : Nat) (w : Word) (s : State) : State :=
  if hostMayWrite n s.state then s.setReg n ((s.reg n).writeCell j w) else s

/-- A host write of MR_TRIALS (R34, R69). -/
def hostWriteTrials (w : Word) (s : State) : State :=
  if s.mayAccept then { s with trials := w } else s

end Sys2Proof.Machine
end

