-- ==== Sys2Proof/Machine/ModArith.lean ====
section
/-! DEFINITION. MODPOW, XGCD and MODINV (spec 40_modular_arithmetic.md): what a write of each command does, and the
micro-steps of rules R123, R128 and R133, one definition a phase. -/

namespace Sys2Proof.Machine

/-! ### What a write of the command does (R95) -/

/-- MODPOW, R122, accepted as R95 says; its first phase is MP_CHECK. -/
def execModpow (s : State) : Host.Outcome State Fault Refusal :=
  .next (acceptCommand Instr.modpow.opcode .mpCheck s)

/-- XGCD, R127, accepted as R95 says; its first phase is XG_CHECK. -/
def execXgcd (s : State) : Host.Outcome State Fault Refusal :=
  .next (acceptCommand Instr.xgcd.opcode .xgCheck s)

/-- MODINV, R132, accepted as R95 says; its first phase is MI_CHECK. -/
def execModinv (s : State) : Host.Outcome State Fault Refusal :=
  .next (acceptCommand Instr.modinv.opcode .miCheck s)

/-! ### MODPOW, and the exponentiation MRTEST shares (R123) -/

/-- The base, exponent and modulus MP_INIT takes from its caller (R123): (W, D, A) for MRTEST, (A, B, M) for MODPOW. The
caller is the command in OP (R29). -/
def State.mpOperands (s : State) : Int × Int × Int :=
  if s.op = Instr.mrtest.opcode then (s.operand .w, s.mr.d, s.operand .a)
  else (s.operand .a, s.operand .b, s.operand .m)

/-- MP_CHECK (R123, R241). -/
def mpCheck (s : State) : State :=
  if s.operand .m ≤ 0 ∨ s.operand .b < 0 ∨ s.operand .a < 0 then raiseFault .invalidArgument s
  else { s with ret := .mpFin, ph := .mpInit }

/-- MP_INIT (R123): ACC starts at 1 mod m, not at 1 (D25, C10). -/
def mpInit (s : State) : State :=
  { s with
    mexp :=
      { modulus := s.mpOperands.2.2
        acc := 1 % s.mpOperands.2.2
        sq := s.mpOperands.1 % s.mpOperands.2.2
        k := s.mpOperands.2.1 }
    ph := .mpLoop }

/-- One pass on the working registers: ACC takes the value of SQ from before the squaring (R123). K[0] is K mod 2 and
K >> 1 is floor(K / 2) (R11). -/
def MexpRegs.pass (r : MexpRegs) : MexpRegs :=
  { r with
    acc := if r.k % 2 = 1 then mulmod r.acc r.sq r.modulus else r.acc
    sq := mulmod r.sq r.sq r.modulus
    k := r.k / 2 }

/-- MP_LOOP (R123): a pass while K is not 0, then back to RET. -/
def mpLoop (s : State) : State :=
  if s.mexp.k = 0 then { s with ph := s.ret }
  else { s with mexp := s.mexp.pass }

/-- MP_FIN (R123). -/
def mpFin (s : State) : State :=
  finish (.ofInt s.mexp.acc) (.void s.cfg.cells) (.void s.cfg.cells) false s

/-! ### XGCD, and the iteration MODINV shares (R128) -/

/-- The a and b XG_INIT takes from its caller (R128): (A, M) for MODINV, (A, B) for XGCD. -/
def State.xgOperands (s : State) : Int × Int :=
  if s.op = Instr.modinv.opcode then (s.operand .a, s.operand .m)
  else (s.operand .a, s.operand .b)

/-- XG_CHECK (R128, R241). -/
def xgCheck (s : State) : State :=
  if s.operand .a < 0 ∨ s.operand .b < 0 then raiseFault .invalidArgument s
  else { s with ret := .xgFin, ph := .xgInit }

/-- XG_INIT (R128, D27). -/
def xgInit (s : State) : State :=
  { s with
    xg :=
      { s.xg with
        g0 := s.xgOperands.1
        g1 := s.xgOperands.2
        s0 := 1
        s1 := 0
        t0 := 0
        t1 := 1 }
    ph := .xgLoop }

/-- One pass on the working registers: all three pairs use the same Q and the old values (R128). -/
def XgcdRegs.pass (r : XgcdRegs) : XgcdRegs :=
  { r with
    q := r.g0 / r.g1
    g0 := r.g1
    g1 := r.g0 - r.g0 / r.g1 * r.g1
    s0 := r.s1
    s1 := r.s0 - r.g0 / r.g1 * r.s1
    t0 := r.t1
    t1 := r.t0 - r.g0 / r.g1 * r.t1 }

/-- XG_LOOP (R128): a pass while G1 is not 0, then back to RET. -/
def xgLoop (s : State) : State :=
  if s.xg.g1 = 0 then { s with ph := s.ret }
  else { s with xg := s.xg.pass }

/-- XG_FIN (R128). -/
def xgFin (s : State) : State :=
  finish (.ofInt s.xg.g0) (.ofInt s.xg.s0) (.ofInt s.xg.t0) false s

/-! ### MODINV (R133) -/

/-- MI_CHECK (R133, R241). -/
def miCheck (s : State) : State :=
  if s.operand .a < 0 ∨ s.operand .m ≤ 0 then raiseFault .invalidArgument s
  else { s with ret := .miNorm, ph := .xgInit }

/-- `while INV < 0 do INV <- INV + M` of R133, at most `fuel` times. For M > 0 no more than |INV| additions are made, so
with that fuel the loop ends by its own test (log 12). -/
def addWhileNegative : (fuel : Nat) → (inv m : Int) → Int
  | 0, inv, _ => inv
  | fuel + 1, inv, m => if inv < 0 then addWhileNegative fuel (inv + m) m else inv

/-- MI_NORM (R133), one micro-step. -/
def miNorm (s : State) : State :=
  if s.xg.g0 ≠ 1 then { s with mr := { s.mr with verd := false }, ph := .miFin }
  else
    { s with
      xg := { s.xg with inv := addWhileNegative s.xg.s0.natAbs s.xg.s0 (s.operand .m) }
      mr := { s.mr with verd := true }
      ph := .miFin }

/-- MI_FIN (R133). -/
def miFin (s : State) : State :=
  finish (if s.mr.verd then .ofInt s.xg.inv else .void s.cfg.cells) (.void s.cfg.cells) (.void s.cfg.cells)
    s.mr.verd s

end Sys2Proof.Machine
end

