-- ==== Sys2Proof/Machine/Primality.lean ====
section
/-! DEFINITION. MRTEST, RESUME and TDIV (spec 41_primality.md): what a write of each command does, and the micro-steps of
rules R161 to R167 and R171, one definition a phase. -/

namespace Sys2Proof.Machine

/-! ### What a write of the command does (R95) -/

/-- MRTEST, R160, accepted as R95 says; its first phase is MR_SPECIAL. -/
def execMrtest (s : State) : Host.Outcome State Fault Refusal :=
  .next (acceptCommand Instr.mrtest.opcode .mrSpecial s)

/-- TDIV, R170, accepted as R95 says; its first phase is TD_CHECK. -/
def execTdiv (s : State) : Host.Outcome State Fault Refusal :=
  .next (acceptCommand Instr.tdiv.opcode .tdCheck s)

/-- RESUME accepted (R165): the witness in W is checked against [2, A - 2]; out of range, RNG_RANGE ends the test (R243);
in range, the request is closed and the trial's exponentiation begins. V and ERR keep their 0. -/
def deliverWitness (s : State) : State :=
  if s.operand .w < 2 ∨ s.operand .w > s.operand .a - 2 then raiseFault .rngRange s
  else { s with request := false, state := .busy, ret := .mrFirst, ph := .mpInit }

/-- RESUME, R165: accepted only in WAIT_RNG; in every other STATE the write is dropped, which changes nothing (R95; log 6). -/
def execResume (s : State) : Host.Outcome State Fault Refusal :=
  .next (if s.state = .waitRng then deliverWitness s else s)

/-! ### MRTEST -/

/-- MR_SPECIAL (R161), its tests in the rule's order. -/
def mrSpecial (s : State) : State :=
  if s.operand .a = 2 ∨ s.operand .a = 3 then { s with mr := { s.mr with verd := true }, ph := .mrFin }
  else if s.operand .a < 2 ∨ s.operand .a % 2 = 0 then { s with mr := { s.mr with verd := false }, ph := .mrFin }
  else { s with mr := { s.mr with d := s.operand .a - 1, s := 0 }, ph := .mrDecomp }

/-- MR_DECOMP (R162). T takes MR_TRIALS, whose value is that at the acceptance (R34). -/
def mrDecomp (s : State) : State :=
  if s.mr.d % 2 = 0 then { s with mr := { s.mr with d := s.mr.d / 2, s := s.mr.s + 1 } }
  else { s with mr := { s.mr with t := s.trials.toNat }, ph := .mrTrial }

/-- MR_TRIAL (R163) and the witness request draw(2, A - 2) it opens (R164). -/
def mrTrial (s : State) : State :=
  if s.mr.t = 0 then { s with mr := { s.mr with verd := true }, ph := .mrFin }
  else { s with request := true, state := .waitRng, ph := .mrWait }

/-- MR_FIRST (R166): the first power of the witness. -/
def mrFirst (s : State) : State :=
  if s.mexp.acc = 1 ∨ s.mexp.acc = s.operand .a - 1 then
    { s with mr := { s.mr with x := s.mexp.acc, t := s.mr.t - 1 }, ph := .mrTrial }
  else { s with mr := { s.mr with x := s.mexp.acc, j := 0 }, ph := .mrSq }

/-- MR_SQ (R166): one squaring; the test for A - 1 comes before the test for 1. -/
def mrSq (s : State) : State :=
  if s.mr.j = s.mr.s - 1 then { s with mr := { s.mr with verd := false }, ph := .mrFin }
  else
    let x := mulmod s.mr.x s.mr.x (s.operand .a)
    if x = s.operand .a - 1 then
      { s with mr := { s.mr with x := x, j := s.mr.j + 1, t := s.mr.t - 1 }, ph := .mrTrial }
    else if x = 1 then
      { s with mr := { s.mr with x := x, j := s.mr.j + 1, verd := false }, ph := .mrFin }
    else { s with mr := { s.mr with x := x, j := s.mr.j + 1 } }

/-- MR_FIN (R167). -/
def mrFin (s : State) : State := finishVerdict s.mr.verd s

/-! ### TDIV (R171) -/

/-- TD_CHECK (R171). -/
def tdCheck (s : State) : State :=
  if s.operand .a < 2 then { s with mr := { s.mr with verd := false }, ph := .tdFin }
  else { s with mr := { s.mr with kd := 2 }, ph := .tdLoop }

/-- TD_LOOP (R171). -/
def tdLoop (s : State) : State :=
  if s.mr.kd * s.mr.kd > s.operand .a then { s with mr := { s.mr with verd := true }, ph := .tdFin }
  else if s.operand .a % s.mr.kd = 0 then { s with mr := { s.mr with verd := false }, ph := .tdFin }
  else { s with mr := { s.mr with kd := s.mr.kd + 1 } }

/-- TD_FIN (R171). -/
def tdFin (s : State) : State := finishVerdict s.mr.verd s

end Sys2Proof.Machine
end

