-- ==== Sys2Proof/Machine/Engine.lean ====
section
/-! DEFINITION. The sequencer (spec 10_state.md R28, 00_scope.md R16): PH names the micro-step the engine takes next. -/

namespace Sys2Proof.Machine

/-- One micro-step of the engine. In PH_IDLE there is no command in progress, and in MR_WAIT the engine takes no step until
a RESUME is accepted (R164): the state stays as it is (log 13). -/
def microStep (s : State) : State :=
  match s.ph with
  | .idle => s
  | .mpCheck => mpCheck s
  | .mpInit => mpInit s
  | .mpLoop => mpLoop s
  | .mpFin => mpFin s
  | .xgCheck => xgCheck s
  | .xgInit => xgInit s
  | .xgLoop => xgLoop s
  | .xgFin => xgFin s
  | .miCheck => miCheck s
  | .miNorm => miNorm s
  | .miFin => miFin s
  | .mrSpecial => mrSpecial s
  | .mrDecomp => mrDecomp s
  | .mrTrial => mrTrial s
  | .mrWait => s
  | .mrFirst => mrFirst s
  | .mrSq => mrSq s
  | .mrFin => mrFin s
  | .tdCheck => tdCheck s
  | .tdLoop => tdLoop s
  | .tdFin => tdFin s

/-- `k` micro-steps of the engine with no port transaction between them. -/
def engineRun : Nat → State → State
  | 0, s => s
  | k + 1, s => engineRun k (microStep s)

end Sys2Proof.Machine
end

