-- ==== Sys2Proof/Machine/Dispatch.lean ====
section
/-! DEFINITION. exec: what a command word, written to CMD, does at the write (spec 30_encoding.md R95). One arm a command. -/

namespace Sys2Proof.Machine

def exec (i : Instr) (s : State) : Host.Outcome State Fault Refusal :=
  match i with
  | .modpow => Sys2Proof.Machine.execModpow s
  | .xgcd => Sys2Proof.Machine.execXgcd s
  | .modinv => Sys2Proof.Machine.execModinv s
  | .mrtest => Sys2Proof.Machine.execMrtest s
  | .tdiv => Sys2Proof.Machine.execTdiv s
  | .resume => Sys2Proof.Machine.execResume s

end Sys2Proof.Machine
end

