-- ==== Sys2Proof/Machine/Port.lean ====
section
/-! DEFINITION. The host port (spec 20_memory.md): one statement of the host's script performed, as one atomic step between
two micro-steps of the engine (R61, R72). -/

namespace Sys2Proof.Machine

/-- A word written to CMD (R32, R95): a legal word is executed, any other is illegal (R93, R94). -/
def writeCmd (w : Word) (s : State) : Host.Outcome State Fault Refusal :=
  match decode w with
  | .ok i => exec i s
  | .error _ => .next (illegalCommand s)

/-- A word written to a place of the register map, under the access table of R69. -/
def writeTarget (t : PortTarget) (w : Word) (s : State) : Host.Outcome State Fault Refusal :=
  match t with
  | .cmd => writeCmd w s
  | .status => .next s
  | .trials => .next (hostWriteTrials w s)
  | .cell r j => .next (hostWriteCell r j w s)
  | .unmapped => .next s
  | .wordless => .refused .noWordMap

/-- A word read from a place of the register map, under the access table of R69. -/
def readTarget (t : PortTarget) (s : State) : Host.Outcome State Fault Refusal :=
  match t with
  | .cmd => .next s.answerFreeWord
  | .status => .next (s.answer (.word s.status))
  | .trials => .next (s.answer (.word s.trials))
  | .cell r j => .next (hostReadCell r j s)
  | .unmapped => .next s.answerFreeWord
  | .wordless => .refused .noWordMap

/-- Which accesses are transactions of this port (R60, R66, R67; log 8), and what each then does at its place (R62). -/
def portAccess (addr size : Nat) (s : State) (k : PortTarget → Host.Outcome State Fault Refusal) :
    Host.Outcome State Fault Refusal :=
  if size ≠ 4 then .refused (.accessSize size)
  else if addr % 4 ≠ 0 then .refused (.misaligned addr)
  else if addr < s.cfg.base then .fault (.belowRegisterBlock addr)
  else k (s.cfg.target (addr - s.cfg.base))

/-- One statement of the host's script (R97), already taken off the script. POLL reads STATUS and stands again at the head of
the script while STATE is BUSY. -/
def perform (h : HostStmt) (s : State) : Host.Outcome State Fault Refusal :=
  match h with
  | .memRead addr size => portAccess addr size s (fun t => readTarget t s)
  | .memWrite addr size w => portAccess addr size s (fun t => writeTarget t w s)
  | .readInt r => .next (hostReadInt r s)
  | .writeInt r v => if s.cfg.fits v then .next (hostWriteInt r v s) else .refused .operandTooWide
  | .poll =>
    .next
      (if s.state = .busy then { s.answer (.word s.status) with script := .poll :: s.script }
       else s.answer (.word s.status))

/-- The host's turn: the first statement of its script; with none left the host does nothing. -/
def hostTurn (s : State) : Host.Outcome State Fault Refusal :=
  match s.script with
  | [] => .next s
  | h :: rest => perform h { s with script := rest }

end Sys2Proof.Machine
end

