-- ==== Sys2Proof/Machine/Step.lean ====
section
/-! DEFINITION. One step of the machine: a micro-step of the engine, a transaction of the host, or reset (spec 00_scope.md R16,
R18, 20_memory.md R61, R72, 70_reset_and_hazards.md R270). -/

namespace Sys2Proof.Machine

/-- One step. `turns` says who moves; when it is empty the engine moves while it is BUSY, and otherwise the host (log 2). -/
def step (s : State) : Host.Outcome State Fault Refusal :=
  match s.turns with
  | .engine :: rest => .next (microStep { s with turns := rest })
  | .host :: rest => hostTurn { s with turns := rest }
  | .rst :: rest => .next (applyReset { s with turns := rest })
  | [] => if s.state = .busy then .next (microStep s) else hostTurn s

/-- `s` with the command word `w` next: a CMD write of it at the head of the host's script, and the host's turn (R3, R75; log
3). Bits above `nbits` are 0. Nothing else changes. -/
def State.withFetchWord (s : State) (nbits w : Nat) : State :=
  { s with
    script := .memWrite s.cfg.base 4 (BitVec.ofNat 32 (w % 2 ^ nbits)) :: s.script
    turns := .host :: s.turns }

end Sys2Proof.Machine
end

