-- ==== Sys2Proof/Machine/Script.lean ====
section
/-! DEFINITION. Host-script notation (spec 30_encoding.md R97, R98): each statement as the port transactions it stands for, and
the word writes of a whole-register transfer (20_memory.md R64). -/

namespace Sys2Proof.Machine

/-- `WRT v`: set MR_TRIALS (R97). -/
def scriptWrt (c : Config) (v : Word) : HostStmt := .memWrite (c.base + 0x008) 4 v

/-- `CMDW word` (R97). -/
def scriptCmdw (c : Config) (w : Word) : HostStmt := .memWrite (c.base + 0x000) 4 w

/-- `CMD mnemonic` (R97). -/
def scriptCmd (c : Config) (i : Instr) : HostStmt := scriptCmdw c (encode i)

/-- `RDS`: read STATUS (R97). -/
def scriptRds (c : Config) : HostStmt := .memRead (c.base + 0x004) 4

/-- `RDT`: read MR_TRIALS (R97). -/
def scriptRdt (c : Config) : HostStmt := .memRead (c.base + 0x008) 4

/-- `MODPOW b, e, m` (R98). -/
def scriptModpow (c : Config) (b e m : Int) : List HostStmt :=
  [.writeInt .a b, .writeInt .b e, .writeInt .m m, scriptCmd c .modpow, .poll]

/-- `XGCD a, b` (R98). -/
def scriptXgcd (c : Config) (a b : Int) : List HostStmt :=
  [.writeInt .a a, .writeInt .b b, scriptCmd c .xgcd, .poll]

/-- `MODINV a, m` (R98). -/
def scriptModinv (c : Config) (a m : Int) : List HostStmt :=
  [.writeInt .a a, .writeInt .m m, scriptCmd c .modinv, .poll]

/-- `MRTEST n` (R98). -/
def scriptMrtest (c : Config) (n : Int) : List HostStmt :=
  [.writeInt .a n, scriptCmd c .mrtest, .poll]

/-- `TDIV n` (R98). -/
def scriptTdiv (c : Config) (n : Int) : List HostStmt :=
  [.writeInt .a n, scriptCmd c .tdiv, .poll]

/-- `WITNESS r` (R98). -/
def scriptWitness (c : Config) (r : Int) : List HostStmt :=
  [.writeInt .w r, scriptCmd c .resume, .poll]

/-- The byte address of cell j of a register, for a finite NLIMBS (R62). -/
def cellAddr (c : Config) (nlimbs : Nat) (r : RegName) (j : Nat) : Nat :=
  c.base + 0x010 + r.index * Config.stride nlimbs + 4 * j

/-- The word of `v` that goes into cell j: the sign word, then the limbs of |v| (R63, R64). -/
def cellWord (v : Int) : Nat → Word
  | 0 => if v < 0 then 1#32 else 0#32
  | i + 1 => limb v.natAbs i

/-- The NLIMBS + 1 word writes that `HostWriteInt(r, v)` stands for, sign word first (R64). -/
def wordWrites (c : Config) (nlimbs : Nat) (r : RegName) (v : Int) : List HostStmt :=
  (List.range (nlimbs + 1)).map (fun j => .memWrite (cellAddr c nlimbs r j) 4 (cellWord v j))

/-- The NLIMBS + 1 word reads that `HostReadInt(r)` stands for, sign word first (R64). -/
def wordReads (c : Config) (nlimbs : Nat) (r : RegName) : List HostStmt :=
  (List.range (nlimbs + 1)).map (fun j => .memRead (cellAddr c nlimbs r j) 4)

end Sys2Proof.Machine
end

