-- ==== Sys2Proof/Machine/Procedures.lean ====
section
/-! DEFINITION. The host procedures of spec 42_host_procedures.md (R200 to R213): software that runs on the host and drives
the machine through `step`, one RSA-NTE command for each modular operation (R200). They are no part of the machine: `step`
does not use this file. -/

namespace Sys2Proof.Machine

/-- Configuration of the host procedures, with the document's defaults (R8). -/
structure ProcConfig where
  primeDigitWidth : Nat := 50
  blockLength : Nat := 20
  alphabetSize : Nat := 256
deriving DecidableEq, Repr

/-- How a host procedure ends other than by returning. -/
inductive HostError where
  | invalidArgument    -- R250: the document's InvalidArgument, from a hardware INVALID_ARGUMENT
  | invalidUnit        -- R206
  | cancelled          -- R202
  | rngRange           -- a hardware RNG_RANGE; R250 names no outcome for it (the model's choice, log 30)
  | badDraw            -- a host draw outside its range, which R201 does not admit
  | starved            -- the random source gives no further answer (R278, U7)
  | refused            -- an input the document does not treat (U8; digit width or block length 0)
  | unfinished         -- the host's patience with one POLL ran out
  | stopped            -- the machine stopped: a port access that is no transaction, an operand that does not fit (R10); or a
                       -- hardware ILLEGAL_COMMAND, for which R250 names no outcome (the model's choice, log 30)
deriving DecidableEq, Repr

/-- What a procedure acts on: the machine, the answers of the randomness source still to come in the order of their
consumption (R201; one list stands for one stream or two, log 22), and the retry-loop iterations that pass before the
cancellation signal is found asserted (R202). -/
structure HostEnv where
  machine : State
  source : List Int
  budget : Nat
deriving DecidableEq, Repr

/-- At most `fuel` steps of the machine, ending when the script is done and STATE is not BUSY. -/
def runScript : (fuel : Nat) → State → Host.Outcome State Fault Refusal
  | 0, s => .next s
  | fuel + 1, s =>
    if s.script = [] ∧ s.state ≠ .busy then .next s
    else
      match step s with
      | .next s' => runScript fuel s'
      | .fault f => .fault f
      | .refused r => .refused r

/-- The host performs `stmts` as its whole script and keeps the last answer of the port. -/
def hostCall (fuel : Nat) (stmts : List HostStmt) (env : HostEnv) : Except HostError (Option Reply × HostEnv) :=
  match runScript fuel { env.machine with script := stmts } with
  | .next s =>
    if s.script = [] ∧ s.state ≠ .busy then .ok (s.replies.head?, { env with machine := s })
    else .error .unfinished
  | .fault _ => .error .stopped
  | .refused _ => .error .stopped

/-- ERR of a STATUS word (R33). -/
def statusErr (w : Word) : BitVec 4 := w.extractLsb' 4 4

/-- V of a STATUS word (R33). -/
def statusV (w : Word) : Bool := w.getLsbD 2

/-- STATE of a STATUS word (R33). -/
def statusState (w : Word) : BitVec 2 := w.extractLsb' 0 2

/-- A script that ends in POLL: the STATUS word, or the procedure's failure when ERR is not 0. INVALID_ARGUMENT is reported as
R250 says. RNG_RANGE and ILLEGAL_COMMAND, of which R250 says that only a wrong random source or host program brings them
and not what a procedure then reports, end it with an outcome of the model's own (DESIGN CHOICE, log 30). -/
def hostCommand (fuel : Nat) (stmts : List HostStmt) (env : HostEnv) : Except HostError (Word × HostEnv) :=
  match hostCall fuel stmts env with
  | .ok (some (.word w), env') =>
    if statusErr w = FaultCode.none.code then .ok (w, env')
    else if statusErr w = FaultCode.invalidArgument.code then .error .invalidArgument
    else if statusErr w = FaultCode.rngRange.code then .error .rngRange
    else .error .stopped
  | .ok _ => .error .stopped
  | .error e => .error e

/-- `RD reg` (R97). -/
def hostRead (fuel : Nat) (r : RegName) (env : HostEnv) : Except HostError (Int × HostEnv) :=
  match hostCall fuel [.readInt r] env with
  | .ok (some (.int v), env') => .ok (v, env')
  | .ok _ => .error .stopped
  | .error e => .error e

/-- `hostdraw(lo, hi)` (R201). -/
def hostDraw (lo hi : Int) (env : HostEnv) : Except HostError (Int × HostEnv) :=
  match env.source with
  | [] => .error .starved
  | r :: rest => if lo ≤ r ∧ r ≤ hi then .ok (r, { env with source := rest }) else .error .badDraw

/-! ### GENPRIME -/

/-- The witness requests of one MRTEST answered, one `WITNESS r` each, in order, until STATE is not WAIT_RNG (R98, R203); the
verdict V is the value. `answers` is the source, on which the recursion runs. -/
def answerWitnesses (fuel : Nat) : (answers : List Int) → Word → HostEnv → Except HostError (Bool × HostEnv)
  | [], w, env => if statusState w = EngState.waitRng.code then .error .starved else .ok (statusV w, env)
  | r :: rest, w, env =>
    if statusState w = EngState.waitRng.code then
      match hostCommand fuel (scriptWitness env.machine.cfg r) { env with source := rest } with
      | .ok (w', env') => answerWitnesses fuel rest w' env'
      | .error e => .error e
    else .ok (statusV w, env)

/-- `MRTEST c`, answering each witness request (R203). -/
def hostMrtest (fuel : Nat) (c : Int) (env : HostEnv) : Except HostError (Bool × HostEnv) :=
  match hostCommand fuel (scriptMrtest env.machine.cfg c) env with
  | .ok (w, env') => answerWitnesses fuel env'.source w env'
  | .error e => .error e

/-- The loop of R203; the cancellation signal is checked first in each iteration (R202). -/
def genprimeLoop (fuel : Nat) (lo hi : Int) : (budget : Nat) → HostEnv → Except HostError (Int × HostEnv)
  | 0, _ => .error .cancelled
  | n + 1, env =>
    match hostDraw lo hi { env with budget := n } with
    | .ok (c, env₁) =>
      match hostMrtest fuel c env₁ with
      | .ok (v, env₂) => if v then .ok (c, env₂) else genprimeLoop fuel lo hi n env₂
      | .error e => .error e
    | .error e => .error e

/-- GENPRIME (R203, C4, C5): candidates from [10^(digitWidth-1), 10^digitWidth - 1]; digitWidth is primeDigitWidth where the
caller gives none (R8). -/
def genprime (fuel : Nat) (p : ProcConfig) (env : HostEnv) (digitWidth : Nat := p.primeDigitWidth) : Except HostError (Int × HostEnv) :=
  if digitWidth = 0 then .error .refused
  else genprimeLoop fuel (10 ^ (digitWidth - 1)) (10 ^ digitWidth - 1) env.budget env

/-! ### KEYGEN -/

/-- A key pair {p, q, n, e, d} (R204, R205). -/
structure KeyPair where
  p : Int
  q : Int
  n : Int
  e : Int
  d : Int
deriving DecidableEq, Repr

/-- `repeat q <- GENPRIME(digitWidth) until q != p` (R204). Each GENPRIME uses up one iteration of the cancellation budget at
least, so `tries` = budget + 1 never runs out first. -/
def distinctPrime (fuel : Nat) (c : ProcConfig) (digitWidth : Nat) (p : Int) : (tries : Nat) → HostEnv → Except HostError (Int × HostEnv)
  | 0, _ => .error .cancelled
  | n + 1, env =>
    match genprime fuel c env digitWidth with
    | .ok (q, env₁) => if q ≠ p then .ok (q, env₁) else distinctPrime fuel c digitWidth p n env₁
    | .error e => .error e

/-- The choice of e in R204: `MODINV e, phi` until V = 1, then R0 is d. -/
def chooseExponent (fuel : Nat) (phi : Int) : (budget : Nat) → HostEnv → Except HostError ((Int × Int) × HostEnv)
  | 0, _ => .error .cancelled
  | n + 1, env =>
    match hostDraw 2 (phi - 1) { env with budget := n } with
    | .ok (e, env₁) =>
      match hostCommand fuel (scriptModinv env₁.machine.cfg e phi) env₁ with
      | .ok (w, env₂) =>
        if statusV w then
          match hostRead fuel .r0 env₂ with
          | .ok (d, env₃) => .ok ((e, d), env₃)
          | .error err => .error err
        else chooseExponent fuel phi n env₂
      | .error err => .error err
    | .error err => .error err

/-- KEYGEN (R204); digitWidth is primeDigitWidth where the caller gives none (R8). With phi = 2 the range of e is empty and the
host refuses (U8); it does so before the loop's cancellation check, an order the spec leaves open (DESIGN CHOICE, log 22). -/
def keygen (fuel : Nat) (c : ProcConfig) (env : HostEnv) (digitWidth : Nat := c.primeDigitWidth) :
    Except HostError (KeyPair × HostEnv) :=
  match genprime fuel c env digitWidth with
  | .ok (p, env₁) =>
    match distinctPrime fuel c digitWidth p (env₁.budget + 1) env₁ with
    | .ok (q, env₂) =>
      if (p - 1) * (q - 1) - 1 < 2 then .error .refused
      else
        match chooseExponent fuel ((p - 1) * (q - 1)) env₂.budget env₂ with
        | .ok ((e, d), env₃) => .ok (⟨p, q, p * q, e, d⟩, env₃)
        | .error err => .error err
    | .error err => .error err
  | .error err => .error err

/-! ### The block codec -/

/-- The text padded on the right with the sentinel unit 0 to a multiple of blockLength (R206, D35). -/
def padText (blockLength : Nat) (text : List Int) : List Int :=
  text ++ List.replicate ((blockLength - text.length % blockLength) % blockLength) 0

/-- One block of R206: the sum of unit[i] * alphabetSize^i. -/
def blockValue (alphabetSize : Nat) : (units : List Int) → Int
  | [] => 0
  | u :: rest => u + alphabetSize * blockValue alphabetSize rest

/-- ENCODE (R206). -/
def encodeText (blockLength alphabetSize : Nat) (text : List Int) : Except HostError (List Int) :=
  if blockLength = 0 then .error .refused
  else if text.any (fun u => decide (u < 0 ∨ (alphabetSize : Int) ≤ u)) then .error .invalidUnit
  else
    .ok ((List.range ((padText blockLength text).length / blockLength)).map (fun c =>
      blockValue alphabetSize (((padText blockLength text).drop (c * blockLength)).take blockLength)))

/-- The units of one block of R207, by repeated remainder and division. R12 uses div and mod with u >= 0 and v > 0 only, and
R207 does not treat a negative block or alphabetSize 0; there Lean's total `%` and `/` stand (Euclidean for a negative v;
v % 0 = v, v / 0 = 0): the model's choice (DESIGN CHOICE, log 29). -/
def blockUnits (alphabetSize : Nat) : (blockLength : Nat) → (v : Int) → List Int
  | 0, _ => []
  | n + 1, v => v % alphabetSize :: blockUnits alphabetSize n (v / alphabetSize)

/-- DECODE (R207): every unit equal to the sentinel 0 is removed. On a negative block or alphabetSize 0 see `blockUnits` (log
29). -/
def decodeText (blockLength alphabetSize : Nat) (blocks : List Int) : List Int :=
  ((blocks.map (blockUnits alphabetSize blockLength)).flatten).filter (· ≠ 0)

/-! ### TRANSFORM and the channel -/

/-- The loop of R208: B and M stand as written. -/
def transformLoop (fuel : Nat) : List Int → HostEnv → Except HostError (List Int × HostEnv)
  | [], env => .ok ([], env)
  | v :: rest, env =>
    match hostCommand fuel [.writeInt .a v, scriptCmd env.machine.cfg .modpow, .poll] env with
    | .ok (_, env₁) =>
      match hostRead fuel .r0 env₁ with
      | .ok (x, env₂) =>
        match transformLoop fuel rest env₂ with
        | .ok (xs, env₃) => .ok (x :: xs, env₃)
        | .error e => .error e
      | .error e => .error e
    | .error e => .error e

/-- TRANSFORM (R208). -/
def transform (fuel : Nat) (seq : List Int) (exponent modulus : Int) (env : HostEnv) :
    Except HostError (List Int × HostEnv) :=
  match hostCall fuel [.writeInt .b exponent, .writeInt .m modulus] env with
  | .ok (_, env₁) => transformLoop fuel seq env₁
  | .error e => .error e

/-- The public half (n, e) of a key pair (R205). -/
structure PublicKey where
  n : Int
  e : Int
deriving DecidableEq, Repr

/-- The public half of a key pair (R205). -/
def KeyPair.public (k : KeyPair) : PublicKey := ⟨k.n, k.e⟩

/-- Two transforms, one after the other. -/
def transformTwice (fuel : Nat) (seq : List Int) (e₁ n₁ e₂ n₂ : Int) (env : HostEnv) :
    Except HostError (List Int × HostEnv) :=
  match transform fuel seq e₁ n₁ env with
  | .ok (x, env₁) => transform fuel x e₂ n₂ env₁
  | .error e => .error e

/-- SENDSIGNED (R211): the transform with the smaller modulus comes first, the signature first when the moduli are equal. -/
def sendSigned (fuel : Nat) (p : ProcConfig) (text : List Int) (sender : KeyPair) (recipient : PublicKey)
    (env : HostEnv) : Except HostError (List Int × HostEnv) :=
  match encodeText p.blockLength p.alphabetSize text with
  | .ok m =>
    if recipient.n < sender.n then transformTwice fuel m recipient.e recipient.n sender.d sender.n env
    else transformTwice fuel m sender.d sender.n recipient.e recipient.n env
  | .error e => .error e

/-- RECEIVEVERIFIED (R212): the mirrored order; `authentic` only when the caller supplies the original text. -/
def receiveVerified (fuel : Nat) (p : ProcConfig) (cipher : List Int) (recipient : KeyPair) (sender : PublicKey)
    (original : Option (List Int)) (env : HostEnv) :
    Except HostError ((List Int × Option Bool) × HostEnv) :=
  match
    if recipient.n < sender.n then transformTwice fuel cipher sender.e sender.n recipient.d recipient.n env
    else transformTwice fuel cipher recipient.d recipient.n sender.e sender.n env with
  | .ok (m, env₁) =>
    let text := decodeText p.blockLength p.alphabetSize m
    .ok ((text, original.map (fun t => decide (text = t))), env₁)
  | .error e => .error e

/-- Plain encryption and decryption (R213): TRANSFORM(ENCODE(text), e, n). -/
def encryptText (fuel : Nat) (p : ProcConfig) (text : List Int) (key : PublicKey) (env : HostEnv) :
    Except HostError (List Int × HostEnv) :=
  match encodeText p.blockLength p.alphabetSize text with
  | .ok m => transform fuel m key.e key.n env
  | .error e => .error e

/-- DECODE(TRANSFORM(cipher, d, n)) (R213). -/
def decryptText (fuel : Nat) (p : ProcConfig) (cipher : List Int) (key : KeyPair) (env : HostEnv) :
    Except HostError (List Int × HostEnv) :=
  match transform fuel cipher key.d key.n env with
  | .ok (m, env₁) => .ok (decodeText p.blockLength p.alphabetSize m, env₁)
  | .error e => .error e

end Sys2Proof.Machine
end

