-- ==== Sys2Proof/WellFormed.lean ====
section
/-! DEFINITION. Well-formedness of the syntax. A command has no operand (spec 30_encoding.md R92), so every `Instr` is
well-formed; a host statement is well-formed when the port can form it and the register map has something there. These are
checks of the statement alone; what the host may do in which STATE is `Machine.State.admits` of Sys2Proof/Machine/Recommended.lean. -/

namespace Sys2Proof

/-- R92: no command word carries an operand, an immediate, a register number or a mode, so there is nothing to check. -/
def Instr.wf (_ : Instr) : Bool := true

/-- R66, R67: an aligned access of 4 bytes; R60: at or above BASE; R62, R71: to something that is mapped. -/
def Config.accessWf (c : Config) (addr size : Nat) : Bool :=
  decide (size = 4) && decide (addr % 4 = 0) && decide (c.base ≤ addr) &&
    decide (c.target (addr - c.base) ≠ .unmapped) && decide (c.target (addr - c.base) ≠ .wordless)

/-- A host statement that the port can form. `HostWriteInt(i, v)` is for i in 0, 1, 2, 6 and a v that fits (R10, R64). -/
def HostStmt.wf (c : Config) : HostStmt → Bool
  | .memRead addr size => c.accessWf addr size
  | .memWrite addr size _ => c.accessWf addr size
  | .readInt _ => true
  | .writeInt r v =>
    match r with
    | .a | .b | .m | .w => c.fits v
    | .r0 | .r1 | .r2 => false
  | .poll => true

end Sys2Proof
end

