-- ==== Sys2Proof/Machine/Recommended.lean ====
section
/-! DEFINITION. The recommended reading of what the spec leaves unspecified (spec 10_state.md R22, 20_memory.md R66, R69 to
R71, 30_encoding.md R95; 93_implementation_defined.md U2 to U4): the model refuses the host program. `step` takes the other
reading, under which nothing stops (logs 4 to 7); `stepRecommended` is the machine that refuses. -/

namespace Sys2Proof.Machine

/-- The big-integer registers a command reads (R92). -/
def readsOf : Instr → List RegName
  | .modpow => [.a, .b, .m]
  | .xgcd => [.a, .b]
  | .modinv => [.a, .m]
  | .mrtest => [.a]
  | .tdiv => [.a]
  | .resume => [.w, .a]

/-- A CMD write that is not dropped (R95) and, for a command, finds a value in each operand register (R22, U2). -/
def State.admitsCmd (s : State) (w : Word) : Bool :=
  match decode w with
  | .error _ => s.mayAccept
  | .ok i =>
    (if i = .resume then decide (s.state = .waitRng) else s.mayAccept) &&
      (readsOf i).all (fun n => (s.reg n).value.isSome)

/-- Whether the recommended reading admits a statement of the host in this state. -/
def State.admits (s : State) : HostStmt → Bool
  | .memRead addr size =>
    s.cfg.accessWf addr size &&
      match s.cfg.target (addr - s.cfg.base) with
      | .status | .trials => true
      | .cell n _ => s.hostMayRead n && (s.reg n).value.isSome
      | .cmd | .unmapped | .wordless => false
  | .memWrite addr size w =>
    s.cfg.accessWf addr size &&
      match s.cfg.target (addr - s.cfg.base) with
      | .cmd => s.admitsCmd w
      | .trials => s.mayAccept
      | .cell n _ => hostMayWrite n s.state
      | .status | .unmapped | .wordless => false
  | .readInt n => s.hostMayRead n && (s.reg n).value.isSome
  | .writeInt n v => s.cfg.fits v && hostMayWrite n s.state
  | .poll => true

/-- The host statement that the next step performs, if that step is the host's (log 2). -/
def State.nextStmt (s : State) : Option HostStmt :=
  match s.turns with
  | .host :: _ => s.script.head?
  | .engine :: _ | .rst :: _ => none
  | [] => if s.state = .busy then none else s.script.head?

/-- One step of the recommended machine: the host program whose next statement is not admitted is refused (R22, U2 to U4); every
other step is `step`'s. -/
def stepRecommended (s : State) : Host.Outcome State Fault Refusal :=
  match s.nextStmt with
  | some h => if s.admits h then step s else .refused (.notAdmitted h)
  | none => step s

end Sys2Proof.Machine
end

