-- ==== Sys2Proof/Safety.lean ====
section
/-! DEFINITION. The terms claims are stated in: the invariants of the machine and of its recommended reading, what a state shows when the working registers are left out, and the number theory the commands compute. -/

namespace Sys2Proof.Machine

/-! ### Small terms of the claims -/

/-- The first phase of a command (R95); RESUME goes back to the exponentiation (R165). -/
def firstPhase : Instr → Phase
  | .modpow => .mpCheck
  | .xgcd => .xgCheck
  | .modinv => .miCheck
  | .mrtest => .mrSpecial
  | .tdiv => .tdCheck
  | .resume => .mpInit

/-- No fault has ever been taken: the ghost history is empty (R248). -/
def State.neverFaulted (s : State) : Bool := s.history.isEmpty

/-! ### The form of the registers -/

/-- The canonical form of a register for parameters `c`: the unwritten cells in rising order and within the register, the
magnitude within NLIMBS limbs (R26), and 0 where nothing is written. Equal contents are then equal data. -/
def BigReg.wf (c : Config) (r : BigReg) : Bool :=
  decide (r.unwritten.Pairwise (· < ·)) && decide (∀ j ∈ r.unwritten, j < c.cells) &&
    decide (0 ∈ r.unwritten → r.neg = false) &&
    match c.nlimbs with
    | none => decide (r.unwritten ≠ [] → r.mag = 0)
    | some n => decide (r.mag < 2 ^ (32 * n)) && decide (∀ j ∈ r.unwritten, j ≠ 0 → limb r.mag (j - 1) = 0#32)

/-- Every register is in canonical form, and NLIMBS is a positive integer or unbounded (R9). -/
structure RegsInv (s : State) : Prop where
  cfg_wf : s.cfg.wf = true
  regs_wf : ∀ n : RegName, (s.reg n).wf s.cfg = true

/-! ### The control invariant (R24, R27 to R31, R38) -/

/-- OP and RET agree with the phase (R29): a shared loop returns to the command that runs. -/
def latchesFit (ph : Phase) (op : BitVec 8) (ret : Phase) : Bool :=
  match ph with
  | .idle => true
  | .mpCheck | .mpFin => decide (op = Instr.modpow.opcode)
  | .mpInit | .mpLoop =>
    decide (op = Instr.modpow.opcode ∧ ret = .mpFin) || decide (op = Instr.mrtest.opcode ∧ ret = .mrFirst)
  | .xgCheck | .xgFin => decide (op = Instr.xgcd.opcode)
  | .xgInit | .xgLoop =>
    decide (op = Instr.xgcd.opcode ∧ ret = .xgFin) || decide (op = Instr.modinv.opcode ∧ ret = .miNorm)
  | .miCheck | .miNorm | .miFin => decide (op = Instr.modinv.opcode)
  | .mrSpecial | .mrDecomp | .mrTrial | .mrWait | .mrFirst | .mrSq | .mrFin => decide (op = Instr.mrtest.opcode)
  | .tdCheck | .tdLoop | .tdFin => decide (op = Instr.tdiv.opcode)

/-- How STATE, PH, the witness request, V, ERR, the result registers and the latches hang together. -/
structure ControlInv (s : State) : Prop where
  /-- PH = PH_IDLE exactly when STATE is IDLE or DONE (R28) -/
  idle_iff : s.ph = .idle ↔ s.state = .idle ∨ s.state = .done
  /-- PH = MR_WAIT exactly when STATE = WAIT_RNG (R28) -/
  wait_iff : s.ph = .mrWait ↔ s.state = .waitRng
  /-- the request is open exactly while STATE = WAIT_RNG (R38) -/
  request_iff : s.request = true ↔ s.state = .waitRng
  /-- V = 1 only after a command that completed (R30) -/
  verdict_done : s.v = true → s.state = .done ∧ s.err = .none
  /-- ERR names a fault only in DONE (R31, R247, R248) -/
  err_done : s.err ≠ .none → s.state = .done
  /-- the result registers hold `none` but after a command that completed (R24, R70) -/
  results_void : s.state ≠ .done ∨ s.err ≠ .none →
    s.r0 = .void s.cfg.cells ∧ s.r1 = .void s.cfg.cells ∧ s.r2 = .void s.cfg.cells
  /-- OP and RET (R29) -/
  latches : latchesFit s.ph s.op s.ret = true

/-! ### The invariants of the iterations (R35 to R37, R125, R128, R131, R133, R162, R166, R171) -/

/-- MP_LOOP (R125): ACC * SQ^K is the power sought, and ACC and SQ are in [0, MOD) (R35). -/
structure MexpInv (s : State) : Prop where
  base_nonneg : 0 ≤ s.mpOperands.1
  exponent_nonneg : 0 ≤ s.mpOperands.2.1
  modulus_pos : 1 ≤ s.mpOperands.2.2
  modulus_eq : s.mexp.modulus = s.mpOperands.2.2
  acc_range : 0 ≤ s.mexp.acc ∧ s.mexp.acc < s.mexp.modulus
  sq_range : 0 ≤ s.mexp.sq ∧ s.mexp.sq < s.mexp.modulus
  k_nonneg : 0 ≤ s.mexp.k
  power : s.mexp.acc * s.mexp.sq ^ s.mexp.k.toNat % s.mexp.modulus =
    s.mpOperands.1 ^ s.mpOperands.2.1.toNat % s.mexp.modulus

/-- XG_LOOP: the invariant of R128, the non-negative pair G0, G1 with its gcd, and the bounds from which R131 follows. -/
structure XgcdInv (s : State) : Prop where
  a_nonneg : 0 ≤ s.xgOperands.1
  b_nonneg : 0 ≤ s.xgOperands.2
  g0_nonneg : 0 ≤ s.xg.g0
  g1_nonneg : 0 ≤ s.xg.g1
  gcd_eq : Int.gcd s.xg.g0 s.xg.g1 = Int.gcd s.xgOperands.1 s.xgOperands.2
  bezout0 : s.xgOperands.1 * s.xg.s0 + s.xgOperands.2 * s.xg.t0 = s.xg.g0
  bezout1 : s.xgOperands.1 * s.xg.s1 + s.xgOperands.2 * s.xg.t1 = s.xg.g1
  s_signs : s.xg.s0 * s.xg.s1 ≤ 0
  t_signs : s.xg.t0 * s.xg.t1 ≤ 0
  s_size : |s.xg.s1| * s.xg.g0 + |s.xg.s0| * s.xg.g1 = s.xgOperands.2
  t_size : |s.xg.t1| * s.xg.g0 + |s.xg.t0| * s.xg.g1 = s.xgOperands.1
  order : (s.xg.s1 = 0 ∧ s.xg.t1 = 1) ∨ s.xg.g1 < s.xg.g0
  s0_bound : |s.xg.s0| ≤ max s.xgOperands.2 1
  s0_strict : s.xg.s1 ≠ 0 → |s.xg.s0| < max s.xgOperands.2 1
  t0_bound : |s.xg.t0| ≤ max s.xgOperands.1 1

/-- D * 2^S = A - 1 with D odd (R162), A odd and at least 5 (R161). -/
structure MrInv (s : State) : Prop where
  a_large : 5 ≤ s.operand .a
  a_odd : s.operand .a % 2 = 1
  d_pos : 1 ≤ s.mr.d
  d_odd : s.mr.d % 2 = 1
  s_pos : 1 ≤ s.mr.s
  split : s.mr.d * 2 ^ s.mr.s.toNat = s.operand .a - 1

/-- A trial runs (R163, R165): T counts it, and its witness is in range. -/
structure TrialInv (s : State) : Prop extends MrInv s where
  t_pos : 1 ≤ s.mr.t
  w_range : 2 ≤ s.operand .w ∧ s.operand .w ≤ s.operand .a - 2

/-- What holds in each phase. -/
def PhaseInv (s : State) : Prop :=
  match s.ph with
  | .idle | .mpCheck | .xgCheck | .miCheck | .mrSpecial | .tdCheck => True
  | .mpInit =>
    (0 ≤ s.mpOperands.1 ∧ 0 ≤ s.mpOperands.2.1 ∧ 1 ≤ s.mpOperands.2.2) ∧
      (s.op = Instr.mrtest.opcode → TrialInv s)
  | .mpLoop => MexpInv s ∧ (s.op = Instr.mrtest.opcode → TrialInv s)
  | .mpFin =>
    1 ≤ s.operand .m ∧ 0 ≤ s.operand .b ∧ s.mexp.acc = s.operand .a ^ (s.operand .b).toNat % s.operand .m
  | .xgInit =>
    0 ≤ s.xgOperands.1 ∧ 0 ≤ s.xgOperands.2 ∧ (s.op = Instr.modinv.opcode → 1 ≤ s.operand .m)
  | .xgLoop => XgcdInv s ∧ (s.op = Instr.modinv.opcode → 1 ≤ s.operand .m)
  | .xgFin => XgcdInv s ∧ s.xg.g1 = 0
  | .miNorm => XgcdInv s ∧ s.xg.g1 = 0 ∧ 1 ≤ s.operand .m
  | .miFin =>
    1 ≤ s.operand .m ∧ (s.mr.verd = true ↔ Int.gcd (s.operand .a) (s.operand .m) = 1) ∧
      (s.mr.verd = true →
        0 ≤ s.xg.inv ∧ s.xg.inv < s.operand .m ∧ s.operand .a * s.xg.inv % s.operand .m = 1 % s.operand .m)
  | .mrDecomp =>
    5 ≤ s.operand .a ∧ s.operand .a % 2 = 1 ∧ 1 ≤ s.mr.d ∧ 0 ≤ s.mr.s ∧
      s.mr.d * 2 ^ s.mr.s.toNat = s.operand .a - 1
  | .mrTrial => MrInv s ∧ 0 ≤ s.mr.t
  | .mrWait => MrInv s ∧ 1 ≤ s.mr.t
  | .mrFirst => TrialInv s ∧ s.mexp.acc = s.operand .w ^ s.mr.d.toNat % s.operand .a
  | .mrSq =>
    TrialInv s ∧ 0 ≤ s.mr.j ∧ s.mr.j ≤ s.mr.s - 1 ∧
      s.mr.x = s.operand .w ^ (s.mr.d.toNat * 2 ^ s.mr.j.toNat) % s.operand .a ∧
      s.mr.x ≠ 1 ∧ s.mr.x ≠ s.operand .a - 1
  | .mrFin =>
    (s.mr.verd = true → s.operand .a = 2 ∨ s.operand .a = 3 ∨ (5 ≤ s.operand .a ∧ s.operand .a % 2 = 1)) ∧
      (s.mr.verd = false → ¬ Nat.Prime (s.operand .a).toNat)
  | .tdLoop =>
    2 ≤ s.operand .a ∧ 2 ≤ s.mr.kd ∧ ∀ k : Int, 2 ≤ k → k < s.mr.kd → ¬ k ∣ s.operand .a
  | .tdFin => s.mr.verd = true ↔ Nat.Prime (s.operand .a).toNat

/-- The invariant of the machine. -/
structure Inv (s : State) : Prop where
  regs : RegsInv s
  control : ControlInv s
  phase : PhaseInv s

/-- The command in progress has its operands (R22, R271): every register that the command in OP reads holds a value while it
runs, and so does W while a trial does. RESUME reads W in its own step, so W is asked of the trial's phases only. -/
structure OperandsDefined (s : State) : Prop where
  command : s.state = .busy ∨ s.state = .waitRng →
    ∀ i : Instr, i ≠ .resume → s.op = i.opcode → ∀ n ∈ readsOf i, (s.reg n).value.isSome
  witness : s.state = .busy → s.op = Instr.mrtest.opcode → s.ph ∈ [.mpInit, .mpLoop, .mrFirst, .mrSq] →
    s.w.value.isSome

/-! ### What a state shows without the working registers -/

/-- The state with OP, RET and the working registers of R35 to R37 blotted out: what can matter between commands (R39). -/
def State.withoutWorking (s : State) : State :=
  { s with
    op := 0#8
    ret := .idle
    mexp := ⟨0, 0, 0, 0⟩
    xg := ⟨0, 0, 0, 0, 0, 0, 0, 0⟩
    mr := ⟨0, 0, 0, 0, 0, 0, false⟩ }

/-- The same of an outcome. -/
def Outcome.withoutWorking : Host.Outcome State Fault Refusal → Host.Outcome State Fault Refusal
  | .next s => .next s.withoutWorking
  | .fault f => .fault f
  | .refused r => .refused r

/-! ### The verdict of Miller-Rabin, and the exchange of witnesses -/

/-- `a` is accepted as a witness for odd `n` (R160, R166): with n - 1 = d * 2^s and d odd, a^d is 1 modulo n, or one of a^d,
a^(2d), ..., a^(2^(s-1) d) is n - 1. -/
def WitnessAccepted (n a : Int) : Prop :=
  ∃ d s : Nat, d % 2 = 1 ∧ (d : Int) * 2 ^ s = n - 1 ∧
    (a ^ d % n = 1 ∨ ∃ r, r < s ∧ a ^ (d * 2 ^ r) % n = n - 1)

/-- The exchange of an MRTEST in progress (R76, R164, R165): the engine runs until it has ended or asks for a witness; each
answer of the list is written to W and delivered by RESUME. `WitnessExchange ws s t`: from s, exactly the answers ws are
asked for, and the engine ends in t. -/
inductive WitnessExchange : List Int → State → State → Prop where
  | ended (s : State) (k : Nat) (h : (engineRun k s).state = .done) : WitnessExchange [] s (engineRun k s)
  | answered (s s₁ t : State) (k : Nat) (r : Int) (ws : List Int) (h : (engineRun k s).state = .waitRng)
      (hr : exec .resume (hostWriteInt .w r (engineRun k s)) = .next s₁) (ht : WitnessExchange ws s₁ t) :
      WitnessExchange (r :: ws) s t

end Sys2Proof.Machine
end

