-- ==== Sys2Proof/Certificates/Slice0/Obligations.lean ====
section
/-! DEFINITION. The statements for the provers. Each docstring names the rules of spec/ it formalises. Every statement is over
every state its hypotheses allow, with the parameters NLIMBS and BASE of that state; a register that holds `none` gives a free
value as an operand (log 4), and no statement rests on that value. -/

open Sys2Proof Sys2Proof.Machine

/-! ### Encoding -/

/-- R91: the decoder reads each of the six words as its command, and no other word as any. -/
def Obligations.DecodeIsTheOpcodeMap : Prop :=
  ∀ (w : Word) (i : Instr),
    decode w = .ok i ↔
      w = match i with
        | .modpow => 0x00000001#32
        | .xgcd => 0x00000002#32
        | .modinv => 0x00000003#32
        | .mrtest => 0x00000004#32
        | .tdiv => 0x00000005#32
        | .resume => 0x00000006#32

/-- Decode and encode agree, in both directions, and the row numbering of the opcode table reads the same command. -/
def Obligations.DecodeEncodeAgree : Prop :=
  (∀ i : Instr, decode (encode i) = .ok i ∧ decodeTableWord 32 (encode i).toNat = some i) ∧
    ∀ (w : Word) (i : Instr), decode w = .ok i → encode i = w

/-- Words written out from the spec's encoding: three legal ones, and illegal ones of the vectors EN2 to EN5. -/
def Obligations.KnownWordsDecode : Prop :=
  decode 0b00000000000000000000000000000001#32 = .ok .modpow ∧
    decode 0b00000000000000000000000000000100#32 = .ok .mrtest ∧
    decode 0b00000000000000000000000000000110#32 = .ok .resume ∧
    decode 0x00000000#32 = .error .noSuchOpcode ∧ decode 0x00000007#32 = .error .noSuchOpcode ∧
    decode 0x00000101#32 = .error .reservedBits ∧ decode 0x80000001#32 = .error .reservedBits

/-- R93: a word is illegal when RSV is not 0 or OPC is not one of 0x01 to 0x06; written to CMD in IDLE or DONE it raises
ILLEGAL_COMMAND, and in BUSY and WAIT_RNG it is dropped. -/
def Obligations.IllegalWordFaultsOrIsDropped : Prop :=
  ∀ w : Word,
    ((∃ e, decode w = .error e) ↔ w.toNat / 256 ≠ 0 ∨ w.toNat % 256 = 0 ∨ 6 < w.toNat % 256) ∧
      ∀ (s : State) (e : Illegal), decode w = .error e →
        ((s.state = .idle ∨ s.state = .done) →
          perform (.memWrite s.cfg.base 4 w) s = .next (raiseFault .illegalCommand s)) ∧
        ((s.state = .busy ∨ s.state = .waitRng) → perform (.memWrite s.cfg.base 4 w) s = .next s)

/-! ### Acceptance -/

/-- R95, the column of OPC 0x01 to 0x05 in IDLE and DONE: every field the acceptance writes, and nothing else. -/
def Obligations.CommandIsAccepted : Prop :=
  ∀ (s : State) (i : Instr), i ≠ .resume → s.state = .idle ∨ s.state = .done →
    exec i s =
      .next
        { s with
          op := i.opcode
          v := false
          err := .none
          r0 := .void s.cfg.cells
          r1 := .void s.cfg.cells
          r2 := .void s.cfg.cells
          state := .busy
          ph := firstPhase i }

/-- R95, the whole table: what a word written to CMD does, by STATE and by what the word is. The last two lines of a RESUME in
WAIT_RNG are R165's (`ResumeDeliversWitness`, `ResumeOutOfRangeFaults`). -/
def Obligations.CmdWriteFollowsTheTable : Prop :=
  ∀ (s : State) (w : Word),
    (∀ i : Instr, decode w = .ok i → i ≠ .resume →
      (s.state = .idle ∨ s.state = .done →
        perform (.memWrite s.cfg.base 4 w) s =
          .next
            { s with
              op := i.opcode
              v := false
              err := .none
              r0 := .void s.cfg.cells
              r1 := .void s.cfg.cells
              r2 := .void s.cfg.cells
              state := .busy
              ph := match i with
                | .modpow => .mpCheck
                | .xgcd => .xgCheck
                | .modinv => .miCheck
                | .mrtest => .mrSpecial
                | .tdiv => .tdCheck
                | .resume => s.ph }) ∧
        (s.state = .busy ∨ s.state = .waitRng → perform (.memWrite s.cfg.base 4 w) s = .next s)) ∧
      (decode w = .ok .resume →
        (s.state ≠ .waitRng → perform (.memWrite s.cfg.base 4 w) s = .next s) ∧
          (s.state = .waitRng → perform (.memWrite s.cfg.base 4 w) s = exec .resume s)) ∧
      ∀ e : Illegal, decode w = .error e →
        (s.state = .idle ∨ s.state = .done →
          ∃ s', perform (.memWrite s.cfg.base 4 w) s = .next s' ∧ s'.v = false ∧ s'.r0 = .void s.cfg.cells ∧
            s'.r1 = .void s.cfg.cells ∧ s'.r2 = .void s.cfg.cells ∧ s'.err = .illegalCommand ∧ s'.state = .done) ∧
          (s.state = .busy ∨ s.state = .waitRng → perform (.memWrite s.cfg.base 4 w) s = .next s)

/-- R95 and R96, the dropped writes: a legal word changes nothing in BUSY, nor does a command in WAIT_RNG, nor RESUME in
IDLE and DONE. -/
def Obligations.CommandOutOfTurnIsDropped : Prop :=
  ∀ (s : State) (i : Instr),
    s.state = .busy ∨ (s.state = .waitRng ∧ i ≠ .resume) ∨ ((s.state = .idle ∨ s.state = .done) ∧ i = .resume) →
      exec i s = .next s

/-- R165: RESUME in WAIT_RNG with the witness in range closes the request and starts the exponentiation; V, ERR and every
register stay as they are. -/
def Obligations.ResumeDeliversWitness : Prop :=
  ∀ s : State, s.state = .waitRng → 2 ≤ s.operand .w → s.operand .w ≤ s.operand .a - 2 →
    exec .resume s = .next { s with request := false, state := .busy, ret := .mrFirst, ph := .mpInit }

/-- R243: RESUME with the witness out of range raises RNG_RANGE: no verdict, V = 0, ERR = 3, and the operands stay. -/
def Obligations.ResumeOutOfRangeFaults : Prop :=
  ∀ s : State, s.state = .waitRng → s.operand .w < 2 ∨ s.operand .w > s.operand .a - 2 →
    exec .resume s =
      .next
        { s with
          err := .rngRange
          v := false
          r0 := .void s.cfg.cells
          r1 := .void s.cfg.cells
          r2 := .void s.cfg.cells
          request := false
          state := .done
          ph := .idle
          epoch := s.epoch + 1
          history := s.history ++ [.rngRange] }

/-! ### The step -/

/-- A step runs the decoded command: with the host to move and a CMD write of a legal word at the head of its script, the step
is exec of the command at the state whose script and schedule have moved on by one (R61, R75, R95). With an empty schedule
the host is to move unless STATE is BUSY (the model's choice, log 2). `withFetchWord` makes it so. -/
def Obligations.StepRunsDecodedCommand : Prop :=
  (∀ (s : State) (w : Word) (i : Instr) (ts : List Turn) (sc : List HostStmt), decode w = .ok i →
    s.script = .memWrite s.cfg.base 4 w :: sc → s.turns = .host :: ts →
      step s = exec i { s with turns := ts, script := sc }) ∧
    (∀ (s : State) (w : Word) (i : Instr) (sc : List HostStmt), decode w = .ok i →
      s.script = .memWrite s.cfg.base 4 w :: sc → s.turns = [] → s.state ≠ .busy →
        step s = exec i { s with script := sc }) ∧
    ∀ (s : State) (w : Nat) (i : Instr), w < 2 ^ 32 → decode (BitVec.ofNat 32 w) = .ok i →
      step (s.withFetchWord 32 w) = exec i s

/-- The other turns: the engine takes one micro-step in its turn, and while BUSY with an empty schedule; the host performs its first
statement in its turn, and while not BUSY with an empty schedule; with no statement left nothing but the schedule moves (R16, R61,
R72; the schedule is the model's, log 2). -/
def Obligations.StepTakesTheTurn : Prop :=
  (∀ (s : State) (ts : List Turn), s.turns = .engine :: ts → step s = .next (microStep { s with turns := ts })) ∧
    (∀ s : State, s.turns = [] → s.state = .busy → step s = .next (microStep s)) ∧
    (∀ (s : State) (ts : List Turn) (h : HostStmt) (sc : List HostStmt), s.turns = .host :: ts → s.script = h :: sc →
      step s = perform h { s with turns := ts, script := sc }) ∧
    (∀ (s : State) (ts : List Turn), s.turns = .host :: ts → s.script = [] → step s = .next { s with turns := ts }) ∧
    (∀ (s : State) (h : HostStmt) (sc : List HostStmt), s.turns = [] → s.state ≠ .busy → s.script = h :: sc →
      step s = perform h { s with script := sc }) ∧
    ∀ s : State, s.turns = [] → s.state ≠ .busy → s.script = [] → step s = .next s

/-! ### The commands from acceptance to the end -/

/-- R122: MODPOW. Accepted in IDLE or DONE it ends in DONE: with bad arguments in the fault INVALID_ARGUMENT, after one micro-step;
else with R0 = A^B mod M, R1 and R2 `none`, V = 0, after bitlen(B) passes of MP_LOOP (R279) and the four other
micro-steps. A, B and M, and all that is not named, are unchanged. -/
def Obligations.ModpowComputesThePower : Prop :=
  decode 0x00000001#32 = .ok .modpow ∧ ∀ s : State, s.state = .idle ∨ s.state = .done →
    ∃ s₁, exec .modpow s = .next s₁ ∧ s₁.state = .busy ∧
      ((s.operand .m ≤ 0 ∨ s.operand .b < 0 ∨ s.operand .a < 0) → engineRun 1 s₁ = raiseFault .invalidArgument s₁) ∧
      (0 < s.operand .m → 0 ≤ s.operand .b → 0 ≤ s.operand .a →
        ∃ mexp : MexpRegs,
          engineRun ((s.operand .b).toNat.size + 4) s₁ =
            { s with
              r0 := .ofInt (s.operand .a ^ (s.operand .b).toNat % s.operand .m)
              r1 := .void s.cfg.cells
              r2 := .void s.cfg.cells
              v := false
              err := .none
              state := .done
              ph := .idle
              op := Instr.modpow.opcode
              ret := .mpFin
              mexp := mexp
              epoch := s.epoch + 1 })

/-- R127 and R130: XGCD. Accepted in IDLE or DONE it ends in DONE: with a negative argument in INVALID_ARGUMENT, after one micro-step;
else with R0 = gcd(A, B) and R1, R2 the Bezout pair of the iteration (Mathlib's `Nat.xgcdAux` from (B, 0, 1) and (A, 1, 0)),
for which A*R1 + B*R2 = R0, and V = 0. -/
def Obligations.XgcdComputesGcdAndBezoutPair : Prop :=
  decode 0x00000002#32 = .ok .xgcd ∧ ∀ s : State, s.state = .idle ∨ s.state = .done →
    ∃ s₁, exec .xgcd s = .next s₁ ∧ s₁.state = .busy ∧
      ((s.operand .a < 0 ∨ s.operand .b < 0) → engineRun 1 s₁ = raiseFault .invalidArgument s₁) ∧
      (0 ≤ s.operand .a → 0 ≤ s.operand .b →
        ∃ (k : Nat) (xg : XgcdRegs) (x y : Int),
          Nat.xgcdAux (s.operand .b).toNat 0 1 (s.operand .a).toNat 1 0 = (Int.gcd (s.operand .a) (s.operand .b), x, y) ∧
          s.operand .a * x + s.operand .b * y = Int.gcd (s.operand .a) (s.operand .b) ∧
          engineRun k s₁ =
            { s with
              r0 := .ofInt (Int.gcd (s.operand .a) (s.operand .b))
              r1 := .ofInt x
              r2 := .ofInt y
              v := false
              err := .none
              state := .done
              ph := .idle
              op := Instr.xgcd.opcode
              ret := .xgFin
              xg := xg
              epoch := s.epoch + 1 })

/-- R131: the ranges of XGCD's results. The bounds on R1 and R2 are general knowledge and not in the source (G1). -/
def Obligations.XgcdResultsAreBounded : Prop :=
  ∀ s : State, s.state = .idle ∨ s.state = .done → 0 ≤ s.operand .a → 0 ≤ s.operand .b →
    ∃ s₁ k g x y, exec .xgcd s = .next s₁ ∧ (engineRun k s₁).state = .done ∧
      (engineRun k s₁).r0.value = some g ∧ (engineRun k s₁).r1.value = some x ∧ (engineRun k s₁).r2.value = some y ∧
      g ≤ max (s.operand .a) (s.operand .b) ∧ |x| ≤ max (s.operand .b) 1 ∧ |y| ≤ max (s.operand .a) 1

/-- R132: MODINV. Accepted in IDLE or DONE it ends in DONE: with bad arguments in INVALID_ARGUMENT, after one micro-step; with
gcd(A, M) = 1 in V = 1 and R0 the inverse in [0, M) (R133); else in V = 0 and no result, which is no fault. -/
def Obligations.ModinvComputesTheInverse : Prop :=
  decode 0x00000003#32 = .ok .modinv ∧ ∀ s : State, s.state = .idle ∨ s.state = .done →
    ∃ s₁, exec .modinv s = .next s₁ ∧ s₁.state = .busy ∧
      ((s.operand .a < 0 ∨ s.operand .m ≤ 0) → engineRun 1 s₁ = raiseFault .invalidArgument s₁) ∧
      (0 ≤ s.operand .a → 0 < s.operand .m →
        ∃ (k : Nat) (xg : XgcdRegs) (mr : MrRegs) (d : Int),
          (Int.gcd (s.operand .a) (s.operand .m) = 1 →
            0 ≤ d ∧ d < s.operand .m ∧ s.operand .a * d % s.operand .m = 1 % s.operand .m) ∧
          engineRun k s₁ =
            { s with
              r0 := if Int.gcd (s.operand .a) (s.operand .m) = 1 then .ofInt d else .void s.cfg.cells
              r1 := .void s.cfg.cells
              r2 := .void s.cfg.cells
              v := decide (Int.gcd (s.operand .a) (s.operand .m) = 1)
              err := .none
              state := .done
              ph := .idle
              op := Instr.modinv.opcode
              ret := .miNorm
              xg := xg
              mr := mr
              epoch := s.epoch + 1 })

/-- R170: TDIV. Accepted in IDLE or DONE it ends in DONE with V = 1 exactly when A is prime, for any A; no fault, no result
register, no witness. -/
def Obligations.TdivDecidesPrimality : Prop :=
  decode 0x00000005#32 = .ok .tdiv ∧ ∀ s : State, s.state = .idle ∨ s.state = .done →
    ∃ s₁, exec .tdiv s = .next s₁ ∧ s₁.state = .busy ∧
      ∃ (k : Nat) (mr : MrRegs),
        engineRun k s₁ =
          { s with
            r0 := .void s.cfg.cells
            r1 := .void s.cfg.cells
            r2 := .void s.cfg.cells
            v := decide (Nat.Prime (s.operand .a).toNat)
            err := .none
            state := .done
            ph := .idle
            op := Instr.tdiv.opcode
            mr := mr
            epoch := s.epoch + 1 }

/-- R161 and the first rows of R168: on 2 and 3 MRTEST ends with V = 1, on any other A below 2 or even with V = 0, after two
micro-steps and with no witness requested, whatever MR_TRIALS holds. -/
def Obligations.MrtestSpecialCases : Prop :=
  ∀ s : State, s.state = .idle ∨ s.state = .done →
    s.operand .a = 2 ∨ s.operand .a = 3 ∨ s.operand .a < 2 ∨ s.operand .a % 2 = 0 →
    ∃ s₁, exec .mrtest s = .next s₁ ∧ s₁.state = .busy ∧ (engineRun 1 s₁).state = .busy ∧
      ∃ mr : MrRegs,
        engineRun 2 s₁ =
          { s with
            r0 := .void s.cfg.cells
            r1 := .void s.cfg.cells
            r2 := .void s.cfg.cells
            v := decide (s.operand .a = 2 ∨ s.operand .a = 3)
            err := .none
            state := .done
            ph := .idle
            op := Instr.mrtest.opcode
            mr := mr
            epoch := s.epoch + 1 }

/-- R162, R163 and R164: on an odd A of 5 or more MRTEST splits A - 1 = D * 2^S with D odd, and then asks for the first
witness, with T = MR_TRIALS trials to run; with MR_TRIALS = 0 it ends with V = 1 (R168). -/
def Obligations.MrtestDecomposesAndAsks : Prop :=
  ∀ s : State, s.state = .idle ∨ s.state = .done → 5 ≤ s.operand .a → s.operand .a % 2 = 1 →
    ∃ s₁, exec .mrtest s = .next s₁ ∧ s₁.state = .busy ∧
      ∃ (k : Nat) (mr : MrRegs), 1 ≤ mr.d ∧ mr.d % 2 = 1 ∧ 1 ≤ mr.s ∧ mr.d * 2 ^ mr.s.toNat = s.operand .a - 1 ∧
        mr.t = s.trials.toNat ∧
        engineRun k s₁ =
          if s.trials = 0#32 then
            { s with
              r0 := .void s.cfg.cells
              r1 := .void s.cfg.cells
              r2 := .void s.cfg.cells
              v := true
              err := .none
              state := .done
              ph := .idle
              op := Instr.mrtest.opcode
              mr := mr
              epoch := s.epoch + 1 }
          else
            { s with
              r0 := .void s.cfg.cells
              r1 := .void s.cfg.cells
              r2 := .void s.cfg.cells
              v := false
              err := .none
              state := .waitRng
              ph := .mrWait
              op := Instr.mrtest.opcode
              request := true
              mr := mr }

/-- R166: one trial. From WAIT_RNG, with a witness in range delivered, the engine either accepts the witness and has one trial
less to run (asking for the next witness, or ending with V = 1 after the last), or rejects it and ends with V = 0; it
accepts exactly when A is a strong probable prime to the base W. D and S stay (R162); all that is not named is unchanged. -/
def Obligations.TrialFollowsMillerRabin : Prop :=
  ∀ s : State, Inv s → s.state = .waitRng → 2 ≤ s.operand .w → s.operand .w ≤ s.operand .a - 2 →
    ∃ (s₁ : State) (k : Nat) (mexp : MexpRegs) (mr : MrRegs), exec .resume s = .next s₁ ∧ s₁.state = .busy ∧
      mr.d = s.mr.d ∧ mr.s = s.mr.s ∧
      (WitnessAccepted (s.operand .a) (s.operand .w) → 1 < s.mr.t →
        mr.t = s.mr.t - 1 ∧ engineRun k s₁ = { s with ret := .mrFirst, mexp := mexp, mr := mr }) ∧
      (¬ WitnessAccepted (s.operand .a) (s.operand .w) ∨ s.mr.t = 1 →
        ∃ verdict : Bool, (verdict = true ↔ WitnessAccepted (s.operand .a) (s.operand .w)) ∧
          engineRun k s₁ =
            { s with
              r0 := .void s.cfg.cells
              r1 := .void s.cfg.cells
              r2 := .void s.cfg.cells
              v := verdict
              err := .none
              state := .done
              ph := .idle
              ret := .mrFirst
              request := false
              mexp := mexp
              mr := mr
              epoch := s.epoch + 1 })

/-- R167: the verdict of MRTEST on an odd A of 5 or more and the witnesses it consumes. When MR_TRIALS answers are given and every
one is accepted, exactly they are asked for and V = 1; when the first answer that is not accepted comes within
MR_TRIALS answers, no further one is asked for and V = 0. -/
def Obligations.MrtestVerdictAndRequests : Prop :=
  ∀ (s s₁ : State) (ws : List Int), Inv s → s.state = .idle ∨ s.state = .done → exec .mrtest s = .next s₁ →
    5 ≤ s.operand .a → s.operand .a % 2 = 1 →
    (∀ r ∈ ws, s.cfg.fits r = true ∧ 2 ≤ r ∧ r ≤ s.operand .a - 2 ∧ WitnessAccepted (s.operand .a) r) →
    (ws.length = s.trials.toNat →
      ∃ t, WitnessExchange ws s₁ t ∧ t.state = .done ∧ t.err = .none ∧ t.v = true ∧ t.a = s.a ∧ t.trials = s.trials) ∧
    ∀ r : Int, ws.length < s.trials.toNat → s.cfg.fits r = true → 2 ≤ r → r ≤ s.operand .a - 2 →
      ¬ WitnessAccepted (s.operand .a) r →
        ∃ t, WitnessExchange (ws ++ [r]) s₁ t ∧ t.state = .done ∧ t.err = .none ∧ t.v = false ∧ t.a = s.a ∧
          t.trials = s.trials

/-- The general-knowledge sentence of R167 (G3): for a prime A every witness in range is accepted, so MRTEST gives V = 1 for
every sequence of MR_TRIALS draws. -/
def Obligations.PrimePassesEveryWitness : Prop :=
  ∀ (s s₁ : State) (ws : List Int), Inv s → s.state = .idle ∨ s.state = .done → exec .mrtest s = .next s₁ →
    5 ≤ s.operand .a → Nat.Prime (s.operand .a).toNat → ws.length = s.trials.toNat →
    (∀ r ∈ ws, s.cfg.fits r = true ∧ 2 ≤ r ∧ r ≤ s.operand .a - 2) →
      ∃ t, WitnessExchange ws s₁ t ∧ t.state = .done ∧ t.err = .none ∧ t.v = true

/-! ### The whole machine -/

/-- The invariant holds after reset, for every legal NLIMBS and every BASE. -/
def Obligations.ResetMeetsTheInvariant : Prop :=
  Inv State.reset ∧ ∀ c : Config, c.wf = true → Inv (State.resetWith c)

/-- Every step keeps the control invariant: PH_IDLE exactly in IDLE and DONE, MR_WAIT exactly in WAIT_RNG (R28), the request
open exactly then (R38), V and ERR and the results only in DONE (R24, R30, R31), OP and RET those of the command (R29). -/
def Obligations.StepKeepsControl : Prop :=
  ∀ s s' : State, ControlInv s → step s = .next s' → ControlInv s'

/-- Every step keeps the invariants of the iterations: R125 in MP_LOOP, R128 in XG_LOOP, R162 in MRTEST, and what each last
phase is about to write (R122, R132, R160, R170). -/
def Obligations.StepKeepsTheIterations : Prop :=
  ∀ s s' : State, ControlInv s → PhaseInv s → step s = .next s' → PhaseInv s'

/-- Every step keeps every register in canonical form and within NLIMBS limbs: no command overflows a result register (R10). -/
def Obligations.StepKeepsRegistersInRange : Prop :=
  ∀ s s' : State, Inv s → step s = .next s' → RegsInv s'

/-- The transitions of STATE: those of R27, with WAIT_RNG to DONE, by which RESUME raises RNG_RANGE (R165, R247; log 19). Any
state goes to IDLE at reset (a step of the schedule, log 20). -/
def Obligations.StateTransitions : Prop :=
  (∀ s s' : State, ControlInv s → step s = .next s' → s.turns.head? ≠ some .rst → s'.state ≠ s.state →
    ((s.state = .idle ∨ s.state = .done) ∧ s'.state = .busy) ∨ (s.state = .busy ∧ s'.state = .waitRng) ∨
      (s.state = .waitRng ∧ s'.state = .busy) ∨ (s.state = .busy ∧ s'.state = .done) ∨
      (s.state = .idle ∧ s'.state = .done) ∨ (s.state = .waitRng ∧ s'.state = .done ∧ s'.err = .rngRange)) ∧
    ∀ s : State, s.turns.head? = some .rst → ∃ s', step s = .next s' ∧ s'.state = .idle

/-- R23, with R25 and R34: no command and no micro-step writes A, B or M, nor W or MR_TRIALS. -/
def Obligations.CommandsKeepTheOperands : Prop :=
  (∀ (i : Instr) (s s' : State), exec i s = .next s' →
    s'.a = s.a ∧ s'.b = s.b ∧ s'.m = s.m ∧ s'.w = s.w ∧ s'.trials = s.trials) ∧
    ∀ (k : Nat) (s : State),
      (engineRun k s).a = s.a ∧ (engineRun k s).b = s.b ∧ (engineRun k s).m = s.m ∧ (engineRun k s).w = s.w ∧
        (engineRun k s).trials = s.trials

/-- R24, R73: a micro-step that leaves STATE other than DONE writes no result register, no V and no ERR; so results, V, ERR
and DONE come in one step. -/
def Obligations.ResultsComeWithDone : Prop :=
  ∀ s : State, (microStep s).state ≠ .done →
    (microStep s).r0 = s.r0 ∧ (microStep s).r1 = s.r1 ∧ (microStep s).r2 = s.r2 ∧ (microStep s).v = s.v ∧
      (microStep s).err = s.err

/-- R247, R244: a step that takes a fault (the ghost history of R248 grows, or ERR takes a new code) is the fault entry, one atomic
step, and nothing else: ERR, V, the results, the request, STATE and PH are as R247 says, and A, B, M, W, MR_TRIALS and every
other field stay; the model's epoch and history count it (logs 4 and 15), and the script and the schedule, which are outside the
engine, have moved on by at most one. -/
def Obligations.FaultEntryIsAtomic : Prop :=
  ∀ s s' : State, step s = .next s' → s'.history ≠ s.history ∨ (s'.err ≠ s.err ∧ s'.err ≠ .none) →
    (s'.script = s.script ∨ s'.script = s.script.tail) ∧
      ∃ f, f ≠ .none ∧
        s' =
          { s with
            err := f
            v := false
            r0 := .void s.cfg.cells
            r1 := .void s.cfg.cells
            r2 := .void s.cfg.cells
            request := false
            state := .done
            ph := .idle
            epoch := s.epoch + 1
            history := s.history ++ [f]
            script := s'.script
            turns := s.turns.tail }

/-- Towards R277: from every state of the invariant the engine leaves BUSY after finitely many micro-steps; and after a RESUME in
WAIT_RNG it ends the command, or asks again with fewer trials left and at least one. That a command reaches DONE is
`AnsweredCommandsReachDone`. -/
def Obligations.EngineLeavesBusyAndTrialsProgress : Prop :=
  ∀ s : State, Inv s →
    (∃ k, (engineRun k s).state ≠ .busy) ∧
      ∀ s₁, s.state = .waitRng → exec .resume s = .next s₁ →
        ∃ k, (engineRun k s₁).state = .done ∨
          ((engineRun k s₁).state = .waitRng ∧ 1 ≤ (engineRun k s₁).mr.t ∧ (engineRun k s₁).mr.t < s.mr.t)

/-- R277, its first sentence: every command ends in DONE after finitely many micro-steps, given that each witness request is answered.
`answers` is any sequence of answers a host can write to W, in range or not (one out of range ends the test, R243); at most
MR_TRIALS of them are asked for. The measures by which R277 argues are the invariants of the iterations, not stated here. -/
def Obligations.AnsweredCommandsReachDone : Prop :=
  ∀ (s s₁ : State) (i : Instr) (answers : Nat → Int), Inv s → s.state = .idle ∨ s.state = .done → i ≠ .resume →
    exec i s = .next s₁ → (∀ j, s.cfg.fits (answers j) = true) →
      ∃ (n : Nat) (t : State), n ≤ s.trials.toNat ∧ WitnessExchange ((List.range n).map answers) s₁ t ∧ t.state = .done

/-- R278, R164: in WAIT_RNG the engine has no step of its own, and no command but RESUME moves it. -/
def Obligations.OnlyResumeLeavesWaitRng : Prop :=
  ∀ s : State, ControlInv s → s.state = .waitRng →
    (∀ k, engineRun k s = s) ∧
      (∀ i : Instr, i ≠ .resume → exec i s = .next s) ∧
      ∀ (h : HostStmt) (s' : State), perform h s = .next s' → s'.state ≠ .waitRng →
        h = .memWrite s.cfg.base 4 (encode .resume)

/-- R35 to R37 and R40 (U17): no command reads a working register, OP or RET before it is written. Two states between commands
that differ in those only never show a difference in anything else, over any schedule and any script. -/
def Obligations.WorkingRegistersAreUnobservable : Prop :=
  ∀ (n : Nat) (s t : State), ControlInv s → s.state = .idle ∨ s.state = .done →
    s.withoutWorking = t.withoutWorking →
      Outcome.withoutWorking (Host.Core.run Sys2Proof.core n s) =
        Outcome.withoutWorking (Host.Core.run Sys2Proof.core n t)

/-! ### Reset -/

/-- R40 and R270: with the reset input asserted the step leaves IDLE, PH_IDLE, V = 0, ERR = 0, MR_TRIALS = 20, every big-integer
register `none` and no request open, whatever ran before. That reset is one step of the schedule, and that the script and the rest
of the schedule stay, is the model's choice (log 20). -/
def Obligations.ResetAbandonsEverything : Prop :=
  ∀ (s : State) (ts : List Turn), s.turns = .rst :: ts →
    ∃ s', step s = .next s' ∧ s'.state = .idle ∧ s'.ph = .idle ∧ s'.v = false ∧ s'.err = .none ∧ s'.trials = 20#32 ∧
      s'.request = false ∧ (∀ n : RegName, (s'.reg n).value = none) ∧ s'.cfg = s.cfg ∧ s'.script = s.script ∧
      s'.turns = ts

/-! ### The host port -/

/-- R33, with the numbers of R27 and R31: the STATUS word, field by field, its value after reset, that a read of 0x004 answers it and changes nothing else, and
that a write there is dropped. -/
def Obligations.StatusWordLayout : Prop :=
  ∀ s : State,
    perform (.memRead (s.cfg.base + 0x004) 4) s = .next { s with replies := .word s.status :: s.replies } ∧
      (∀ w, perform (.memWrite (s.cfg.base + 0x004) 4 w) s = .next s) ∧ (State.resetWith s.cfg).status = 0#32 ∧
      s.status.extractLsb' 0 2 = (match s.state with | .idle => 0#2 | .busy => 1#2 | .waitRng => 2#2 | .done => 3#2) ∧
      s.status.getLsbD 2 = s.v ∧ s.status.getLsbD 3 = false ∧
      s.status.extractLsb' 4 4 =
        (match s.err with | .none => 0#4 | .invalidArgument => 1#4 | .illegalCommand => 2#4 | .rngRange => 3#4) ∧
      s.status.extractLsb' 8 24 = 0#24

/-- R34: MR_TRIALS is read at 0x008 with no side effect, a write there of any word is stored in IDLE and DONE and dropped in BUSY
and WAIT_RNG, and it is 20 after reset. -/
def Obligations.TrialsRegisterAccess : Prop :=
  ∀ (s : State) (w : Word),
    perform (.memRead (s.cfg.base + 0x008) 4) s = .next { s with replies := .word s.trials :: s.replies } ∧
      perform (.memWrite (s.cfg.base + 0x008) 4 w) s =
        .next (if s.state = .idle ∨ s.state = .done then { s with trials := w } else s) ∧
      (State.resetWith s.cfg).trials = 20#32

/-- R62 (with R21 and R71): the register map. For a finite NLIMBS cell j of register i, counted as R21 counts them, stands at 0x010 + i*STRIDE + 4*j, 0x00C and everything
from 0x010 + 7*STRIDE on is unmapped, and no two cells share an offset; with NLIMBS unbounded there is no word map from
0x010 on. -/
def Obligations.RegisterMapLayout : Prop :=
  ∀ (c : Config) (n : Nat), c.nlimbs = some n →
    c.target 0x000 = .cmd ∧ c.target 0x004 = .status ∧ c.target 0x008 = .trials ∧ c.target 0x00C = .unmapped ∧
      (∀ (r : RegName) (j : Nat), j ≤ n → c.target
        (0x010 + (match r with | .a => 0 | .b => 1 | .m => 2 | .r0 => 3 | .r1 => 4 | .r2 => 5 | .w => 6) * (4 * (n + 1)) + 4 * j) =
          .cell r j) ∧
      (∀ off, 0x010 + 7 * (4 * (n + 1)) ≤ off → c.target off = .unmapped) ∧
      (∀ (off off' : Nat) (r : RegName) (j : Nat), off % 4 = 0 → off' % 4 = 0 → c.target off = .cell r j →
        c.target off' = .cell r j → off = off') ∧
      ∀ off, 0x010 ≤ off → ({ c with nlimbs := none } : Config).target off = .wordless

/-- R63: the Integer of a register all of whose cells are written is (-1)^SIGN[0] times the sum of limb[j] * 2^(32*j); with a
cell unwritten it holds `none`; and the cells read back as sign word and limbs, bits 31:1 of the sign word 0. That a written cell reads
so while another cell of the register is unwritten is the model's choice (log 17), where R22 says unspecified. -/
def Obligations.RegisterValueFromCells : Prop :=
  ∀ (c : Config) (n : Nat) (r : BigReg), c.nlimbs = some n → r.wf c = true →
    (r.unwritten = [] →
      r.value = some ((if r.neg then -1 else 1) *
        ((List.range n).map (fun j => ((limb r.mag j).toNat : Int) * 2 ^ (32 * j))).sum)) ∧
      (r.unwritten ≠ [] → r.value = none) ∧
      (0 ∉ r.unwritten → r.readCell 0 = some (if r.neg then 1#32 else 0#32)) ∧
      ∀ j, j + 1 ∉ r.unwritten → r.readCell (j + 1) = some (limb r.mag j)

/-- R63: a cell read after a write of it gives the word written, of the sign word bit 0 only (bits 31:1 are ignored on write and
read 0), and every other cell reads as before. That this holds while the register still has unwritten cells, and so holds `none`, is
the model's choice (log 17), where R22 says unspecified. -/
def Obligations.CellReadAfterWrite : Prop :=
  ∀ (r : BigReg) (w : Word),
    (r.writeCell 0 w).readCell 0 = some (w &&& 1#32) ∧
      (∀ j, (r.writeCell (j + 1) w).readCell (j + 1) = some w) ∧
      ∀ i j, i ≠ j → (r.writeCell j w).readCell i = r.readCell i

/-- R64 (with R63): where the access table stores, the NLIMBS + 1 word writes of `HostWriteInt`, in any order, leave the
register as `HostWriteInt` does, whatever it held. -/
def Obligations.WordWritesStoreTheInteger : Prop :=
  ∀ (s : State) (n : Nat) (r : RegName) (v : Int) (order : List Nat), s.cfg.nlimbs = some n → RegsInv s →
    s.cfg.fits v = true → hostMayWrite r s.state = true → order.Perm (List.range (n + 1)) →
      order.foldl (fun t j => hostWriteCell r j (cellWord v j) t) s = hostWriteInt r v s ∧
        (hostWriteInt r v s).reg r = .ofInt v

/-- R64, R65, V-PORT: the words a result is read back as: the sign word is 1 exactly when v < 0 and limb j is digit j of |v| to
base 2^32; a stored magnitude of 0 has sign 0, and sign 1 with limbs 0 has the value 0. The engine never produces that: a register that a
command or a micro-step changes has sign 0 when its magnitude is 0. -/
def Obligations.StoredCellsOfAnInteger : Prop :=
  (∀ (v : Int) (j : Nat), (BigReg.ofInt v).readCell 0 = some (if v < 0 then 1#32 else 0#32) ∧
    (BigReg.ofInt v).readCell (j + 1) = some (BitVec.ofNat 32 (v.natAbs / 2 ^ (32 * j)))) ∧
    (∀ v : Int, (BigReg.ofInt v).mag = 0 → (BigReg.ofInt v).neg = false) ∧ (⟨true, 0, []⟩ : BigReg).value = some 0 ∧
    ∀ (s s' : State) (n : RegName), s' = microStep s ∨ (∃ i : Instr, exec i s = .next s') → s'.reg n ≠ s.reg n →
      (s'.reg n).mag = 0 → (s'.reg n).neg = false

/-- R69, the write rows: A, B and M are stored in IDLE and DONE, W in WAIT_RNG, R0 to R2 never, by the whole-register write of
R64 for every NLIMBS and word by word for a finite one; STATUS, 0x00C and the unmapped offsets never; a dropped write changes
nothing (log 6; a `HostWriteInt` to R0 to R2, which R64 does not have, is dropped as the rows say, log 28). -/
def Obligations.WriteAccessTable : Prop :=
  ∀ s : State,
    (∀ (r : RegName) (v : Int), s.cfg.fits v = true →
      perform (.writeInt r v) s =
        .next
          (if ((r = .a ∨ r = .b ∨ r = .m) ∧ (s.state = .idle ∨ s.state = .done)) ∨ (r = .w ∧ s.state = .waitRng) then
            s.setReg r (.ofInt v)
          else s)) ∧
      (∀ w, perform (.memWrite (s.cfg.base + 0x004) 4 w) s = .next s ∧
        perform (.memWrite (s.cfg.base + 0x00C) 4 w) s = .next s) ∧
      ∀ (n : Nat) (w : Word), s.cfg.nlimbs = some n →
        (∀ (r : RegName) (j : Nat), j ≤ n →
          perform (.memWrite (cellAddr s.cfg n r j) 4 w) s =
            .next
              (if ((r = .a ∨ r = .b ∨ r = .m) ∧ (s.state = .idle ∨ s.state = .done)) ∨ (r = .w ∧ s.state = .waitRng) then
                s.setReg r ((s.reg r).writeCell j w)
              else s)) ∧
          ∀ off, off % 4 = 0 → 0x010 + 7 * (4 * (n + 1)) ≤ off → perform (.memWrite (s.cfg.base + off) 4 w) s = .next s

/-- R69 and R70, the read rows: the current value is answered of A, B and M in every STATE, of W in WAIT_RNG, of R0 to R2 in DONE with
ERR = 0, by the whole-register read of R64 for every NLIMBS and word by word for a finite one (the sign word, then the limbs;
a written cell of a register that holds `none` answers its word, log 17). In every other STATE, of a cell that nothing has
written, of CMD, 0x00C and the unmapped offsets the answer is a free value (log 5). -/
def Obligations.ReadAccessTable : Prop :=
  ∀ s : State,
    (∀ r : RegName,
      let current := r = .a ∨ r = .b ∨ r = .m ∨ (r = .w ∧ s.state = .waitRng) ∨
        ((r = .r0 ∨ r = .r1 ∨ r = .r2) ∧ s.state = .done ∧ s.err = .none)
      (∀ v, current → (s.reg r).value = some v →
        perform (.readInt r) s = .next { s with replies := .int v :: s.replies }) ∧
        (¬ current ∨ (s.reg r).value = none →
          perform (.readInt r) s =
            .next { s with replies := .int (s.cfg.fit (Config.freeInt s.draws)) :: s.replies, draws := s.draws + 1 }) ∧
        ∀ n j : Nat, s.cfg.nlimbs = some n → j ≤ n →
          (current → j ∉ (s.reg r).unwritten →
            perform (.memRead (cellAddr s.cfg n r j) 4) s =
              .next
                { s with
                  replies :=
                    .word
                      (if j = 0 then if (s.reg r).neg then 1#32 else 0#32
                      else BitVec.ofNat 32 ((s.reg r).mag / 2 ^ (32 * (j - 1)))) :: s.replies }) ∧
            (¬ current ∨ j ∈ (s.reg r).unwritten →
              perform (.memRead (cellAddr s.cfg n r j) 4) s =
                .next { s with replies := .word (Config.freeWord s.draws) :: s.replies, draws := s.draws + 1 })) ∧
      ∀ off, off % 4 = 0 →
        off = 0x000 ∨ off = 0x00C ∨ (∃ n, s.cfg.nlimbs = some n ∧ 0x010 + 7 * (4 * (n + 1)) ≤ off) →
          perform (.memRead (s.cfg.base + off) 4) s =
            .next { s with replies := .word (Config.freeWord s.draws) :: s.replies, draws := s.draws + 1 }

/-- R272: while STATE is BUSY every host write changes nothing. -/
def Obligations.BusyDropsEveryWrite : Prop :=
  ∀ (s s' : State), s.state = .busy →
    (∀ addr size w, perform (.memWrite addr size w) s = .next s' → s' = s) ∧
      ∀ r v, perform (.writeInt r v) s = .next s' → s' = s

/-- R68: no read has a side effect: whatever the host reads, the state differs at most in the answers given and the number of
free values drawn (and in POLL's own place in the script). -/
def Obligations.ReadsHaveNoSideEffect : Prop :=
  ∀ (s s' : State),
    (∀ addr size, perform (.memRead addr size) s = .next s' →
      s' = { s with replies := s'.replies, draws := s'.draws }) ∧
      (∀ r, perform (.readInt r) s = .next s' → s' = { s with replies := s'.replies, draws := s'.draws }) ∧
      (perform .poll s = .next s' → s' = { s with replies := s'.replies, script := s'.script })

/-- R70: a result register that holds a value is answered with it when STATE = DONE and ERR = 0; in every other state the answer
is a free value (log 5), within the register's range. -/
def Obligations.ResultReads : Prop :=
  ∀ (s : State) (n : RegName), n = .r0 ∨ n = .r1 ∨ n = .r2 →
    (∀ v, s.state = .done → s.err = .none → (s.reg n).value = some v →
      perform (.readInt n) s = .next { s with replies := .int v :: s.replies }) ∧
      (s.state ≠ .done ∨ s.err ≠ .none ∨ (s.reg n).value = none →
        perform (.readInt n) s =
          .next { s with replies := .int (s.cfg.fit (Config.freeInt s.draws)) :: s.replies, draws := s.draws + 1 })

/-- R66, R67 and R10: what is no transaction of the port is refused by name, and so is an operand that does not fit. -/
def Obligations.PortRefusesWhatItCannotForm : Prop :=
  ∀ (s : State) (addr size : Nat) (w : Word) (r : RegName) (v : Int),
    (size ≠ 4 → perform (.memRead addr size) s = .refused (.accessSize size) ∧
      perform (.memWrite addr size w) s = .refused (.accessSize size)) ∧
      (addr % 4 ≠ 0 → perform (.memRead addr 4) s = .refused (.misaligned addr) ∧
        perform (.memWrite addr 4 w) s = .refused (.misaligned addr)) ∧
      (s.cfg.fits v = false → perform (.writeInt r v) s = .refused .operandTooWide)

/-- The recommended model (R22, R69, R95; U2 to U4): a statement of the host that it admits is performed, answers a next state,
and draws no free value; and a command it admits finds a value in every register that the command reads (R92). -/
def Obligations.AdmittedStatementsAreDefined : Prop :=
  ∀ (s : State) (h : HostStmt), s.admits h = true → ∃ s', perform h s = .next s' ∧ s'.draws = s.draws ∧
    ∀ w i, h = .memWrite s.cfg.base 4 w → decode w = .ok i → ∀ n ∈ readsOf i, (s.reg n).value = some (s.operand n)

/-- R22 and U2, the recommended reading: the machine that refuses. A command or RESUME written to CMD while a register it reads (R92)
holds `none` is refused, in every STATE in which the host has the turn; so is every other statement that `admits` leaves out; and on an admitted
statement, and where the step is not the host's, this machine is `step`. Where it steps it draws no free value for a host read. -/
def Obligations.RecommendedMachineRefusesNone : Prop :=
  (∀ (s : State) (w : Word) (i : Instr) (n : RegName) (sc : List HostStmt), decode w = .ok i →
    s.script = .memWrite s.cfg.base 4 w :: sc → s.turns.head? = some .host ∨ (s.turns = [] ∧ s.state ≠ .busy) →
    n ∈ (match i with
      | .modpow => [.a, .b, .m]
      | .xgcd => [.a, .b]
      | .modinv => [.a, .m]
      | .mrtest => [.a]
      | .tdiv => [.a]
      | .resume => [.w, .a] : List RegName) →
    (s.reg n).value = none → stepRecommended s = .refused (.notAdmitted (.memWrite s.cfg.base 4 w))) ∧
    (∀ (s : State) (st : HostStmt), s.nextStmt = some st → s.admits st = false →
      stepRecommended s = .refused (.notAdmitted st)) ∧
    (∀ s : State, (∀ st, s.nextStmt = some st → s.admits st = true) → stepRecommended s = step s) ∧
    ∀ s s' : State, stepRecommended s = .next s' → step s = .next s' ∧ s'.draws = s.draws

/-- R22, R271: in the recommended machine every register that the command in progress reads holds a value, through the command, so no
micro-step computes on a free operand; every step keeps this. -/
def Obligations.RecommendedStepKeepsOperandsDefined : Prop :=
  (∀ c : Config, OperandsDefined (State.resetWith c)) ∧
    ∀ s s' : State, ControlInv s → OperandsDefined s → stepRecommended s = .next s' → OperandsDefined s'

/-! ### Host procedures -/

/-- R207: DECODE of ENCODE gives the text back, for a text of units below alphabetSize with no sentinel in it. -/
def Obligations.CodecRoundTrip : Prop :=
  ∀ (blockLength alphabetSize : Nat) (text : List Int), 0 < blockLength →
    (∀ u ∈ text, 0 < u ∧ u < alphabetSize) →
      ∃ blocks, encodeText blockLength alphabetSize text = .ok blocks ∧
        decodeText blockLength alphabetSize blocks = text

/-- R206: ENCODE fails with InvalidUnit exactly on a unit outside [0, alphabetSize); else every block is in
[0, alphabetSize^blockLength), and there is one for each blockLength units, rounded up. -/
def Obligations.EncodeBlocksInRange : Prop :=
  ∀ (blockLength alphabetSize : Nat) (text : List Int), 0 < blockLength →
    (encodeText blockLength alphabetSize text = .error .invalidUnit ↔ ∃ u ∈ text, u < 0 ∨ (alphabetSize : Int) ≤ u) ∧
      ∀ blocks, encodeText blockLength alphabetSize text = .ok blocks →
        blocks.length = (text.length + blockLength - 1) / blockLength ∧
          ∀ v ∈ blocks, 0 ≤ v ∧ v < (alphabetSize : Int) ^ blockLength

/-- R208: TRANSFORM on a machine between commands, given patience enough, is MODPOW on each element, order and length
kept; and it leaves the machine between commands. -/
def Obligations.TransformAppliesModpow : Prop :=
  ∀ (env : HostEnv) (seq : List Int) (e m : Int), Inv env.machine →
    env.machine.state = .idle ∨ env.machine.state = .done → env.machine.turns = [] →
    0 ≤ e → 0 < m → env.machine.cfg.fits e = true → env.machine.cfg.fits m = true →
    (∀ v ∈ seq, 0 ≤ v ∧ env.machine.cfg.fits v = true) →
      ∃ fuel₀, ∀ fuel, fuel₀ ≤ fuel →
        ∃ env', transform fuel seq e m env = .ok (seq.map (fun v => v ^ e.toNat % m), env') ∧ Inv env'.machine ∧
          (env'.machine.state = .idle ∨ env'.machine.state = .done) ∧ env'.machine.turns = [] ∧
          env'.machine.cfg = env.machine.cfg ∧ env'.source = env.source

/-- R210: the RSA round trip for true primes: two TRANSFORMs, with e and then d, give every message below p*q back. -/
def Obligations.RsaRoundTrip : Prop :=
  ∀ (env : HostEnv) (p q : Nat) (e d : Int) (msg : List Int), Nat.Prime p → Nat.Prime q → p ≠ q → 0 ≤ e → 0 ≤ d →
    e * d % ((p - 1) * (q - 1)) = 1 % ((p - 1) * (q - 1)) →
    (∀ v ∈ msg, 0 ≤ v ∧ v < (p : Int) * q) → Inv env.machine →
    env.machine.state = .idle ∨ env.machine.state = .done → env.machine.turns = [] →
    env.machine.cfg.fits e = true → env.machine.cfg.fits d = true → env.machine.cfg.fits ((p : Int) * q) = true →
      ∃ fuel₀, ∀ fuel, fuel₀ ≤ fuel →
        ∃ env', transformTwice fuel msg e ((p : Int) * q) d ((p : Int) * q) env = .ok (msg, env')

/-- R211 and R212, with R209's block size: what SENDSIGNED makes, RECEIVEVERIFIED gives back, and finds authentic, for key pairs
over true primes and a text with no sentinel unit. -/
def Obligations.ChannelRecoversTheText : Prop :=
  ∀ (env : HostEnv) (c : ProcConfig) (text : List Int) (A B : KeyPair) (pA qA pB qB : Nat),
    Nat.Prime pA → Nat.Prime qA → pA ≠ qA → Nat.Prime pB → Nat.Prime qB → pB ≠ qB →
    A.n = (pA : Int) * qA → B.n = (pB : Int) * qB → 0 ≤ A.e → 0 ≤ A.d → 0 ≤ B.e → 0 ≤ B.d →
    A.e * A.d % ((pA - 1) * (qA - 1)) = 1 % ((pA - 1) * (qA - 1)) →
    B.e * B.d % ((pB - 1) * (qB - 1)) = 1 % ((pB - 1) * (qB - 1)) →
    0 < c.blockLength → (c.alphabetSize : Int) ^ c.blockLength < min A.n B.n →
    (∀ u ∈ text, 0 < u ∧ u < c.alphabetSize) → Inv env.machine →
    env.machine.state = .idle ∨ env.machine.state = .done → env.machine.turns = [] →
    (∀ x ∈ [A.n, A.e, A.d, B.n, B.e, B.d], env.machine.cfg.fits x = true) →
      ∃ fuel₀, ∀ fuel, fuel₀ ≤ fuel →
        ∃ cipher env₁ env₂, sendSigned fuel c text A B.public env = .ok (cipher, env₁) ∧
          receiveVerified fuel c cipher B A.public (some text) env₁ = .ok ((text, some true), env₂)

/-- R203: what GENPRIME returns was drawn from [10^(digitWidth-1), 10^digitWidth - 1], and MRTEST accepted it; with no digitWidth
given the width is primeDigitWidth, by default 50 (R8). That the candidate is the next of the one list of answers, and that each
iteration takes one from the cancellation budget, is the model's choice (log 22). The machine that MRTEST ran on has the same
parameters, and with no schedule the same MR_TRIALS. -/
def Obligations.GenprimeReturnsAcceptedCandidate : Prop :=
  (∀ (fuel digitWidth : Nat) (p : ProcConfig) (env env' : HostEnv) (c : Int), genprime fuel p env digitWidth = .ok (c, env') →
    1 ≤ digitWidth ∧ (10 : Int) ^ (digitWidth - 1) ≤ c ∧ c ≤ (10 : Int) ^ digitWidth - 1 ∧ env'.budget < env.budget ∧
      ∃ (env₁ : HostEnv) (drawn : List Int), env.source = drawn ++ c :: env₁.source ∧ env₁.budget = env'.budget ∧
        env₁.machine.cfg = env.machine.cfg ∧
        (env.machine.turns = [] → env₁.machine.turns = [] ∧ env₁.machine.trials = env.machine.trials) ∧
        hostMrtest fuel c env₁ = .ok (true, env')) ∧
    ∀ (fuel : Nat) (env env' : HostEnv) (c : Int), genprime fuel { } env = .ok (c, env') →
      (10 : Int) ^ 49 ≤ c ∧ c < (10 : Int) ^ 50

/-- R205: the invariants of the key pair that KEYGEN returns, from a machine between commands: p and q are probable primes, each
accepted by an MRTEST on a machine with the same parameters and MR_TRIALS, of the width digitWidth; with none given that is
primeDigitWidth, by default 50 (R8). That p and q come from the one list of answers is the model's choice (log 22). -/
def Obligations.KeygenReturnsAKeyPair : Prop :=
  (∀ (fuel digitWidth : Nat) (c : ProcConfig) (env env' : HostEnv) (k : KeyPair), Inv env.machine →
    env.machine.state = .idle ∨ env.machine.state = .done → env.machine.turns = [] →
    keygen fuel c env digitWidth = .ok (k, env') →
      k.n = k.p * k.q ∧ k.p ≠ k.q ∧ 1 < k.e ∧ k.e < (k.p - 1) * (k.q - 1) ∧
        Int.gcd k.e ((k.p - 1) * (k.q - 1)) = 1 ∧ 0 < k.d ∧ k.d < (k.p - 1) * (k.q - 1) ∧
        k.e * k.d % ((k.p - 1) * (k.q - 1)) = 1 ∧
        ∀ x ∈ [k.p, k.q], (10 : Int) ^ (digitWidth - 1) ≤ x ∧ x ≤ (10 : Int) ^ digitWidth - 1 ∧
          ∃ (env₁ env₂ : HostEnv) (drawn : List Int), env.source = drawn ++ x :: env₁.source ∧
            env₁.machine.cfg = env.machine.cfg ∧ env₁.machine.trials = env.machine.trials ∧
            hostMrtest fuel x env₁ = .ok (true, env₂)) ∧
    ∀ (fuel : Nat) (env env' : HostEnv) (k : KeyPair), keygen fuel { } env = .ok (k, env') →
      ∀ x ∈ [k.p, k.q], (10 : Int) ^ 49 ≤ x ∧ x < (10 : Int) ^ 50
end

