-- ==== Sys2Proof/Laws/Arith.lean ====
section
/-! SUPPORT. The arithmetic of the iterations: one pass of MP_LOOP (spec 40_modular_arithmetic.md R125) and of XG_LOOP (R128,
R131) keeps its invariant, the `while` of MI_NORM (R133), and the facts on primes behind MRTEST and TDIV (41_primality.md). -/

namespace Sys2Proof.Machine

theorem mulmod_range (u v : Int) {m : Int} (h : 0 < m) : 0 ≤ mulmod u v m ∧ mulmod u v m < m :=
  ⟨Int.emod_nonneg _ h.ne', Int.emod_lt_of_pos _ h⟩

theorem pow_half_mod (acc sq : Int) (n : Nat) (m : Int) :
    (if (n : Int) % 2 = 1 then mulmod acc sq m else acc) * (mulmod sq sq m) ^ (n / 2) % m = acc * sq ^ n % m := by
  have h2 : mulmod sq sq m ≡ sq ^ 2 [ZMOD m] := by
    rw [pow_two]; exact Int.mod_modEq _ _
  rcases Nat.even_or_odd' n with ⟨k, rfl | rfl⟩
  · rw [if_neg (by omega), show 2 * k / 2 = k by omega, pow_mul]
    exact (h2.pow k).mul_left acc
  · rw [if_pos (by omega), show (2 * k + 1) / 2 = k by omega, pow_succ, pow_mul]
    have h1 : mulmod acc sq m ≡ acc * sq [ZMOD m] := Int.mod_modEq _ _
    have := h1.mul (h2.pow k)
    show _ ≡ _ [ZMOD m]
    calc _ ≡ acc * sq * (sq ^ 2) ^ k [ZMOD m] := this
      _ = acc * ((sq ^ 2) ^ k * sq) := by ring

/-- MexpInv after MP_INIT -/
theorem mpInit_mexpInv {s : State} (hb : 0 ≤ s.mpOperands.1) (he : 0 ≤ s.mpOperands.2.1)
    (hm : 1 ≤ s.mpOperands.2.2) : MexpInv (mpInit s) where
  base_nonneg := hb
  exponent_nonneg := he
  modulus_pos := hm
  modulus_eq := rfl
  acc_range := ⟨Int.emod_nonneg _ (by omega), Int.emod_lt_of_pos _ (by omega)⟩
  sq_range := ⟨Int.emod_nonneg _ (by omega), Int.emod_lt_of_pos _ (by omega)⟩
  k_nonneg := he
  power := by
    show (1 % _ : Int) * (s.mpOperands.1 % s.mpOperands.2.2) ^ (s.mpOperands.2.1.toNat) % s.mpOperands.2.2 = s.mpOperands.1 ^ s.mpOperands.2.1.toNat % s.mpOperands.2.2
    have h1 : (1 % s.mpOperands.2.2 : Int) ≡ 1 [ZMOD s.mpOperands.2.2] := Int.mod_modEq _ _
    have h2 := (Int.mod_modEq s.mpOperands.1 s.mpOperands.2.2).pow s.mpOperands.2.1.toNat
    have h3 := h1.mul h2
    rwa [one_mul] at h3

theorem pass_mexpInv {s : State} (h : MexpInv s) (_ : s.mexp.k ≠ 0) : MexpInv { s with mexp := s.mexp.pass } where
  base_nonneg := h.base_nonneg
  exponent_nonneg := h.exponent_nonneg
  modulus_pos := h.modulus_pos
  modulus_eq := h.modulus_eq
  acc_range := by
    have hm : 0 < s.mexp.modulus := by have := h.modulus_pos; have := h.modulus_eq; omega
    dsimp only [MexpRegs.pass]
    split
    · exact mulmod_range _ _ hm
    · exact h.acc_range
  sq_range := mulmod_range _ _ (by have := h.modulus_pos; have := h.modulus_eq; omega)
  k_nonneg := by have := h.k_nonneg; show 0 ≤ s.mexp.k / 2; omega
  power := by
    refine Eq.trans ?_ h.power
    have hk0 := h.k_nonneg
    obtain ⟨n, hn⟩ := Int.eq_ofNat_of_zero_le hk0
    have := pow_half_mod s.mexp.acc s.mexp.sq n s.mexp.modulus
    show (if s.mexp.k % 2 = 1 then mulmod _ _ _ else _) * mulmod _ _ _ ^ (s.mexp.k / 2).toNat % _ = _
    rw [hn, show ((n : Int) / 2).toNat = n / 2 by omega, Int.toNat_natCast]
    exact this

theorem mexpInv_done {s : State} (h : MexpInv s) (hk : s.mexp.k = 0) :
    s.mexp.acc = s.mpOperands.1 ^ s.mpOperands.2.1.toNat % s.mpOperands.2.2 := by
  have := h.power
  rw [hk] at this
  simp only [Int.toNat_zero, pow_zero, mul_one] at this
  rw [Int.emod_eq_of_lt h.acc_range.1 h.acc_range.2, h.modulus_eq] at this
  exact this

theorem xgInit_xgcdInv {s : State} (ha : 0 ≤ s.xgOperands.1) (hb : 0 ≤ s.xgOperands.2) : XgcdInv (xgInit s) where
  a_nonneg := ha
  b_nonneg := hb
  g0_nonneg := ha
  g1_nonneg := hb
  gcd_eq := rfl
  bezout0 := by show s.xgOperands.1 * 1 + s.xgOperands.2 * 0 = s.xgOperands.1; ring
  bezout1 := by show s.xgOperands.1 * 0 + s.xgOperands.2 * 1 = s.xgOperands.2; ring
  s_signs := by show (1 : Int) * 0 ≤ 0; simp
  t_signs := by show (0 : Int) * 1 ≤ 0; simp
  s_size := by show |(0 : Int)| * s.xgOperands.1 + |(1 : Int)| * s.xgOperands.2 = s.xgOperands.2; simp
  t_size := by show |(1 : Int)| * s.xgOperands.1 + |(0 : Int)| * s.xgOperands.2 = s.xgOperands.1; simp
  order := .inl ⟨rfl, rfl⟩
  s0_bound := by show |(1 : Int)| ≤ _; simp
  s0_strict := fun h => absurd rfl h
  t0_bound := by show |(0 : Int)| ≤ _; simp

theorem abs_sub_mul_of_signs {x y q : Int} (h : x * y ≤ 0) (hq : 0 ≤ q) : |x - q * y| = |x| + q * |y| := by
  rcases le_total 0 x with hx | hx <;> rcases le_total 0 y with hy | hy
  · rcases hx.eq_or_lt with rfl | hx'
    · simp [abs_mul, abs_of_nonneg hq]
    · have : y = 0 := by nlinarith [mul_nonneg hx hy]
      simp [this]
  · rw [abs_of_nonneg hx, abs_of_nonpos hy, abs_of_nonneg (by nlinarith)]; ring
  · rw [abs_of_nonpos hx, abs_of_nonneg hy, abs_of_nonpos (by nlinarith)]; ring
  · rcases hx.eq_or_lt with rfl | hx'
    · simp [abs_mul, abs_of_nonneg hq]
    · have : y = 0 := by nlinarith [mul_nonneg_of_nonpos_of_nonpos hx hy]
      simp [this]

theorem pass_xgcdInv {s : State} (h : XgcdInv s) (hg : s.xg.g1 ≠ 0) : XgcdInv { s with xg := s.xg.pass } := by
  have h0 := h.g0_nonneg
  have h1 := h.g1_nonneg
  have hpos : 0 < s.xg.g1 := by omega
  have hq : 0 ≤ s.xg.g0 / s.xg.g1 := Int.ediv_nonneg h0 h1
  have hmod : s.xg.g0 - s.xg.g0 / s.xg.g1 * s.xg.g1 = s.xg.g0 % s.xg.g1 := by
    have := Int.emod_add_mul_ediv s.xg.g0 s.xg.g1; linarith [mul_comm (s.xg.g0 / s.xg.g1) s.xg.g1]
  constructor
  case a_nonneg => exact h.a_nonneg
  case b_nonneg => exact h.b_nonneg
  case g0_nonneg => exact h1
  case g1_nonneg => show 0 ≤ s.xg.g0 - s.xg.g0 / s.xg.g1 * s.xg.g1; rw [hmod]; exact Int.emod_nonneg _ hg
  case gcd_eq =>
    show Int.gcd s.xg.g1 (s.xg.g0 - s.xg.g0 / s.xg.g1 * s.xg.g1) = Int.gcd s.xgOperands.1 s.xgOperands.2
    rw [hmod, ← h.gcd_eq, Int.gcd_comm s.xg.g1, Int.gcd_emod]
  case bezout0 => exact h.bezout1
  case bezout1 =>
    show s.xgOperands.1 * (s.xg.s0 - s.xg.g0 / s.xg.g1 * s.xg.s1) + s.xgOperands.2 * (s.xg.t0 - s.xg.g0 / s.xg.g1 * s.xg.t1) = s.xg.g0 - s.xg.g0 / s.xg.g1 * s.xg.g1
    linear_combination h.bezout0 - s.xg.g0 / s.xg.g1 * h.bezout1
  case s_signs =>
    show s.xg.s1 * (s.xg.s0 - s.xg.g0 / s.xg.g1 * s.xg.s1) ≤ 0
    nlinarith [h.s_signs, mul_nonneg hq (mul_self_nonneg s.xg.s1)]
  case t_signs =>
    show s.xg.t1 * (s.xg.t0 - s.xg.g0 / s.xg.g1 * s.xg.t1) ≤ 0
    nlinarith [h.t_signs, mul_nonneg hq (mul_self_nonneg s.xg.t1)]
  case s_size =>
    show |s.xg.s0 - s.xg.g0 / s.xg.g1 * s.xg.s1| * s.xg.g1 + |s.xg.s1| * (s.xg.g0 - s.xg.g0 / s.xg.g1 * s.xg.g1) = s.xgOperands.2
    rw [abs_sub_mul_of_signs h.s_signs hq]
    linear_combination h.s_size
  case t_size =>
    show |s.xg.t0 - s.xg.g0 / s.xg.g1 * s.xg.t1| * s.xg.g1 + |s.xg.t1| * (s.xg.g0 - s.xg.g0 / s.xg.g1 * s.xg.g1) = s.xgOperands.1
    rw [abs_sub_mul_of_signs h.t_signs hq]
    linear_combination h.t_size
  case order =>
    right
    show s.xg.g0 - s.xg.g0 / s.xg.g1 * s.xg.g1 < s.xg.g1
    rw [hmod]; exact Int.emod_lt_of_pos _ hpos
  case s0_strict =>
    intro _
    show |s.xg.s1| < max s.xgOperands.2 1
    rcases eq_or_ne s.xg.s1 0 with hs | hs
    · simp [hs]
    · refine lt_max_of_lt_left ?_
      have hlt : s.xg.g1 < s.xg.g0 := h.order.resolve_left (fun h' => hs h'.1)
      have h2 : 1 ≤ |s.xg.s1| := Int.one_le_abs hs
      nlinarith [h.s_size, mul_nonneg (abs_nonneg s.xg.s0) h1]
  case s0_bound =>
    show |s.xg.s1| ≤ max s.xgOperands.2 1
    rcases h0.eq_or_lt with h0' | h0'
    · simp [(h.order.resolve_right (by omega)).1]
    · refine le_max_of_le_left ?_
      have := h.s_size
      nlinarith [abs_nonneg s.xg.s1, mul_nonneg (abs_nonneg s.xg.s0) h1]
  case t0_bound =>
    show |s.xg.t1| ≤ max s.xgOperands.1 1
    rcases h0.eq_or_lt with h0' | h0'
    · simp [(h.order.resolve_right (by omega)).2]
    · refine le_max_of_le_left ?_
      have := h.t_size
      nlinarith [abs_nonneg s.xg.t1, mul_nonneg (abs_nonneg s.xg.t0) h1]

theorem addWhileNegative_eq {m : Int} (hm : 0 < m) : ∀ (fuel : Nat) (inv : Int), inv.natAbs ≤ fuel →
    addWhileNegative fuel inv m = if inv < 0 then inv % m else inv := by
  intro fuel
  induction fuel with
  | zero => intro inv h; simp only [addWhileNegative]; rw [if_neg (by omega)]
  | succ n ih =>
    intro inv h
    simp only [addWhileNegative]
    split
    · rename_i hneg
      by_cases h2 : inv + m < 0
      · rw [ih _ (by omega), if_pos h2, Int.add_emod_right]
      · have : addWhileNegative n (inv + m) m = inv + m := by
          cases n with
          | zero => rfl
          | succ n => simp [addWhileNegative, h2]
        rw [this, ← Int.add_emod_right, Int.emod_eq_of_lt (by omega) (by omega)]
    · rfl


theorem sqrt_one_of_prime {A x : Int} (hp : Nat.Prime A.toNat) (h0 : 0 ≤ x) (h1 : x < A) (hx : x * x % A = 1) :
    x = 1 ∨ x = A - 1 := by
  have hA : ((A.toNat : Nat) : Int) = A := Int.toNat_of_nonneg (by omega)
  have hA2 : 2 ≤ A.toNat := hp.two_le
  have hd : (A.toNat : Int) ∣ (x - 1) * (x + 1) := by
    rw [hA]; refine Int.dvd_of_emod_eq_zero ?_
    rw [show (x - 1) * (x + 1) = x * x - 1 by ring, Int.sub_emod, hx, Int.emod_eq_of_lt (by omega) (by omega : (1:Int) < A)]
    simp
  rcases Int.Prime.dvd_mul' hp hd with ⟨k, hk⟩ | ⟨k, hk⟩ <;> rw [hA] at hk
  · left
    have : k = 0 := by nlinarith
    subst this; omega
  · right
    have : k = 1 := by nlinarith
    subst this; omega

theorem fermat_of_prime {A w : Int} (hp : Nat.Prime A.toNat) (h0 : 1 ≤ w) (h1 : w < A) :
    w ^ (A.toNat - 1) % A = 1 := by
  have hA : ((A.toNat : Nat) : Int) = A := Int.toNat_of_nonneg (by omega)
  have hA2 : 2 ≤ A.toNat := hp.two_le
  have hco : IsCoprime w (A.toNat : Int) := by
    rw [Int.isCoprime_iff_gcd_eq_one, Int.gcd_comm]
    have := (Nat.Prime.coprime_iff_not_dvd hp (n := w.toNat)).2 (fun hd => by
      have := Nat.le_of_dvd (by omega) hd; omega)
    rw [Int.gcd, Int.natAbs_natCast]
    rw [show w.natAbs = w.toNat by omega]; exact this
  have := Int.ModEq.pow_card_sub_one_eq_one hp hco
  rw [hA] at this
  rw [this, Int.emod_eq_of_lt (by omega) (by omega)]

theorem square_step {A w x : Int} {d j : Nat} (hx : x = w ^ (d * 2 ^ j) % A) :
    mulmod x x A = w ^ (d * 2 ^ (j + 1)) % A := by
  have : x ≡ w ^ (d * 2 ^ j) [ZMOD A] := by rw [hx]; exact Int.mod_modEq _ _
  have := this.mul this
  rw [← pow_add, ← two_mul, show 2 * (d * 2 ^ j) = d * 2 ^ (j + 1) by ring] at this
  exact this

theorem trial_not_prime {s : State} (h : TrialInv s) (hj : 0 ≤ s.mr.j) (hjs : s.mr.j = s.mr.s - 1)
    (hx : s.mr.x = s.operand .w ^ (s.mr.d.toNat * 2 ^ s.mr.j.toNat) % s.operand .a)
    (h1 : s.mr.x ≠ 1) (h2 : s.mr.x ≠ s.operand .a - 1) : ¬ Nat.Prime (s.operand .a).toNat := by
  intro hp
  have ha := h.a_large
  have hsplit : s.mr.d.toNat * 2 ^ (s.mr.j.toNat + 1) = (s.operand .a).toNat - 1 := by
    have hd : ((s.mr.d.toNat : Nat) : Int) = s.mr.d := Int.toNat_of_nonneg (by have := h.d_pos; omega)
    have hs : s.mr.j.toNat + 1 = s.mr.s.toNat := by omega
    zify [show 1 ≤ (s.operand .a).toNat by omega]
    rw [hs, hd, h.split]; omega
  have hsq := square_step hx
  rw [hsplit, fermat_of_prime hp (by have := h.w_range; omega) (by have := h.w_range; omega)] at hsq
  have hr : 0 ≤ s.mr.x ∧ s.mr.x < s.operand .a := by
    rw [hx]; exact ⟨Int.emod_nonneg _ (by omega), Int.emod_lt_of_pos _ (by omega)⟩
  rcases sqrt_one_of_prime hp hr.1 hr.2 hsq with h' | h' <;> contradiction

theorem prime_of_no_divisor {A kd : Int} (hA : 2 ≤ A) (hk : 2 ≤ kd) (hno : ∀ k : Int, 2 ≤ k → k < kd → ¬ k ∣ A) (h : A < kd * kd) :
    Nat.Prime A.toNat := by
  by_contra hp
  have h1 := Nat.minFac_sq_le_self (n := A.toNat) (by omega) hp
  have h2 := (Nat.minFac_prime (n := A.toNat) (by omega)).two_le
  have h3 := Nat.minFac_dvd A.toNat
  have hA' : ((A.toNat : Nat) : Int) = A := Int.toNat_of_nonneg (by omega)
  refine hno (A.toNat.minFac : Int) (by omega) ?_ ?_
  · by_contra hge
    have : (A.toNat.minFac : Int) ^ 2 ≤ A := by rw [← hA']; exact_mod_cast h1
    nlinarith
  · rw [← hA']; exact_mod_cast h3

theorem not_prime_of_divisor {A kd : Int} (hk : 2 ≤ kd) (hle : kd * kd ≤ A) (hd : A % kd = 0) : ¬ Nat.Prime A.toNat := by
  have hA' : ((A.toNat : Nat) : Int) = A := Int.toNat_of_nonneg (by nlinarith)
  have hk' : ((kd.toNat : Nat) : Int) = kd := Int.toNat_of_nonneg (by omega)
  have hdvd : kd.toNat ∣ A.toNat := by
    have := Int.dvd_of_emod_eq_zero hd; rw [← hA', ← hk'] at this; exact_mod_cast this
  refine Nat.not_prime_of_dvd_of_lt hdvd (by omega) ?_
  zify; rw [hA', hk']; nlinarith

end Sys2Proof.Machine
end

