-- ==== Sys2Proof/Laws/State.lean ====
section
/-! SUPPORT. One lemma per field per named update of State, true by rfl, so that no later proof unfolds a record update; and
reads of a register after a write of one. -/

namespace Sys2Proof.Machine

variable (s : State)

/-! ### voidResults -/

@[simp] theorem voidResults_cfg : s.voidResults.cfg = s.cfg := rfl
@[simp] theorem voidResults_a : s.voidResults.a = s.a := rfl
@[simp] theorem voidResults_b : s.voidResults.b = s.b := rfl
@[simp] theorem voidResults_m : s.voidResults.m = s.m := rfl
@[simp] theorem voidResults_r0 : s.voidResults.r0 = .void s.cfg.cells := rfl
@[simp] theorem voidResults_r1 : s.voidResults.r1 = .void s.cfg.cells := rfl
@[simp] theorem voidResults_r2 : s.voidResults.r2 = .void s.cfg.cells := rfl
@[simp] theorem voidResults_w : s.voidResults.w = s.w := rfl
@[simp] theorem voidResults_state : s.voidResults.state = s.state := rfl
@[simp] theorem voidResults_v : s.voidResults.v = s.v := rfl
@[simp] theorem voidResults_err : s.voidResults.err = s.err := rfl
@[simp] theorem voidResults_trials : s.voidResults.trials = s.trials := rfl
@[simp] theorem voidResults_ph : s.voidResults.ph = s.ph := rfl
@[simp] theorem voidResults_op : s.voidResults.op = s.op := rfl
@[simp] theorem voidResults_ret : s.voidResults.ret = s.ret := rfl
@[simp] theorem voidResults_request : s.voidResults.request = s.request := rfl
@[simp] theorem voidResults_mexp : s.voidResults.mexp = s.mexp := rfl
@[simp] theorem voidResults_xg : s.voidResults.xg = s.xg := rfl
@[simp] theorem voidResults_mr : s.voidResults.mr = s.mr := rfl
@[simp] theorem voidResults_epoch : s.voidResults.epoch = s.epoch := rfl
@[simp] theorem voidResults_draws : s.voidResults.draws = s.draws := rfl
@[simp] theorem voidResults_history : s.voidResults.history = s.history := rfl
@[simp] theorem voidResults_script : s.voidResults.script = s.script := rfl
@[simp] theorem voidResults_turns : s.voidResults.turns = s.turns := rfl
@[simp] theorem voidResults_replies : s.voidResults.replies = s.replies := rfl

/-! ### raiseFault -/

@[simp] theorem raiseFault_cfg (f : FaultCode) : (raiseFault f s).cfg = s.cfg := rfl
@[simp] theorem raiseFault_a (f : FaultCode) : (raiseFault f s).a = s.a := rfl
@[simp] theorem raiseFault_b (f : FaultCode) : (raiseFault f s).b = s.b := rfl
@[simp] theorem raiseFault_m (f : FaultCode) : (raiseFault f s).m = s.m := rfl
@[simp] theorem raiseFault_r0 (f : FaultCode) : (raiseFault f s).r0 = .void s.cfg.cells := rfl
@[simp] theorem raiseFault_r1 (f : FaultCode) : (raiseFault f s).r1 = .void s.cfg.cells := rfl
@[simp] theorem raiseFault_r2 (f : FaultCode) : (raiseFault f s).r2 = .void s.cfg.cells := rfl
@[simp] theorem raiseFault_w (f : FaultCode) : (raiseFault f s).w = s.w := rfl
@[simp] theorem raiseFault_state (f : FaultCode) : (raiseFault f s).state = .done := rfl
@[simp] theorem raiseFault_v (f : FaultCode) : (raiseFault f s).v = false := rfl
@[simp] theorem raiseFault_err (f : FaultCode) : (raiseFault f s).err = f := rfl
@[simp] theorem raiseFault_trials (f : FaultCode) : (raiseFault f s).trials = s.trials := rfl
@[simp] theorem raiseFault_ph (f : FaultCode) : (raiseFault f s).ph = .idle := rfl
@[simp] theorem raiseFault_op (f : FaultCode) : (raiseFault f s).op = s.op := rfl
@[simp] theorem raiseFault_ret (f : FaultCode) : (raiseFault f s).ret = s.ret := rfl
@[simp] theorem raiseFault_request (f : FaultCode) : (raiseFault f s).request = false := rfl
@[simp] theorem raiseFault_mexp (f : FaultCode) : (raiseFault f s).mexp = s.mexp := rfl
@[simp] theorem raiseFault_xg (f : FaultCode) : (raiseFault f s).xg = s.xg := rfl
@[simp] theorem raiseFault_mr (f : FaultCode) : (raiseFault f s).mr = s.mr := rfl
@[simp] theorem raiseFault_epoch (f : FaultCode) : (raiseFault f s).epoch = s.epoch + 1 := rfl
@[simp] theorem raiseFault_draws (f : FaultCode) : (raiseFault f s).draws = s.draws := rfl
@[simp] theorem raiseFault_history (f : FaultCode) : (raiseFault f s).history = s.history ++ [f] := rfl
@[simp] theorem raiseFault_script (f : FaultCode) : (raiseFault f s).script = s.script := rfl
@[simp] theorem raiseFault_turns (f : FaultCode) : (raiseFault f s).turns = s.turns := rfl
@[simp] theorem raiseFault_replies (f : FaultCode) : (raiseFault f s).replies = s.replies := rfl

/-! ### finish -/

@[simp] theorem finish_cfg (x y z : BigReg) (u : Bool) : (finish x y z u s).cfg = s.cfg := rfl
@[simp] theorem finish_a (x y z : BigReg) (u : Bool) : (finish x y z u s).a = s.a := rfl
@[simp] theorem finish_b (x y z : BigReg) (u : Bool) : (finish x y z u s).b = s.b := rfl
@[simp] theorem finish_m (x y z : BigReg) (u : Bool) : (finish x y z u s).m = s.m := rfl
@[simp] theorem finish_r0 (x y z : BigReg) (u : Bool) : (finish x y z u s).r0 = x := rfl
@[simp] theorem finish_r1 (x y z : BigReg) (u : Bool) : (finish x y z u s).r1 = y := rfl
@[simp] theorem finish_r2 (x y z : BigReg) (u : Bool) : (finish x y z u s).r2 = z := rfl
@[simp] theorem finish_w (x y z : BigReg) (u : Bool) : (finish x y z u s).w = s.w := rfl
@[simp] theorem finish_state (x y z : BigReg) (u : Bool) : (finish x y z u s).state = .done := rfl
@[simp] theorem finish_v (x y z : BigReg) (u : Bool) : (finish x y z u s).v = u := rfl
@[simp] theorem finish_err (x y z : BigReg) (u : Bool) : (finish x y z u s).err = .none := rfl
@[simp] theorem finish_trials (x y z : BigReg) (u : Bool) : (finish x y z u s).trials = s.trials := rfl
@[simp] theorem finish_ph (x y z : BigReg) (u : Bool) : (finish x y z u s).ph = .idle := rfl
@[simp] theorem finish_op (x y z : BigReg) (u : Bool) : (finish x y z u s).op = s.op := rfl
@[simp] theorem finish_ret (x y z : BigReg) (u : Bool) : (finish x y z u s).ret = s.ret := rfl
@[simp] theorem finish_request (x y z : BigReg) (u : Bool) : (finish x y z u s).request = s.request := rfl
@[simp] theorem finish_mexp (x y z : BigReg) (u : Bool) : (finish x y z u s).mexp = s.mexp := rfl
@[simp] theorem finish_xg (x y z : BigReg) (u : Bool) : (finish x y z u s).xg = s.xg := rfl
@[simp] theorem finish_mr (x y z : BigReg) (u : Bool) : (finish x y z u s).mr = s.mr := rfl
@[simp] theorem finish_epoch (x y z : BigReg) (u : Bool) : (finish x y z u s).epoch = s.epoch + 1 := rfl
@[simp] theorem finish_draws (x y z : BigReg) (u : Bool) : (finish x y z u s).draws = s.draws := rfl
@[simp] theorem finish_history (x y z : BigReg) (u : Bool) : (finish x y z u s).history = s.history := rfl
@[simp] theorem finish_script (x y z : BigReg) (u : Bool) : (finish x y z u s).script = s.script := rfl
@[simp] theorem finish_turns (x y z : BigReg) (u : Bool) : (finish x y z u s).turns = s.turns := rfl
@[simp] theorem finish_replies (x y z : BigReg) (u : Bool) : (finish x y z u s).replies = s.replies := rfl

/-! ### answer -/

@[simp] theorem answer_cfg (r : Reply) : (s.answer r).cfg = s.cfg := rfl
@[simp] theorem answer_a (r : Reply) : (s.answer r).a = s.a := rfl
@[simp] theorem answer_b (r : Reply) : (s.answer r).b = s.b := rfl
@[simp] theorem answer_m (r : Reply) : (s.answer r).m = s.m := rfl
@[simp] theorem answer_r0 (r : Reply) : (s.answer r).r0 = s.r0 := rfl
@[simp] theorem answer_r1 (r : Reply) : (s.answer r).r1 = s.r1 := rfl
@[simp] theorem answer_r2 (r : Reply) : (s.answer r).r2 = s.r2 := rfl
@[simp] theorem answer_w (r : Reply) : (s.answer r).w = s.w := rfl
@[simp] theorem answer_state (r : Reply) : (s.answer r).state = s.state := rfl
@[simp] theorem answer_v (r : Reply) : (s.answer r).v = s.v := rfl
@[simp] theorem answer_err (r : Reply) : (s.answer r).err = s.err := rfl
@[simp] theorem answer_trials (r : Reply) : (s.answer r).trials = s.trials := rfl
@[simp] theorem answer_ph (r : Reply) : (s.answer r).ph = s.ph := rfl
@[simp] theorem answer_op (r : Reply) : (s.answer r).op = s.op := rfl
@[simp] theorem answer_ret (r : Reply) : (s.answer r).ret = s.ret := rfl
@[simp] theorem answer_request (r : Reply) : (s.answer r).request = s.request := rfl
@[simp] theorem answer_mexp (r : Reply) : (s.answer r).mexp = s.mexp := rfl
@[simp] theorem answer_xg (r : Reply) : (s.answer r).xg = s.xg := rfl
@[simp] theorem answer_mr (r : Reply) : (s.answer r).mr = s.mr := rfl
@[simp] theorem answer_epoch (r : Reply) : (s.answer r).epoch = s.epoch := rfl
@[simp] theorem answer_draws (r : Reply) : (s.answer r).draws = s.draws := rfl
@[simp] theorem answer_history (r : Reply) : (s.answer r).history = s.history := rfl
@[simp] theorem answer_script (r : Reply) : (s.answer r).script = s.script := rfl
@[simp] theorem answer_turns (r : Reply) : (s.answer r).turns = s.turns := rfl
@[simp] theorem answer_replies (r : Reply) : (s.answer r).replies = r :: s.replies := rfl

/-! ### answerFreeWord -/

@[simp] theorem answerFreeWord_cfg : s.answerFreeWord.cfg = s.cfg := rfl
@[simp] theorem answerFreeWord_a : s.answerFreeWord.a = s.a := rfl
@[simp] theorem answerFreeWord_b : s.answerFreeWord.b = s.b := rfl
@[simp] theorem answerFreeWord_m : s.answerFreeWord.m = s.m := rfl
@[simp] theorem answerFreeWord_r0 : s.answerFreeWord.r0 = s.r0 := rfl
@[simp] theorem answerFreeWord_r1 : s.answerFreeWord.r1 = s.r1 := rfl
@[simp] theorem answerFreeWord_r2 : s.answerFreeWord.r2 = s.r2 := rfl
@[simp] theorem answerFreeWord_w : s.answerFreeWord.w = s.w := rfl
@[simp] theorem answerFreeWord_state : s.answerFreeWord.state = s.state := rfl
@[simp] theorem answerFreeWord_v : s.answerFreeWord.v = s.v := rfl
@[simp] theorem answerFreeWord_err : s.answerFreeWord.err = s.err := rfl
@[simp] theorem answerFreeWord_trials : s.answerFreeWord.trials = s.trials := rfl
@[simp] theorem answerFreeWord_ph : s.answerFreeWord.ph = s.ph := rfl
@[simp] theorem answerFreeWord_op : s.answerFreeWord.op = s.op := rfl
@[simp] theorem answerFreeWord_ret : s.answerFreeWord.ret = s.ret := rfl
@[simp] theorem answerFreeWord_request : s.answerFreeWord.request = s.request := rfl
@[simp] theorem answerFreeWord_mexp : s.answerFreeWord.mexp = s.mexp := rfl
@[simp] theorem answerFreeWord_xg : s.answerFreeWord.xg = s.xg := rfl
@[simp] theorem answerFreeWord_mr : s.answerFreeWord.mr = s.mr := rfl
@[simp] theorem answerFreeWord_epoch : s.answerFreeWord.epoch = s.epoch := rfl
@[simp] theorem answerFreeWord_draws : s.answerFreeWord.draws = s.draws + 1 := rfl
@[simp] theorem answerFreeWord_history : s.answerFreeWord.history = s.history := rfl
@[simp] theorem answerFreeWord_script : s.answerFreeWord.script = s.script := rfl
@[simp] theorem answerFreeWord_turns : s.answerFreeWord.turns = s.turns := rfl
@[simp] theorem answerFreeWord_replies : s.answerFreeWord.replies = .word (Config.freeWord s.draws) :: s.replies := rfl

/-! ### answerFreeInt -/

@[simp] theorem answerFreeInt_cfg : s.answerFreeInt.cfg = s.cfg := rfl
@[simp] theorem answerFreeInt_a : s.answerFreeInt.a = s.a := rfl
@[simp] theorem answerFreeInt_b : s.answerFreeInt.b = s.b := rfl
@[simp] theorem answerFreeInt_m : s.answerFreeInt.m = s.m := rfl
@[simp] theorem answerFreeInt_r0 : s.answerFreeInt.r0 = s.r0 := rfl
@[simp] theorem answerFreeInt_r1 : s.answerFreeInt.r1 = s.r1 := rfl
@[simp] theorem answerFreeInt_r2 : s.answerFreeInt.r2 = s.r2 := rfl
@[simp] theorem answerFreeInt_w : s.answerFreeInt.w = s.w := rfl
@[simp] theorem answerFreeInt_state : s.answerFreeInt.state = s.state := rfl
@[simp] theorem answerFreeInt_v : s.answerFreeInt.v = s.v := rfl
@[simp] theorem answerFreeInt_err : s.answerFreeInt.err = s.err := rfl
@[simp] theorem answerFreeInt_trials : s.answerFreeInt.trials = s.trials := rfl
@[simp] theorem answerFreeInt_ph : s.answerFreeInt.ph = s.ph := rfl
@[simp] theorem answerFreeInt_op : s.answerFreeInt.op = s.op := rfl
@[simp] theorem answerFreeInt_ret : s.answerFreeInt.ret = s.ret := rfl
@[simp] theorem answerFreeInt_request : s.answerFreeInt.request = s.request := rfl
@[simp] theorem answerFreeInt_mexp : s.answerFreeInt.mexp = s.mexp := rfl
@[simp] theorem answerFreeInt_xg : s.answerFreeInt.xg = s.xg := rfl
@[simp] theorem answerFreeInt_mr : s.answerFreeInt.mr = s.mr := rfl
@[simp] theorem answerFreeInt_epoch : s.answerFreeInt.epoch = s.epoch := rfl
@[simp] theorem answerFreeInt_draws : s.answerFreeInt.draws = s.draws + 1 := rfl
@[simp] theorem answerFreeInt_history : s.answerFreeInt.history = s.history := rfl
@[simp] theorem answerFreeInt_script : s.answerFreeInt.script = s.script := rfl
@[simp] theorem answerFreeInt_turns : s.answerFreeInt.turns = s.turns := rfl
@[simp] theorem answerFreeInt_replies : s.answerFreeInt.replies = .int (s.cfg.fit (Config.freeInt s.draws)) :: s.replies := rfl

/-! ### Registers by name -/

@[simp] theorem reg_setReg_same (n : RegName) (r : BigReg) : (s.setReg n r).reg n = r := by cases n <;> rfl

theorem reg_setReg_other {n k : RegName} (h : k ≠ n) (r : BigReg) : (s.setReg n r).reg k = s.reg k := by
  cases n <;> cases k <;> first | rfl | exact absurd rfl h

theorem setReg_eq_self (n : RegName) : s.setReg n (s.reg n) = s := by cases n <;> rfl

@[simp] theorem setReg_cfg (n : RegName) (r : BigReg) : (s.setReg n r).cfg = s.cfg := by cases n <;> rfl
@[simp] theorem setReg_state (n : RegName) (r : BigReg) : (s.setReg n r).state = s.state := by cases n <;> rfl
@[simp] theorem setReg_v (n : RegName) (r : BigReg) : (s.setReg n r).v = s.v := by cases n <;> rfl
@[simp] theorem setReg_err (n : RegName) (r : BigReg) : (s.setReg n r).err = s.err := by cases n <;> rfl
@[simp] theorem setReg_trials (n : RegName) (r : BigReg) : (s.setReg n r).trials = s.trials := by cases n <;> rfl
@[simp] theorem setReg_ph (n : RegName) (r : BigReg) : (s.setReg n r).ph = s.ph := by cases n <;> rfl
@[simp] theorem setReg_op (n : RegName) (r : BigReg) : (s.setReg n r).op = s.op := by cases n <;> rfl
@[simp] theorem setReg_ret (n : RegName) (r : BigReg) : (s.setReg n r).ret = s.ret := by cases n <;> rfl
@[simp] theorem setReg_request (n : RegName) (r : BigReg) : (s.setReg n r).request = s.request := by cases n <;> rfl
@[simp] theorem setReg_mexp (n : RegName) (r : BigReg) : (s.setReg n r).mexp = s.mexp := by cases n <;> rfl
@[simp] theorem setReg_xg (n : RegName) (r : BigReg) : (s.setReg n r).xg = s.xg := by cases n <;> rfl
@[simp] theorem setReg_mr (n : RegName) (r : BigReg) : (s.setReg n r).mr = s.mr := by cases n <;> rfl
@[simp] theorem setReg_epoch (n : RegName) (r : BigReg) : (s.setReg n r).epoch = s.epoch := by cases n <;> rfl
@[simp] theorem setReg_draws (n : RegName) (r : BigReg) : (s.setReg n r).draws = s.draws := by cases n <;> rfl
@[simp] theorem setReg_history (n : RegName) (r : BigReg) : (s.setReg n r).history = s.history := by cases n <;> rfl
@[simp] theorem setReg_script (n : RegName) (r : BigReg) : (s.setReg n r).script = s.script := by cases n <;> rfl
@[simp] theorem setReg_turns (n : RegName) (r : BigReg) : (s.setReg n r).turns = s.turns := by cases n <;> rfl
@[simp] theorem setReg_replies (n : RegName) (r : BigReg) : (s.setReg n r).replies = s.replies := by cases n <;> rfl

/-- What a command finds in an operand register depends on the parameters, the epoch and that register alone. -/
theorem operand_congr {s t : State} (hc : t.cfg = s.cfg) (he : t.epoch = s.epoch) {n : RegName} (hr : t.reg n = s.reg n) :
    t.operand n = s.operand n := by
  simp only [State.operand, hc, he, hr]

/-- An operand register that holds a value gives it (R22, R92). -/
theorem operand_of_value {s : State} {n : RegName} {v : Int} (h : (s.reg n).value = some v) : s.operand n = v := by
  simp only [State.operand, h]

end Sys2Proof.Machine
end

