-- ==== Sys2Proof/Laws/Registers.lean ====
section
/-! SUPPORT. The big-integer registers: limbs of a magnitude, the value of a register, the canonical form and the range, and
that every operation on registers keeps them (spec 20_memory.md R63 to R65, 00_scope.md R10). -/

namespace Sys2Proof.Machine

theorem setLimb_testBit (m j : Nat) (w : Word) (k : Nat) :
    (setLimb m j w).testBit k =
      if 32 * j ≤ k ∧ k < 32 * (j + 1) then w.getLsbD (k - 32 * j) else m.testBit k := by
  have e : setLimb m j w = 2 ^ (32 * j) * (2 ^ 32 * (m / 2 ^ (32 * (j + 1))) + w.toNat) + m % 2 ^ (32 * j) := by
    unfold setLimb
    rw [show 32 * (j + 1) = 32 * j + 32 by ring, pow_add]; ring
  rw [e, Nat.testBit_two_pow_mul_add _ (Nat.mod_lt _ (by positivity)), Nat.testBit_two_pow_mul_add _ w.isLt,
    BitVec.testBit_toNat, Nat.testBit_div_two_pow, Nat.testBit_mod_two_pow]
  generalize hx : 32 * j = x
  have hy : 32 * (j + 1) = x + 32 := by omega
  rw [hy]
  by_cases h : k < x
  · simp [h]
  · by_cases h' : k < x + 32
    · simp [h, h', show k - x < 32 by omega, show x ≤ k by omega]
    · have hk : k - x - 32 + (x + 32) = k := by omega
      rw [if_neg h, if_neg (by omega), if_neg (by omega), hk]

theorem limb_getLsbD (m j i : Nat) : (limb m j).getLsbD i = (decide (i < 32) && m.testBit (32 * j + i)) := by
  simp [limb, BitVec.getLsbD_ofNat, Nat.testBit_div_two_pow, Nat.add_comm]

theorem limb_setLimb_same (m j : Nat) (w : Word) : limb (setLimb m j w) j = w := by
  apply BitVec.eq_of_getLsbD_eq; intro i hi
  rw [limb_getLsbD, setLimb_testBit, if_pos (by omega)]
  simp [hi]

theorem limb_setLimb_other (m : Nat) {i j : Nat} (w : Word) (h : i ≠ j) : limb (setLimb m j w) i = limb m i := by
  apply BitVec.eq_of_getLsbD_eq; intro b hb
  rw [limb_getLsbD, limb_getLsbD, setLimb_testBit, if_neg]
  intro ⟨h1, h2⟩
  rcases lt_or_gt_of_ne h with h' | h' <;> omega

theorem setLimb_lt {m j n : Nat} (w : Word) (hm : m < 2 ^ (32 * n)) (hj : j < n) : setLimb m j w < 2 ^ (32 * n) := by
  apply Nat.lt_pow_two_of_testBit; intro i hi
  rw [setLimb_testBit, if_neg (by omega)]
  exact Nat.testBit_lt_two_pow (lt_of_lt_of_le hm (Nat.pow_le_pow_right (by omega) hi))

theorem mag_eq_of_limbs {m m' n : Nat} (hm : m < 2 ^ (32 * n)) (hm' : m' < 2 ^ (32 * n))
    (h : ∀ j < n, limb m j = limb m' j) : m = m' := by
  apply Nat.eq_of_testBit_eq; intro i
  rcases lt_or_ge i (32 * n) with hi | hi
  · have := congrArg (fun w => w.getLsbD (i % 32)) (h (i / 32) (by omega))
    simp only [limb_getLsbD] at this
    rw [show 32 * (i / 32) + i % 32 = i by omega] at this
    simpa [Nat.mod_lt] using this
  · rw [Nat.testBit_lt_two_pow (lt_of_lt_of_le hm (Nat.pow_le_pow_right (by omega) hi)),
      Nat.testBit_lt_two_pow (lt_of_lt_of_le hm' (Nat.pow_le_pow_right (by omega) hi))]

theorem BigReg.ofInt_int (v : Int) : (BigReg.ofInt v).int = v := by
  unfold BigReg.int BigReg.ofInt
  by_cases h : v < 0
  · simp only [h, decide_true, if_true]; omega
  · simp only [h, decide_false, Bool.false_eq_true, if_false]; omega

@[simp] theorem BigReg.ofInt_value (v : Int) : (BigReg.ofInt v).value = some v := by
  rw [BigReg.value, if_pos (by rfl), BigReg.ofInt_int]

theorem BigReg.ofInt_wf {c : Config} {v : Int} (h : c.fits v = true) : (BigReg.ofInt v).wf c = true := by
  unfold BigReg.wf BigReg.ofInt
  cases hn : c.nlimbs <;> simp_all [Config.fits]

theorem BigReg.void_wf (c : Config) : (BigReg.void c.cells).wf c = true := by
  unfold BigReg.wf BigReg.void
  cases hn : c.nlimbs <;> simp [Config.cells, hn, List.pairwise_lt_range, limb]

theorem BigReg.int_natAbs (r : BigReg) : r.int.natAbs = r.mag := by
  unfold BigReg.int; split <;> simp

theorem BigReg.fits_of_wf {c : Config} {r : BigReg} (h : r.wf c = true) : c.fits r.int = true := by
  unfold BigReg.wf at h
  unfold Config.fits
  cases hn : c.nlimbs <;> simp_all [BigReg.int_natAbs]

theorem Config.fits_fit (c : Config) (v : Int) : c.fits (c.fit v) = true := by
  unfold Config.fits Config.fit
  cases hn : c.nlimbs with
  | none => rfl
  | some n =>
    simp only [decide_eq_true_eq]
    have h := Int.natAbs_tmod v (2 ^ (32 * n))
    rw [h]
    have : (2 ^ (32 * n) : Int).natAbs = 2 ^ (32 * n) := by rw [Int.natAbs_pow]; rfl
    rw [this]
    exact Nat.mod_lt _ (by positivity)

theorem operand_fits {s : State} (h : RegsInv s) (n : RegName) : s.cfg.fits (s.operand n) = true := by
  unfold State.operand
  split
  · rename_i v hv
    unfold BigReg.value at hv
    split at hv
    · cases hv; exact BigReg.fits_of_wf (h.regs_wf n)
    · cases hv
  · exact Config.fits_fit _ _

theorem BigReg.writeCell_wf {c : Config} {r : BigReg} {n j : Nat} {w : Word} (hn : c.nlimbs = some n) (hj : j < n + 1)
    (h : r.wf c = true) : (r.writeCell j w).wf c = true := by
  unfold BigReg.wf at *
  simp only [hn, Bool.and_eq_true, decide_eq_true_eq] at *
  obtain ⟨⟨⟨h1, h2⟩, h3⟩, h4, h5⟩ := h
  cases j with
  | zero =>
    simp only [BigReg.writeCell]
    refine ⟨⟨⟨h1.filter _, fun j hj => h2 j (List.mem_of_mem_filter hj)⟩, by simp⟩, h4, fun j hj => h5 j (List.mem_of_mem_filter hj)⟩
  | succ i =>
    simp only [BigReg.writeCell]
    refine ⟨⟨⟨h1.filter _, fun j hj => h2 j (List.mem_of_mem_filter hj)⟩, fun h0 => h3 (List.mem_of_mem_filter h0)⟩,
      setLimb_lt w h4 (by omega), fun j hj hj0 => ?_⟩
    have hm := List.mem_filter.1 hj
    have hne : j ≠ i + 1 := by simpa using hm.2
    rw [limb_setLimb_other _ _ (by omega)]
    exact h5 j hm.1 hj0

theorem Config.fits_of_le {c : Config} {u v : Int} (h : c.fits v = true) (hu : u.natAbs ≤ v.natAbs) : c.fits u = true := by
  unfold Config.fits at *
  cases hn : c.nlimbs with
  | none => rfl
  | some n => simp_all only [decide_eq_true_eq]; omega

theorem Config.fits_one {c : Config} (h : c.wf = true) : c.fits 1 = true := by
  unfold Config.fits; unfold Config.wf at h
  cases hn : c.nlimbs with
  | none => rfl
  | some n =>
    simp_all only [decide_eq_true_eq]
    exact Nat.one_lt_two_pow (by omega)

theorem RegsInv.finish {s : State} (h : RegsInv s) {r0 r1 r2 : BigReg} (v : Bool) (h0 : r0.wf s.cfg = true)
    (h1 : r1.wf s.cfg = true) (h2 : r2.wf s.cfg = true) : RegsInv (finish r0 r1 r2 v s) where
  cfg_wf := h.cfg_wf
  regs_wf n := by cases n <;> first | exact h0 | exact h1 | exact h2 | exact h.regs_wf .a | exact h.regs_wf .b | exact h.regs_wf .m | exact h.regs_wf .w

theorem RegsInv.voidResults {s : State} (h : RegsInv s) : RegsInv s.voidResults where
  cfg_wf := h.cfg_wf
  regs_wf n := by cases n <;> first | exact BigReg.void_wf s.cfg | exact h.regs_wf .a | exact h.regs_wf .b | exact h.regs_wf .m | exact h.regs_wf .w

theorem RegsInv.of_same {s t : State} (h : RegsInv s) (hc : t.cfg = s.cfg) (hr : ∀ n, t.reg n = s.reg n) : RegsInv t where
  cfg_wf := by rw [hc]; exact h.cfg_wf
  regs_wf n := by rw [hc, hr]; exact h.regs_wf n

theorem RegsInv.raiseFault {s : State} (h : RegsInv s) (f : FaultCode) : RegsInv (raiseFault f s) :=
  h.voidResults.of_same rfl (fun n => by cases n <;> rfl)

theorem RegsInv.setReg {s : State} (h : RegsInv s) {n : RegName} {r : BigReg} (hr : r.wf s.cfg = true) : RegsInv (s.setReg n r) where
  cfg_wf := by cases n <;> exact h.cfg_wf
  regs_wf k := by
    cases n <;> cases k <;> first | exact hr | exact h.regs_wf .a | exact h.regs_wf .b | exact h.regs_wf .m | exact h.regs_wf .w | exact h.regs_wf .r0 | exact h.regs_wf .r1 | exact h.regs_wf .r2

end Sys2Proof.Machine
end

