-- ==== Sys2Proof/Laws/Engine.lean ====
section
/-! SUPPORT. The sequencer: what one micro-step keeps of the invariant (spec 10_state.md R28, R35 to R37), and runs of
micro-steps. -/

namespace Sys2Proof.Machine

/-! ### Control -/

theorem raiseFault_control (f : FaultCode) (s : State) : ControlInv (raiseFault f s) where
  idle_iff := by simp [raiseFault]
  wait_iff := by simp [raiseFault]
  request_iff := by simp [raiseFault]
  verdict_done := by simp [raiseFault]
  err_done := by simp [raiseFault]
  results_void := by simp [raiseFault, State.voidResults]
  latches := by simp [raiseFault, latchesFit]

theorem finish_control (r0 r1 r2 : BigReg) (v : Bool) {s : State} (h : s.request = false) :
    ControlInv (finish r0 r1 r2 v s) where
  idle_iff := by simp [finish]
  wait_iff := by simp [finish]
  request_iff := by simp [finish, h]
  verdict_done := by simp [finish]
  err_done := by simp [finish]
  results_void := by simp [finish]
  latches := by simp [finish, latchesFit]

/-- While the engine runs... -/
theorem ControlInv.busy {s : State} (h : ControlInv s) (hi : s.ph ≠ .idle) (hw : s.ph ≠ .mrWait) :
    s.state = .busy ∧ s.request = false ∧ s.v = false ∧ s.err = .none ∧
      s.r0 = .void s.cfg.cells ∧ s.r1 = .void s.cfg.cells ∧ s.r2 = .void s.cfg.cells := by
  have h1 := h.idle_iff; have h2 := h.wait_iff; have h3 := h.request_iff
  have h4 := h.verdict_done; have h5 := h.err_done; have h6 := h.results_void
  have hb : s.state = .busy := by cases hs : s.state <;> simp_all
  simp only [hb] at h3 h4 h5 h6
  refine ⟨hb, by simpa using h3, ?_, ?_, h6 (.inl (by simp))⟩
  · by_contra hv; simpa using (h4 (by simpa using hv)).1
  · by_contra he; simpa using h5 he

/-- A micro-step that stays in BUSY ... -/
theorem ControlInv.goOn {s t : State} (h : ControlInv s) (hi : s.ph ≠ .idle) (hw : s.ph ≠ .mrWait)
    (hst : t.state = s.state) (hreq : t.request = s.request) (hv : t.v = s.v) (he : t.err = s.err)
    (hr : t.r0 = s.r0 ∧ t.r1 = s.r1 ∧ t.r2 = s.r2) (hc : t.cfg = s.cfg)
    (hi' : t.ph ≠ .idle) (hw' : t.ph ≠ .mrWait) (hl : latchesFit t.ph t.op t.ret = true) : ControlInv t := by
  obtain ⟨b1, b2, b3, b4, b5⟩ := h.busy hi hw
  constructor <;> simp_all

theorem microStep_control {s : State} (h : ControlInv s) : ControlInv (microStep s) := by
  have hl := h.latches
  have hb := h.busy
  cases hp : s.ph <;> simp only [hp, latchesFit, Bool.or_eq_true, decide_eq_true_eq] at hl hb <;>
    simp only [microStep, hp]
  case idle => exact h
  case mrWait => exact h
  case mrTrial =>
    obtain ⟨b1, b2, b3, b4, b5, b6, b7⟩ := hb (by simp) (by simp)
    unfold mrTrial; split <;> constructor <;> simp_all [latchesFit]
  all_goals
    have hreq := (hb (by simp) (by simp)).2.1
    first
      | exact finish_control _ _ _ _ hreq
      | (first | unfold mpCheck | unfold mpInit | unfold mpLoop | unfold xgCheck | unfold xgInit | unfold xgLoop
               | unfold miCheck | unfold miNorm | unfold mrSpecial | unfold mrDecomp | unfold mrFirst | unfold mrSq
               | unfold tdCheck | unfold tdLoop)
        (try dsimp only)
        repeat' split
        all_goals first
          | exact raiseFault_control _ _
          | (refine h.goOn (by simp [hp]) (by simp [hp]) rfl rfl rfl rfl ⟨rfl, rfl, rfl⟩ rfl ?_ ?_ ?_ <;>
              first | (simp_all [latchesFit]; done) | (rcases hl with hl | hl <;> simp_all [latchesFit]))

/-- The control invariant speaks of these fields only. -/
theorem ControlInv.of_same {s t : State} (h : ControlInv s) (hc : t.cfg = s.cfg) (h1 : t.ph = s.ph) (h2 : t.state = s.state)
    (h3 : t.request = s.request) (h4 : t.v = s.v) (h5 : t.err = s.err) (h6 : t.op = s.op) (h7 : t.ret = s.ret)
    (h8 : t.r0 = s.r0) (h9 : t.r1 = s.r1) (h10 : t.r2 = s.r2) : ControlInv t := by
  obtain ⟨a1, a2, a3, a4, a5, a6, a7⟩ := h
  constructor <;> simp_all

theorem illegalCommand_control {s : State} (h : ControlInv s) : ControlInv (illegalCommand s) := by
  unfold illegalCommand; split
  · exact raiseFault_control _ _
  · exact h

/-! ### The iterations -/

/-- The invariants of the iterations speak of what a command reads and of the working registers only; in MR_WAIT not of W. -/
theorem PhaseInv.of_same {s t : State} (h : PhaseInv s) (ha : t.operand .a = s.operand .a) (hb : t.operand .b = s.operand .b)
    (hm : t.operand .m = s.operand .m) (hw : s.ph ≠ .mrWait → t.operand .w = s.operand .w) (h1 : t.ph = s.ph)
    (h2 : t.op = s.op) (h3 : t.mexp = s.mexp) (h4 : t.xg = s.xg) (h5 : t.mr = s.mr) : PhaseInv t := by
  have hxg : t.xgOperands = s.xgOperands := by simp only [State.xgOperands, ha, hb, hm, h2]
  have hxgcd : XgcdInv s → XgcdInv t := fun ⟨a1, a2, a3, a4, a5, a6, a7, a8, a9, a10, a11, a12, a13, a14, a15⟩ => by
    constructor <;> simp only [h4, hxg] <;> assumption
  have hmr : MrInv s → MrInv t := fun ⟨a1, a2, a3, a4, a5, a6⟩ => by
    constructor <;> simp only [h5, ha] <;> assumption
  by_cases hp : s.ph = .mrWait
  · simp only [PhaseInv, hp] at h
    simp only [PhaseInv, h1, hp, h5]
    exact ⟨hmr h.1, h.2⟩
  · have hw := hw hp
    have hmp : t.mpOperands = s.mpOperands := by simp only [State.mpOperands, ha, hb, hm, hw, h2, h5]
    have hmexp : MexpInv s → MexpInv t := fun ⟨a1, a2, a3, a4, a5, a6, a7, a8⟩ => by
      constructor <;> simp only [h3, hmp] <;> assumption
    have htr : TrialInv s → TrialInv t := fun ⟨a1, a2, a3⟩ => by
      refine ⟨hmr a1, ?_, ?_⟩ <;> simp only [h5, ha, hw] <;> assumption
    cases hq : s.ph <;> simp only [PhaseInv, h1, hq, ha, hb, hm, hw, h2, h3, h4, h5, hmp, hxg] at h ⊢ <;> tauto

theorem phaseInv_of_idle {s : State} (h : s.ph = .idle) : PhaseInv s := by simp [PhaseInv, h]

theorem microStep_phase {s : State} (hc : ControlInv s) (h : PhaseInv s) : PhaseInv (microStep s) := by
  have hl := hc.latches
  cases hp : s.ph <;>
    simp only [hp, latchesFit, PhaseInv, Bool.or_eq_true, decide_eq_true_eq] at hl h <;>
    simp only [microStep, hp]
  case idle => exact phaseInv_of_idle hp
  case mrWait => simp only [PhaseInv, hp]; exact h
  case mpCheck =>
    unfold mpCheck; split
    · exact phaseInv_of_idle rfl
    · rename_i hn
      push Not at hn
      have ho : ¬ s.op = Instr.mrtest.opcode := by rw [hl]; decide
      have hm : ({ s with ret := .mpFin, ph := .mpInit } : State).mpOperands = (s.operand .a, s.operand .b, s.operand .m) := by
        show (if _ then _ else _) = _
        rw [if_neg ho]; rfl
      simp only [PhaseInv]
      rw [hm]
      refine ⟨⟨hn.2.2, hn.2.1, by show 1 ≤ s.operand .m; omega⟩, fun h' => absurd h' ho⟩
  case mpInit =>
    exact ⟨mpInit_mexpInv h.1.1 h.1.2.1 h.1.2.2, fun ho => by
      obtain ⟨⟨h1, h2, h3, h4, h5, h6⟩, h7, h8⟩ := h.2 ho
      exact ⟨⟨h1, h2, h3, h4, h5, h6⟩, h7, h8⟩⟩
  case mpLoop =>
    unfold mpLoop; split
    · rename_i hk
      have hacc := mexpInv_done h.1 hk
      rcases hl with ⟨ho, hr⟩ | ⟨ho, hr⟩
      · have hno : ¬ s.op = Instr.mrtest.opcode := by rw [ho]; decide
        have he := h.1.exponent_nonneg
        have hm := h.1.modulus_pos
        simp only [State.mpOperands, if_neg hno] at hacc he hm
        simp only [PhaseInv, hr]
        exact ⟨hm, he, hacc⟩
      · simp only [State.mpOperands, if_pos ho] at hacc
        simp only [PhaseInv, hr]
        obtain ⟨⟨h1, h2, h3, h4, h5, h6⟩, h7, h8⟩ := h.2 ho
        exact ⟨⟨⟨h1, h2, h3, h4, h5, h6⟩, h7, h8⟩, hacc⟩
    · rename_i hk
      simp only [PhaseInv, hp]
      refine ⟨?_, fun ho => by
        obtain ⟨⟨h1, h2, h3, h4, h5, h6⟩, h7, h8⟩ := h.2 ho
        exact ⟨⟨h1, h2, h3, h4, h5, h6⟩, h7, h8⟩⟩
      have := pass_mexpInv h.1 hk
      rw [← hp]; exact this
  case xgCheck =>
    unfold xgCheck; split
    · exact phaseInv_of_idle rfl
    · rename_i hn
      push Not at hn
      have ho : ¬ s.op = Instr.modinv.opcode := by rw [hl]; decide
      simp only [PhaseInv, State.xgOperands, if_neg ho]
      exact ⟨hn.1, hn.2, fun h' => absurd h' ho⟩
  case miCheck =>
    unfold miCheck; split
    · exact phaseInv_of_idle rfl
    · rename_i hn
      push Not at hn
      simp only [PhaseInv, State.xgOperands, if_pos hl]
      exact ⟨hn.1, le_of_lt hn.2, fun _ => hn.2⟩
  case xgInit => exact ⟨xgInit_xgcdInv h.1 h.2.1, h.2.2⟩
  case xgLoop =>
    obtain ⟨hx, hm⟩ := h
    unfold xgLoop; split
    · rename_i hg
      have hx' : XgcdInv { s with ph := s.ret } := by
        obtain ⟨x1, x2, x3, x4, x5, x6, x7, x8, x9, x10, x11, x12, x13, x14, x15⟩ := hx
        exact ⟨x1, x2, x3, x4, x5, x6, x7, x8, x9, x10, x11, x12, x13, x14, x15⟩
      rcases hl with ⟨ho, hr⟩ | ⟨ho, hr⟩ <;> simp only [PhaseInv, hr] <;> rw [hr] at hx'
      · exact ⟨hx', hg⟩
      · exact ⟨hx', hg, hm ho⟩
    · rename_i hg
      simp only [PhaseInv, hp]
      refine ⟨?_, hm⟩
      have := pass_xgcdInv hx hg
      rw [← hp]; exact this
  case miNorm =>
    obtain ⟨hx, hg, hm⟩ := h
    have hops : s.xgOperands = (s.operand .a, s.operand .m) := by simp [State.xgOperands, hl]
    have hgcd := hx.gcd_eq
    have hb := hx.bezout0
    rw [hg, hops, Int.gcd_zero_right] at hgcd
    rw [hops] at hb
    have h0 := hx.g0_nonneg
    unfold miNorm; split
    · rename_i hne
      refine ⟨hm, ⟨by simp, ?_⟩, by simp⟩
      intro h'
      exfalso
      have h' : Int.gcd (s.operand .a) (s.operand .m) = 1 := h'
      rw [h'] at hgcd; omega
    · rename_i he
      simp only [ne_eq, not_not] at he
      refine ⟨hm, ⟨fun _ => ?_, fun _ => rfl⟩, fun _ => ?_⟩
      · show Int.gcd (s.operand .a) (s.operand .m) = 1
        rw [← hgcd, he]; rfl
      · show 0 ≤ addWhileNegative s.xg.s0.natAbs s.xg.s0 (s.operand .m) ∧ addWhileNegative s.xg.s0.natAbs s.xg.s0 (s.operand .m) < s.operand .m ∧ s.operand .a * addWhileNegative s.xg.s0.natAbs s.xg.s0 (s.operand .m) % s.operand .m = 1 % s.operand .m
        rw [addWhileNegative_eq (by omega) _ _ le_rfl]
        have hmod : s.operand .a * s.xg.s0 % s.operand .m = 1 % s.operand .m := by
          rw [he] at hb
          have : s.operand .a * s.xg.s0 = 1 - s.operand .m * s.xg.t0 := by linear_combination hb
          rw [this, Int.sub_mul_emod_self_left]
        split
        · refine ⟨Int.emod_nonneg _ (by omega), Int.emod_lt_of_pos _ (by omega), ?_⟩
          rw [Int.mul_emod, Int.emod_emod_of_dvd _ (dvd_refl _), ← Int.mul_emod]; exact hmod
        · refine ⟨by omega, ?_, hmod⟩
          have hs := hx.s_size
          rw [hg, he, hops] at hs
          have hne : s.xg.s1 ≠ 0 := by rintro h'; rw [h'] at hs; simp at hs; omega
          have := hx.s0_strict hne
          rw [hops] at this
          have h' := le_abs_self s.xg.s0
          simp only [lt_max_iff] at this
          omega
  case mrSpecial =>
    unfold mrSpecial; split
    · rename_i h23
      exact ⟨fun _ => h23.elim .inl (fun h' => .inr (.inl h')), by simp⟩
    · rename_i h23
      push Not at h23
      split
      · rename_i h2
        refine ⟨by simp, fun _ hpr => ?_⟩
        have hpr : Nat.Prime (s.operand .a).toNat := hpr
        rcases h2 with h2 | h2
        · have := hpr.two_le; omega
        · have := hpr.eq_one_or_self_of_dvd 2 (by have := hpr.two_le; omega)
          have := h23.1; omega
      · rename_i h2
        push Not at h2
        have : 5 ≤ s.operand .a := by have := h23.1; have := h23.2; omega
        exact ⟨this, by show s.operand .a % 2 = 1; omega, by show 1 ≤ s.operand .a - 1; omega, le_refl _, by
          show (s.operand .a - 1) * 2 ^ 0 = _; rw [pow_zero, mul_one]; rfl⟩
  case mrDecomp =>
    obtain ⟨h1, h2, h3, h4, h5⟩ := h
    unfold mrDecomp; split
    · rename_i he
      simp only [PhaseInv, hp]
      refine ⟨h1, h2, by omega, by omega, ?_⟩
      show s.mr.d / 2 * 2 ^ (s.mr.s + 1).toNat = s.operand .a - 1
      rw [← h5, show (s.mr.s + 1).toNat = s.mr.s.toNat + 1 by omega, pow_succ]
      obtain ⟨k, hk⟩ := Int.dvd_of_emod_eq_zero he
      rw [hk, Int.mul_ediv_cancel_left _ (by norm_num)]; ring
    · rename_i ho
      refine ⟨⟨h1, h2, h3, by show s.mr.d % 2 = 1; omega, ?_, h5⟩, by simp⟩
      show 1 ≤ s.mr.s
      by_contra hlt
      rw [show s.mr.s.toNat = 0 by omega] at h5
      omega
  case mrTrial =>
    obtain ⟨⟨h1, h2, h3, h4, h5, h6⟩, ht⟩ := h
    unfold mrTrial; split
    · exact ⟨fun _ => .inr (.inr ⟨h1, h2⟩), by simp⟩
    · exact ⟨⟨h1, h2, h3, h4, h5, h6⟩, by show 1 ≤ s.mr.t; omega⟩
  case mrFirst =>
    obtain ⟨⟨⟨h1, h2, h3, h4, h5, h6⟩, ht, hw⟩, ha⟩ := h
    unfold mrFirst; split
    · exact ⟨⟨h1, h2, h3, h4, h5, h6⟩, by show 0 ≤ s.mr.t - 1; omega⟩
    · rename_i hne
      push Not at hne
      refine ⟨⟨⟨h1, h2, h3, h4, h5, h6⟩, ht, hw⟩, le_refl _, by show 0 ≤ s.mr.s - 1; omega, ?_, hne.1, hne.2⟩
      show s.mexp.acc = s.operand .w ^ (s.mr.d.toNat * 2 ^ 0) % s.operand .a
      rw [pow_zero, mul_one]; exact ha
  case mrSq =>
    obtain ⟨htr, hj, hjs, hx, hx1, hx2⟩ := h
    have htr' := htr
    obtain ⟨⟨h1, h2, h3, h4, h5, h6⟩, ht, hw⟩ := htr
    unfold mrSq; split
    · rename_i he
      have hnp := trial_not_prime htr' hj he hx hx1 hx2
      exact ⟨by simp, fun _ => hnp⟩
    · rename_i hne
      have hsq := square_step hx
      dsimp only
      split
      · exact ⟨⟨h1, h2, h3, h4, h5, h6⟩, by show 0 ≤ s.mr.t - 1; omega⟩
      · rename_i hm1
        split
        · rename_i hone
          refine ⟨by simp, fun _ hpr => ?_⟩
          have hr : 0 ≤ s.mr.x ∧ s.mr.x < s.operand .a := by
            rw [hx]; exact ⟨Int.emod_nonneg _ (by omega), Int.emod_lt_of_pos _ (by omega)⟩
          rcases sqrt_one_of_prime hpr hr.1 hr.2 hone with h' | h' <;> contradiction
        · rename_i hone
          simp only [PhaseInv, hp]
          refine ⟨⟨⟨h1, h2, h3, h4, h5, h6⟩, ht, hw⟩, by omega, by omega, ?_, hone, hm1⟩
          show mulmod s.mr.x s.mr.x (s.operand .a) = s.operand .w ^ (s.mr.d.toNat * 2 ^ (s.mr.j + 1).toNat) % s.operand .a
          rw [hsq, show (s.mr.j + 1).toNat = s.mr.j.toNat + 1 by omega]
  case tdCheck =>
    unfold tdCheck; split
    · rename_i h2
      exact ⟨by simp, fun hpr => by
        have hpr : Nat.Prime (s.operand .a).toNat := hpr
        have := hpr.two_le; omega⟩
    · rename_i h2
      exact ⟨by show 2 ≤ s.operand .a; omega, le_refl _, fun k hk hk' => absurd hk (by show ¬ 2 ≤ k; exact not_le.2 hk')⟩
  case tdLoop =>
    obtain ⟨h1, h2, h3⟩ := h
    unfold tdLoop; split
    · rename_i hgt
      exact ⟨fun _ => prime_of_no_divisor h1 h2 h3 hgt, fun _ => rfl⟩
    · rename_i hle
      split
      · rename_i hd
        have hnp := not_prime_of_divisor h2 (le_of_not_gt hle) hd
        exact ⟨by simp, fun hpr => absurd hpr hnp⟩
      · rename_i hd
        simp only [PhaseInv, hp]
        refine ⟨h1, by omega, fun k hk hk' => ?_⟩
        have hk' : k < s.mr.kd + 1 := hk'
        rcases lt_or_eq_of_le (show k ≤ s.mr.kd by omega) with h' | rfl
        · exact h3 k hk h'
        · exact fun hdv => hd (Int.emod_eq_zero_of_dvd hdv)
  all_goals exact phaseInv_of_idle rfl

/-! ### The registers -/

theorem microStep_regs {s : State} (hr : RegsInv s) (hc : ControlInv s) (h : PhaseInv s) : RegsInv (microStep s) := by
  have hl := hc.latches
  have hv := BigReg.void_wf s.cfg
  cases hp : s.ph <;>
    simp only [hp, latchesFit, PhaseInv, Bool.or_eq_true, decide_eq_true_eq] at hl h <;>
    simp only [microStep, hp]
  case mpFin =>
    have := Int.emod_nonneg (s.operand .a ^ (s.operand .b).toNat) (b := s.operand .m) (by omega)
    have h' := Int.emod_lt_of_pos (s.operand .a ^ (s.operand .b).toNat) (b := s.operand .m) (by omega)
    rw [← h.2.2] at this h'
    exact hr.finish _ (BigReg.ofInt_wf (Config.fits_of_le (operand_fits hr .m) (by omega))) hv hv
  case xgFin =>
    obtain ⟨hx, hg⟩ := h
    have hops : s.xgOperands = (s.operand .a, s.operand .b) := by
      simp only [State.xgOperands]; rw [if_neg]; rw [hl]; decide
    have fa := operand_fits hr .a
    have fb := operand_fits hr .b
    have f1 := Config.fits_one hr.cfg_wf
    have ha := hx.a_nonneg; have hb := hx.b_nonneg
    have b1 := hx.s0_bound; have b2 := hx.t0_bound
    have hgcd := hx.gcd_eq
    rw [hops] at ha hb b1 b2 hgcd
    rw [Int.abs_eq_natAbs] at b1 b2
    rw [hg, Int.gcd_zero_right] at hgcd
    dsimp only at ha hb b1 b2 hgcd
    refine hr.finish _ (BigReg.ofInt_wf ?_) (BigReg.ofInt_wf ?_) (BigReg.ofInt_wf ?_)
    · have hg0 : s.xg.g0.natAbs = Int.gcd (s.operand .a) (s.operand .b) := hgcd
      rcases eq_or_lt_of_le ha with h0 | h0
      · refine Config.fits_of_le fb ?_
        rw [hg0, ← h0, Int.gcd_zero_left]
      · refine Config.fits_of_le fa ?_
        have := Int.gcd_le_natAbs_left (s.operand .b) (show s.operand .a ≠ 0 by omega)
        rw [hg0]; omega
    · rcases le_max_iff.1 b1 with h' | h'
      · exact Config.fits_of_le fb (by omega)
      · exact Config.fits_of_le f1 (by omega)
    · rcases le_max_iff.1 b2 with h' | h'
      · exact Config.fits_of_le fa (by omega)
      · exact Config.fits_of_le f1 (by omega)
  case miFin =>
    refine hr.finish _ ?_ hv hv
    split
    · have := h.2.2 ‹_›
      exact BigReg.ofInt_wf (Config.fits_of_le (operand_fits hr .m) (by omega))
    · exact hv
  all_goals first
    | exact hr
    | exact hr.finish _ hv hv hv
    | (first | unfold mpCheck | unfold mpInit | unfold mpLoop | unfold xgCheck | unfold xgInit | unfold xgLoop
             | unfold miCheck | unfold miNorm | unfold mrSpecial | unfold mrDecomp | unfold mrTrial | unfold mrFirst | unfold mrSq
             | unfold tdCheck | unfold tdLoop)
      (try dsimp only)
      repeat' split
      all_goals first
        | exact hr.raiseFault _
        | exact hr.of_same rfl (fun n => by cases n <;> rfl)

/-! ### Runs -/

theorem engineRun_add (j k : Nat) (s : State) : engineRun (j + k) s = engineRun k (engineRun j s) := by
  induction j generalizing s with
  | zero => simp [engineRun]
  | succ j ih => rw [Nat.succ_add]; exact ih (microStep s)

theorem size_half {n : Nat} (h : n ≠ 0) : n.size = (n / 2).size + 1 := by
  conv_lhs => rw [← Nat.bit_bodd_div2 n]
  rw [Nat.size_bit (by rwa [Nat.bit_bodd_div2]), Nat.div2_val]

theorem mpLoop_run (n : Nat) : ∀ s : State, s.ph = .mpLoop → s.mexp.k = (n : Int) → 0 < s.mexp.modulus →
    0 ≤ s.mexp.acc → s.mexp.acc < s.mexp.modulus →
    ∃ sq' : Int, engineRun (n.size + 1) s =
      { s with
        mexp := ⟨s.mexp.acc * s.mexp.sq ^ n % s.mexp.modulus, sq', 0, s.mexp.modulus⟩
        ph := s.ret } := by
  induction n using Nat.strong_induction_on with
  | _ n ih =>
    intro s hph hk hm h0 h1
    rcases Nat.eq_zero_or_pos n with rfl | hn
    · refine ⟨s.mexp.sq, ?_⟩
      have hm' : s.mexp = ⟨s.mexp.acc * s.mexp.sq ^ 0 % s.mexp.modulus, s.mexp.sq, 0, s.mexp.modulus⟩ := by
        rw [pow_zero, mul_one, Int.emod_eq_of_lt h0 h1, ← Int.ofNat_zero, ← hk]
      rw [← hm']
      simp [engineRun, microStep, hph, mpLoop, hk]
    · have hk0 : s.mexp.k ≠ 0 := by omega
      rw [size_half hn.ne', show (n / 2).size + 1 + 1 = 1 + ((n / 2).size + 1) by omega, engineRun_add]
      have hstep : engineRun 1 s = { s with mexp := s.mexp.pass } := by
        simp [engineRun, microStep, hph, mpLoop, hk0]
      have hpass : s.mexp.pass.k = ((n / 2 : Nat) : Int) := by simp [MexpRegs.pass, hk]
      obtain ⟨sq', h⟩ := ih (n / 2) (by omega) { s with mexp := s.mexp.pass } hph hpass hm
        (by simp only [MexpRegs.pass]; split <;> [exact (mulmod_range _ _ hm).1; exact h0])
        (by simp only [MexpRegs.pass]; split <;> [exact (mulmod_range _ _ hm).2; exact h1])
      refine ⟨sq', ?_⟩
      rw [hstep, h]
      have hp := pow_half_mod s.mexp.acc s.mexp.sq n s.mexp.modulus
      simp only [MexpRegs.pass, hk]
      simp only [hp]

end Sys2Proof.Machine
end

