-- ==== Sys2Proof/Laws/Step.lean ====
section
/-! SUPPORT. What a write of a command, a statement of the host and a step can do, said once each (inversion lemmas), and what they
keep of the invariant. -/

namespace Sys2Proof.Machine

/-! ### Commands -/

theorem acceptCommand_of {opc : BitVec 8} {first : Phase} {s : State} (h : s.mayAccept = true) :
    acceptCommand opc first s =
      { s with
        r0 := .void s.cfg.cells
        r1 := .void s.cfg.cells
        r2 := .void s.cfg.cells
        op := opc
        v := false
        err := .none
        state := .busy
        ph := first } := by
  simp only [acceptCommand, h, if_true]; rfl

theorem acceptCommand_dropped {opc : BitVec 8} {first : Phase} {s : State} (h : s.mayAccept = false) :
    acceptCommand opc first s = s := by
  simp [acceptCommand, h]

theorem acceptCommand_control {opc : BitVec 8} {first : Phase} {s : State} (h : ControlInv s)
    (hi : first ≠ .idle) (hw : first ≠ .mrWait) (hl : ∀ ret, latchesFit first opc ret = true) :
    ControlInv (acceptCommand opc first s) := by
  unfold acceptCommand
  split
  · rename_i ha
    have hreq : s.request = false := by
      have h3 := h.request_iff
      cases hr : s.request <;> simp_all [State.mayAccept]
    constructor <;> simp_all [State.voidResults]
  · exact h

theorem exec_control {i : Instr} {s s' : State} (h : ControlInv s) (he : exec i s = .next s') : ControlInv s' := by
  cases i <;> simp only [exec, execModpow, execXgcd, execModinv, execMrtest, execTdiv, execResume,
    Host.Outcome.next.injEq] at he <;> subst he
  case resume =>
    split
    · rename_i hw
      unfold deliverWitness; split
      · exact raiseFault_control _ _
      · have h2 := h.wait_iff; have h7 := h.latches
        have h4 := h.verdict_done; have h5 := h.err_done; have h6 := h.results_void
        have : s.ph = .mrWait := h2.2 hw
        constructor <;> simp_all [latchesFit]
    · exact h
  all_goals exact acceptCommand_control h (by simp) (by simp) (by intro r; simp [latchesFit])


theorem exec_regs {i : Instr} {s s' : State} (h : RegsInv s) (he : exec i s = .next s') : RegsInv s' := by
  cases i <;> simp only [exec, execModpow, execXgcd, execModinv, execMrtest, execTdiv, execResume,
    Host.Outcome.next.injEq] at he <;> subst he
  case resume =>
    unfold deliverWitness
    repeat' split
    · exact h.raiseFault _
    · exact h.of_same rfl (fun n => by cases n <;> rfl)
    · exact h
  all_goals
    unfold acceptCommand
    split
    · exact h.voidResults.of_same rfl (fun n => by cases n <;> rfl)
    · exact h

theorem exec_phase {i : Instr} {s s' : State} (hc : ControlInv s) (h : PhaseInv s) (he : exec i s = .next s') :
    PhaseInv s' := by
  cases i <;> simp only [exec, execModpow, execXgcd, execModinv, execMrtest, execTdiv, execResume,
    Host.Outcome.next.injEq] at he <;> subst he
  case resume =>
    split
    · rename_i hw
      have hp : s.ph = .mrWait := hc.wait_iff.2 hw
      have hop : s.op = Instr.mrtest.opcode := by simpa [hp, latchesFit] using hc.latches
      simp only [PhaseInv, hp] at h
      obtain ⟨⟨h1, h2, h3, h4, h5, h6⟩, ht⟩ := h
      unfold deliverWitness
      split
      · exact phaseInv_of_idle rfl
      · rename_i hr
        push Not at hr
        simp only [PhaseInv, State.mpOperands, if_pos hop]
        exact ⟨⟨by have := hr.1; show 0 ≤ s.operand .w; omega, by show 0 ≤ s.mr.d; omega, by show 1 ≤ s.operand .a; omega⟩,
          fun _ => ⟨⟨h1, h2, h3, h4, h5, h6⟩, ht, hr⟩⟩
    · exact h
  all_goals
    unfold acceptCommand
    split
    · simp [PhaseInv]
    · exact h

/-! ### Statements of the host -/

/-- Everything a statement of the host can do when it answers a next state: a read (with its answer, and POLL back on the
script), a stored register, a stored cell, MR_TRIALS, a command, or an illegal command. -/
theorem perform_cases {h : HostStmt} {s s' : State} (hp : perform h s = .next s') :
    (∃ sc dr rp, s' = { s with script := sc, draws := dr, replies := rp }) ∨
      (∃ n v, h = .writeInt n v ∧ s.cfg.fits v = true ∧ hostMayWrite n s.state = true ∧ s' = s.setReg n (.ofInt v)) ∨
      (∃ n k j w, s.cfg.nlimbs = some k ∧ j < k + 1 ∧ hostMayWrite n s.state = true ∧
        s' = s.setReg n ((s.reg n).writeCell j w)) ∨
      (∃ w, s.mayAccept = true ∧ s' = { s with trials := w }) ∨
      (∃ w i, h = .memWrite s.cfg.base 4 w ∧ decode w = .ok i ∧ exec i s = .next s') ∨
      (∃ w e, h = .memWrite s.cfg.base 4 w ∧ decode w = .error e ∧ s' = illegalCommand s) := by
  have hfree : ∀ t : State, t = s.answerFreeWord ∨ t = s.answerFreeInt ∨ (∃ r, t = s.answer r) ∨ t = s →
      ∃ sc dr rp, t = { s with script := sc, draws := dr, replies := rp } := by
    rintro t (rfl | rfl | ⟨r, rfl⟩ | rfl)
    · exact ⟨s.script, _, _, rfl⟩
    · exact ⟨s.script, _, _, rfl⟩
    · exact ⟨s.script, s.draws, _, rfl⟩
    · exact ⟨t.script, t.draws, t.replies, rfl⟩
  cases h with
  | memRead addr size =>
    left
    simp only [perform, portAccess] at hp
    repeat' split at hp
    all_goals try cases hp
    unfold readTarget at hp
    split at hp <;> try cases hp
    · exact hfree _ (.inl rfl)
    · exact hfree _ (.inr (.inr (.inl ⟨_, rfl⟩)))
    · exact hfree _ (.inr (.inr (.inl ⟨_, rfl⟩)))
    · unfold hostReadCell
      repeat' split
      · exact hfree _ (.inr (.inr (.inl ⟨_, rfl⟩)))
      · exact hfree _ (.inl rfl)
      · exact hfree _ (.inl rfl)
    · exact hfree _ (.inl rfl)
  | memWrite addr size w =>
    simp only [perform, portAccess] at hp
    repeat' split at hp
    all_goals try cases hp
    rename_i hsize hal hbase
    simp only [ne_eq, not_not, not_lt] at hsize hbase
    subst hsize
    unfold writeTarget at hp
    split at hp
    · rename_i ht
      have haddr : addr = s.cfg.base := by
        unfold Config.target at ht
        repeat' split at ht
        all_goals first | omega | cases ht
      subst haddr
      unfold writeCmd at hp
      split at hp
      · exact .inr (.inr (.inr (.inr (.inl ⟨w, _, rfl, ‹_›, hp⟩))))
      · cases hp; exact .inr (.inr (.inr (.inr (.inr ⟨w, _, rfl, ‹_›, rfl⟩))))
    · cases hp; exact .inl (hfree _ (.inr (.inr (.inr rfl))))
    · cases hp
      unfold hostWriteTrials
      split
      · exact .inr (.inr (.inr (.inl ⟨w, ‹_›, rfl⟩)))
      · exact .inl (hfree _ (.inr (.inr (.inr rfl))))
    · rename_i n j ht
      cases hp
      unfold hostWriteCell
      split
      · obtain ⟨k, hk, hj⟩ : ∃ k, s.cfg.nlimbs = some k ∧ j < k + 1 := by
          unfold Config.target at ht
          repeat' split at ht
          all_goals try cases ht
          rename_i k hk _ _
          refine ⟨k, hk, ?_⟩
          have := Nat.mod_lt (addr - s.cfg.base - 16) (show 0 < Config.stride k by unfold Config.stride; omega)
          unfold Config.stride at *
          omega
        exact .inr (.inr (.inl ⟨n, k, j, w, hk, hj, ‹_›, rfl⟩))
      · exact .inl (hfree _ (.inr (.inr (.inr rfl))))
    · cases hp; exact .inl (hfree _ (.inr (.inr (.inr rfl))))
    · cases hp
  | readInt r =>
    left
    simp only [perform, Host.Outcome.next.injEq] at hp
    subst hp
    unfold hostReadInt
    repeat' split
    · exact hfree _ (.inr (.inr (.inl ⟨_, rfl⟩)))
    · exact hfree _ (.inr (.inl rfl))
    · exact hfree _ (.inr (.inl rfl))
  | writeInt r v =>
    simp only [perform] at hp
    split at hp
    · cases hp
      unfold hostWriteInt
      split
      · exact .inr (.inl ⟨r, v, rfl, ‹_›, ‹_›, rfl⟩)
      · exact .inl (hfree _ (.inr (.inr (.inr rfl))))
    · cases hp
  | poll =>
    left
    simp only [perform, Host.Outcome.next.injEq] at hp
    subst hp
    split
    · exact ⟨_, s.draws, _, rfl⟩
    · exact hfree _ (.inr (.inr (.inl ⟨_, rfl⟩)))

/-- Everything a step can do when it answers a next state: a micro-step, a statement of the host, nothing (the host has no
statement left), or a reset. `ts` and `sc` are the schedule and the script that remain. -/
theorem step_cases {s s' : State} (h : step s = .next s') :
    (∃ ts, s' = microStep { s with turns := ts }) ∨
      (∃ ts sc st, perform st { s with turns := ts, script := sc } = .next s') ∨
      (∃ ts, s' = { s with turns := ts }) ∨
      (∃ ts, s' = applyReset { s with turns := ts }) := by
  have hturn : ∀ ts, hostTurn { s with turns := ts } = .next s' →
      (∃ ts sc st, perform st { s with turns := ts, script := sc } = .next s') ∨ (∃ ts, s' = { s with turns := ts }) := by
    intro ts ht
    unfold hostTurn at ht
    split at ht
    · cases ht; exact .inr ⟨ts, rfl⟩
    · exact .inl ⟨ts, _, _, ht⟩
  unfold step at h
  split at h
  · cases h; exact .inl ⟨_, rfl⟩
  · rcases hturn _ h with h' | h'
    · exact .inr (.inl h')
    · exact .inr (.inr (.inl h'))
  · cases h; exact .inr (.inr (.inr ⟨_, rfl⟩))
  · split at h
    · cases h; exact .inl ⟨s.turns, rfl⟩
    · rcases hturn s.turns h with h' | h'
      · exact .inr (.inl h')
      · exact .inr (.inr (.inl h'))

end Sys2Proof.Machine
end

