-- ==== Sys2Proof/Laws/Runs.lean ====
section
/-! SUPPORT. Runs of the loops: XG_LOOP as the extended Euclidean algorithm (spec 40_modular_arithmetic.md R128), MR_DECOMP
(41_primality.md R162), MR_SQ (R166) and TD_LOOP (R171), each from its entry to its exit. -/

namespace Sys2Proof.Machine

@[simp] theorem engineRun_zero (s : State) : engineRun 0 s = s := rfl
@[simp] theorem engineRun_one (s : State) : engineRun 1 s = microStep s := rfl
theorem engineRun_succ (k : Nat) (s : State) : engineRun (k + 1) s = engineRun k (microStep s) := rfl

/-- A run of micro-steps keeps the whole invariant. -/
theorem engineRun_inv (k : Nat) : ∀ s : State, Inv s → Inv (engineRun k s) := by
  induction k with
  | zero => exact fun _ h => h
  | succ k ih =>
    exact fun s h => ih _ ⟨microStep_regs h.regs h.control h.phase, microStep_control h.control,
      microStep_phase h.control h.phase⟩

/-- A run of micro-steps keeps the invariants of control and of the iterations. -/
theorem engineRun_phase (k : Nat) : ∀ s : State, ControlInv s → PhaseInv s →
    ControlInv (engineRun k s) ∧ PhaseInv (engineRun k s) := by
  induction k with
  | zero => exact fun _ hc h => ⟨hc, h⟩
  | succ k ih => exact fun s hc h => ih _ (microStep_control hc) (microStep_phase hc h)

/-- XG_LOOP runs to its exit as Mathlib's extended Euclid does. -/
theorem xgLoop_run (n : Nat) : ∀ (s : State) (m : Nat), s.ph = .xgLoop → s.xg.g0 = (m : Int) → s.xg.g1 = (n : Int) →
    ∃ (k : Nat) (xg : XgcdRegs), engineRun k s = { s with xg := xg, ph := s.ret } ∧ xg.g1 = 0 ∧ xg.inv = s.xg.inv ∧
      xg.g0 = (Nat.gcd m n : Int) ∧
      Nat.xgcdAux n s.xg.s1 s.xg.t1 m s.xg.s0 s.xg.t0 = (Nat.gcd m n, xg.s0, xg.t0) ∧
      (XgcdInv s → XgcdInv { s with xg := xg, ph := s.ret }) := by
  induction n using Nat.strong_induction_on with
  | _ n ih =>
    intro s m hp h0 h1
    rcases Nat.eq_zero_or_pos n with rfl | hn
    · refine ⟨1, s.xg, ?_, h1, rfl, by simpa using h0, by rw [Nat.xgcd_zero_left]; simp only [Nat.gcd_zero_right],
        fun ⟨x1, x2, x3, x4, x5, x6, x7, x8, x9, x10, x11, x12, x13, x14, x15⟩ =>
          ⟨x1, x2, x3, x4, x5, x6, x7, x8, x9, x10, x11, x12, x13, x14, x15⟩⟩
      simp [engineRun, microStep, hp, xgLoop, h1]
    · have hne : s.xg.g1 ≠ 0 := by omega
      have hstep : microStep s = { s with xg := s.xg.pass } := by simp [microStep, hp, xgLoop, hne]
      have hg1 : s.xg.pass.g1 = ((m % n : Nat) : Int) := by
        simp only [XgcdRegs.pass, h0, h1]
        have := Int.emod_add_mul_ediv (m : Int) n
        push_cast; linarith [mul_comm ((m : Int) / n) n]
      obtain ⟨k, xg, e, e1, e2, e3, e4, e5⟩ := ih (m % n) (Nat.mod_lt _ hn) { s with xg := s.xg.pass } n hp h1 hg1
      have hgcd : Nat.gcd n (m % n) = Nat.gcd m n := by rw [Nat.gcd_comm n, ← Nat.gcd_rec, Nat.gcd_comm]
      refine ⟨k + 1, xg, by rw [engineRun_succ, hstep]; exact e, e1, e2, by rw [e3, hgcd], ?_, fun h => e5 (pass_xgcdInv h hne)⟩
      rw [hgcd] at e4
      rw [← e4, Nat.xgcdAux_rec hn]
      simp [XgcdRegs.pass, h0, h1]

/-- MR_DECOMP runs to its exit. -/
theorem mrDecomp_run (n : Nat) : ∀ s : State, s.ph = .mrDecomp → s.mr.d = (n : Int) → 0 < n →
    ∃ (k e d : Nat), engineRun k s =
      { s with
        mr := { s.mr with d := d, s := s.mr.s + e, t := s.trials.toNat }
        ph := .mrTrial } ∧ d % 2 = 1 ∧ d * 2 ^ e = n := by
  induction n using Nat.strong_induction_on with
  | _ n ih =>
    intro s hp hd hn
    by_cases h2 : n % 2 = 0
    · obtain ⟨k, e, d, h, ho, hs⟩ := ih (n / 2) (by omega)
        { s with mr := { s.mr with d := s.mr.d / 2, s := s.mr.s + 1 } } hp (by show s.mr.d / 2 = _; omega) (by omega)
      refine ⟨k + 1, e + 1, d, ?_, ho, by rw [pow_succ, ← mul_assoc, hs]; omega⟩
      rw [engineRun_succ, show microStep s = { s with mr := { s.mr with d := s.mr.d / 2, s := s.mr.s + 1 } } by
        have : s.mr.d % 2 = 0 := by omega
        simp [microStep, hp, mrDecomp, this], h]
      simp only [Nat.cast_succ, add_assoc, add_comm (1 : Int)]
    · refine ⟨1, 0, n, ?_, by omega, by simp⟩
      have : ¬ s.mr.d % 2 = 0 := by omega
      simp [microStep, hp, mrDecomp, this, ← hd]

/-- TD_LOOP runs to its exit. -/
theorem tdLoop_run (n : Nat) : ∀ s : State, s.ph = .tdLoop → 2 ≤ s.mr.kd → (s.operand .a - s.mr.kd).toNat = n →
    2 ≤ s.operand .a →
    (∀ k : Int, 2 ≤ k → k < s.mr.kd → ¬ k ∣ s.operand .a) →
    ∃ (k : Nat) (kd : Int), engineRun k s =
      { s with
        mr := { s.mr with kd := kd, verd := decide (Nat.Prime (s.operand .a).toNat) }
        ph := .tdFin } := by
  induction n with
  | zero =>
    intro s hp hk hn ha hno
    refine ⟨1, s.mr.kd, ?_⟩
    have hgt : s.mr.kd * s.mr.kd > s.operand .a := by nlinarith [show s.operand .a ≤ s.mr.kd by omega]
    have := prime_of_no_divisor ha hk hno hgt
    simp [microStep, hp, tdLoop, hgt, this]
  | succ n ih =>
    intro s hp hk hn ha hno
    by_cases hgt : s.mr.kd * s.mr.kd > s.operand .a
    · refine ⟨1, s.mr.kd, ?_⟩
      have := prime_of_no_divisor ha hk hno hgt
      simp [microStep, hp, tdLoop, hgt, this]
    · by_cases hd : s.operand .a % s.mr.kd = 0
      · refine ⟨1, s.mr.kd, ?_⟩
        have := not_prime_of_divisor hk (le_of_not_gt hgt) hd
        simp [microStep, hp, tdLoop, hgt, hd, this]
      · obtain ⟨k, kd, h⟩ := ih { s with mr := { s.mr with kd := s.mr.kd + 1 } } hp (by show 2 ≤ s.mr.kd + 1; omega)
          (by show (s.operand .a - (s.mr.kd + 1)).toNat = n; omega) ha
          (by
            intro k h1 h2
            have h2 : k < s.mr.kd + 1 := h2
            rcases lt_or_eq_of_le (show k ≤ s.mr.kd by omega) with h' | rfl
            · exact hno k h1 h'
            · exact fun hdv => hd (Int.emod_eq_zero_of_dvd hdv))
        refine ⟨k + 1, kd, ?_⟩
        rw [engineRun_succ, show microStep s = { s with mr := { s.mr with kd := s.mr.kd + 1 } } by
          simp [microStep, hp, tdLoop, hgt, hd], h]
        rfl

/-- The squarings of one trial run to their end: back to MR_TRIAL when some later power is A - 1, else to MR_FIN. -/
theorem mrSq_run (n : Nat) : ∀ s : State, s.ph = .mrSq → 5 ≤ s.operand .a → 0 ≤ s.mr.j → s.mr.j ≤ s.mr.s - 1 →
    s.mr.x = s.operand .w ^ (s.mr.d.toNat * 2 ^ s.mr.j.toNat) % s.operand .a →
    (s.mr.s - 1 - s.mr.j).toNat = n →
    ∃ (k : Nat) (x j : Int),
      ((∃ r, s.mr.j.toNat < r ∧ r < s.mr.s.toNat ∧
          s.operand .w ^ (s.mr.d.toNat * 2 ^ r) % s.operand .a = s.operand .a - 1) →
        engineRun k s = { s with mr := { s.mr with x := x, j := j, t := s.mr.t - 1 }, ph := .mrTrial }) ∧
      ((¬ ∃ r, s.mr.j.toNat < r ∧ r < s.mr.s.toNat ∧
          s.operand .w ^ (s.mr.d.toNat * 2 ^ r) % s.operand .a = s.operand .a - 1) →
        engineRun k s = { s with mr := { s.mr with x := x, j := j, verd := false }, ph := .mrFin }) := by
  induction n with
  | zero =>
    intro s hp ha hj hjs hx hn
    refine ⟨1, s.mr.x, s.mr.j, ?_, fun _ => ?_⟩
    · rintro ⟨r, h1, h2, -⟩; omega
    · simp [microStep, hp, mrSq, show s.mr.j = s.mr.s - 1 by omega]
  | succ n ih =>
    intro s hp ha hj hjs hx hn
    have hne : s.mr.j ≠ s.mr.s - 1 := by omega
    have hsq := square_step hx
    have hj1 : (s.mr.j + 1).toNat = s.mr.j.toNat + 1 := by omega
    by_cases hm : mulmod s.mr.x s.mr.x (s.operand .a) = s.operand .a - 1
    · refine ⟨1, mulmod s.mr.x s.mr.x (s.operand .a), s.mr.j + 1, fun _ => ?_, fun hno => ?_⟩
      · simp only [engineRun_one, microStep, hp, mrSq, hne, hm, if_true, if_false]
      · exact absurd ⟨s.mr.j.toNat + 1, by omega, by omega, by rw [← hsq, hm]⟩ hno
    · by_cases h1 : mulmod s.mr.x s.mr.x (s.operand .a) = 1
      · refine ⟨1, mulmod s.mr.x s.mr.x (s.operand .a), s.mr.j + 1, ?_, fun _ => ?_⟩
        · rintro ⟨r, hr1, hr2, hr⟩
          exfalso
          rw [h1] at hsq
          have : s.operand .w ^ (s.mr.d.toNat * 2 ^ r) ≡ 1 [ZMOD s.operand .a] := by
            have h' : s.operand .w ^ (s.mr.d.toNat * 2 ^ (s.mr.j.toNat + 1)) ≡ 1 [ZMOD s.operand .a] := by
              show _ % _ = 1 % _
              rw [← hsq, Int.emod_eq_of_lt (by omega) (by omega)]
            obtain ⟨i, rfl⟩ := Nat.exists_eq_add_of_le (show s.mr.j.toNat + 1 ≤ r by omega)
            rw [pow_add, ← mul_assoc, pow_mul]
            simpa using h'.pow (2 ^ i)
          have h2 : s.operand .w ^ (s.mr.d.toNat * 2 ^ r) % s.operand .a = 1 := by
            rw [this, Int.emod_eq_of_lt (by omega) (by omega)]
          omega
        · simp only [engineRun_one, microStep, hp, mrSq, hne, if_false, h1, show (1 : Int) ≠ s.operand .a - 1 by omega, if_true]
      · obtain ⟨k, x, j, e1, e2⟩ := ih
          { s with mr := { s.mr with x := mulmod s.mr.x s.mr.x (s.operand .a), j := s.mr.j + 1 } } hp ha
          (by show 0 ≤ s.mr.j + 1; omega) (by show s.mr.j + 1 ≤ s.mr.s - 1; omega)
          (by show _ = s.operand .w ^ (s.mr.d.toNat * 2 ^ (s.mr.j + 1).toNat) % s.operand .a; rw [hj1]; exact hsq)
          (by show (s.mr.s - 1 - (s.mr.j + 1)).toNat = n; omega)
        have hstep : microStep s =
            { s with mr := { s.mr with x := mulmod s.mr.x s.mr.x (s.operand .a), j := s.mr.j + 1 } } := by
          simp only [microStep, hp, mrSq, hne, if_false, hm, h1]
        have hiff : (∃ r, s.mr.j.toNat < r ∧ r < s.mr.s.toNat ∧
              s.operand .w ^ (s.mr.d.toNat * 2 ^ r) % s.operand .a = s.operand .a - 1) →
            ∃ r, (s.mr.j + 1).toNat < r ∧ r < s.mr.s.toNat ∧
              s.operand .w ^ (s.mr.d.toNat * 2 ^ r) % s.operand .a = s.operand .a - 1 := by
          rintro ⟨r, hr1, hr2, hr⟩
          refine ⟨r, ?_, hr2, hr⟩
          rcases lt_or_eq_of_le (show s.mr.j.toNat + 1 ≤ r by omega) with h' | h'
          · omega
          · exfalso; rw [← h', ← hsq] at hr; exact hm hr
        refine ⟨k + 1, x, j, fun h => ?_, fun h => ?_⟩
        · rw [engineRun_succ, hstep]; exact e1 (hiff h)
        · rw [engineRun_succ, hstep]
          refine e2 (fun ⟨r, hr1, hr2, hr⟩ => h ⟨r, ?_, hr2, hr⟩)
          have hr1 : (s.mr.j + 1).toNat < r := hr1
          omega

end Sys2Proof.Machine
end

