-- ==== Sys2Proof/Laws/HostRuns.lean ====
section
/-! SUPPORT. The host's scripts run to their end (spec 30_encoding.md R97, R98): a run of the engine while the host polls, and a
command with its POLL, with the schedule left to the default. -/

namespace Sys2Proof.Machine

/-- What a micro-step never touches: the parameters, and everything of the host's. -/
theorem microStep_host (s : State) :
    (microStep s).cfg = s.cfg ∧ (microStep s).script = s.script ∧ (microStep s).turns = s.turns ∧
      (microStep s).replies = s.replies ∧ (microStep s).draws = s.draws := by
  unfold microStep
  split <;> first
    | exact ⟨rfl, rfl, rfl, rfl, rfl⟩
    | (first | unfold mpCheck | unfold mpLoop | unfold xgCheck | unfold xgLoop | unfold miCheck | unfold miNorm
             | unfold mrSpecial | unfold mrDecomp | unfold mrTrial | unfold mrFirst | unfold mrSq | unfold tdCheck
             | unfold tdLoop)
      (try dsimp only)
      repeat' split
      all_goals exact ⟨rfl, rfl, rfl, rfl, rfl⟩

theorem engineRun_host (k : Nat) : ∀ s : State,
    (engineRun k s).cfg = s.cfg ∧ (engineRun k s).script = s.script ∧ (engineRun k s).turns = s.turns ∧
      (engineRun k s).replies = s.replies ∧ (engineRun k s).draws = s.draws := by
  induction k with
  | zero => exact fun s => ⟨rfl, rfl, rfl, rfl, rfl⟩
  | succ k ih =>
    intro s
    obtain ⟨h1, h2, h3, h4, h5⟩ := ih (microStep s)
    obtain ⟨g1, g2, g3, g4, g5⟩ := microStep_host s
    exact ⟨h1.trans g1, h2.trans g2, h3.trans g3, h4.trans g4, h5.trans g5⟩

/-- Out of BUSY the engine stands still (R28, R164). -/
theorem microStep_rest {s : State} (hc : ControlInv s) (h : s.state ≠ .busy) : microStep s = s := by
  have : s.ph = .idle ∨ s.ph = .mrWait := by
    by_contra hn
    push Not at hn
    exact h (hc.busy hn.1 hn.2).1
  rcases this with h' | h' <;> simp [microStep, h']

theorem engineRun_rest {s : State} (hc : ControlInv s) (h : s.state ≠ .busy) (k : Nat) : engineRun k s = s := by
  induction k with
  | zero => rfl
  | succ k ih => rw [engineRun_succ, microStep_rest hc h, ih]

/-- The invariant does not speak of what is the host's. -/
theorem Inv.of_host {s t : State} (h : Inv s)
    (e : t = { s with script := t.script, turns := t.turns, replies := t.replies, draws := t.draws }) : Inv t := by
  rw [e]
  exact ⟨h.regs.of_same rfl (fun n => by cases n <;> rfl), h.control.of_same rfl rfl rfl rfl rfl rfl rfl rfl rfl rfl rfl,
    h.phase.of_same rfl rfl rfl (fun _ => rfl) rfl rfl rfl rfl rfl⟩

/-- Writing an operand between commands keeps the invariant. -/
theorem Inv.writeOperand {s : State} (h : Inv s) (hs : s.state = .idle ∨ s.state = .done) {n : RegName} {v : Int}
    (hf : s.cfg.fits v = true) (hn : n = .a ∨ n = .b ∨ n = .m) : Inv (s.setReg n (.ofInt v)) := by
  refine ⟨h.regs.setReg (BigReg.ofInt_wf hf), ?_, phaseInv_of_idle ?_⟩
  · rcases hn with rfl | rfl | rfl <;> exact h.control.of_same rfl rfl rfl rfl rfl rfl rfl rfl rfl rfl rfl
  · rcases hn with rfl | rfl | rfl <;> exact h.control.idle_iff.2 hs

/-- The source's answer written to W keeps the invariant, and RESUME will find it (R165). -/
theorem Inv.writeWitness {s : State} (h : Inv s) (hs : s.state = .waitRng) {r : Int} (hf : s.cfg.fits r = true) :
    hostWriteInt .w r s = { s with w := .ofInt r } ∧ Inv { s with w := .ofInt r } ∧
      ({ s with w := .ofInt r } : State).operand .w = r := by
  have hp : s.ph = .mrWait := h.control.wait_iff.2 hs
  refine ⟨by simp [hostWriteInt, hostMayWrite, hs, State.setReg], ⟨h.regs.setReg (n := .w) (BigReg.ofInt_wf hf),
    h.control.of_same rfl rfl rfl rfl rfl rfl rfl rfl rfl rfl rfl,
    h.phase.of_same rfl rfl rfl (fun h => absurd hp h) rfl rfl rfl rfl rfl⟩, ?_⟩
  simp [State.operand, State.reg]

/-- The fields that the host reads in a STATUS word are the fields (R33). -/
theorem statusErr_status (s : State) : statusErr s.status = s.err.code := by
  unfold statusErr State.status; cases s.state <;> cases s.v <;> cases s.err <;> rfl

theorem statusV_status (s : State) : statusV s.status = s.v := by
  unfold statusV State.status; cases s.state <;> cases s.v <;> cases s.err <;> rfl

theorem statusState_status (s : State) : statusState s.status = s.state.code := by
  unfold statusState State.status; cases s.state <;> cases s.v <;> cases s.err <;> rfl

theorem runScript_done {s : State} (hs : s.script = []) (hb : s.state ≠ .busy) (fuel : Nat) : runScript fuel s = .next s := by
  cases fuel <;> simp [runScript, hs, hb]

theorem runScript_step {s s' : State} (h : s.script ≠ [] ∨ s.state = .busy) (hst : step s = .next s') (fuel : Nat) :
    runScript (fuel + 1) s = runScript fuel s' := by
  have : ¬ (s.script = [] ∧ s.state ≠ .busy) := by tauto
  simp [runScript, this, hst]

/-- While the engine is BUSY it moves, and the script waits. -/
theorem runScript_engine (k : Nat) : ∀ s : State, ControlInv s → s.turns = [] →
    ∃ n, n ≤ k ∧ ∀ fuel, (engineRun k s).state ≠ .busy → runScript (n + fuel) s = runScript fuel (engineRun k s) := by
  induction k with
  | zero => exact fun s _ _ => ⟨0, le_refl _, fun fuel _ => by rw [Nat.zero_add]; rfl⟩
  | succ k ih =>
    intro s hc ht
    by_cases hb : s.state = .busy
    · obtain ⟨n, hn, h⟩ := ih (microStep s) (microStep_control hc) ((microStep_host s).2.2.1.trans ht)
      refine ⟨n + 1, by omega, fun fuel hf => ?_⟩
      rw [show n + 1 + fuel = (n + fuel) + 1 by omega, engineRun_succ,
        runScript_step (.inr hb) (s' := microStep s) (by simp [step, ht, hb])]
      exact h fuel hf
    · exact ⟨0, by omega, fun fuel _ => by rw [Nat.zero_add, engineRun_rest hc hb]⟩

/-- With the default schedule and the engine not BUSY, the host performs its next statement. -/
theorem runScript_host {s s' : State} {h : HostStmt} {sc : List HostStmt} (ht : s.turns = []) (hb : s.state ≠ .busy)
    (hs : s.script = h :: sc) (hp : perform h { s with script := sc } = .next s') (fuel : Nat) :
    runScript (fuel + 1) s = runScript fuel s' :=
  runScript_step (.inl (by simp [hs])) (by simp only [step, ht, if_neg hb, hostTurn, hs]; rw [← ht]; exact hp) fuel

/-- A write of a legal word to CMD is exec of its command (R95). -/
theorem perform_scriptCmd (i : Instr) (s : State) : perform (scriptCmd s.cfg i) s = exec i s := by
  have hd : decode (encode i) = .ok i := by cases i <;> decide
  have hc : s.cfg.base % 4 = 0 := by unfold Config.base; omega
  simp [scriptCmd, scriptCmdw, perform, portAccess, Config.target, writeTarget, writeCmd, hd, hc]

/-- `CMD i ; POLL` as the rest of a script: from IDLE or DONE, if `k` micro-steps after the acceptance the engine is not BUSY, the
script ends there with the STATUS word as its last answer. -/
theorem runScript_command {s s₁ : State} {i : Instr} (k : Nat) (ht : s.turns = []) (hb : s.state ≠ .busy)
    (hs : s.script = [scriptCmd s.cfg i, .poll]) (he : exec i { s with script := [.poll] } = .next s₁) (hc : ControlInv s₁)
    (ht₁ : s₁.turns = []) (hk : (engineRun k s₁).state ≠ .busy) (hsc : (engineRun k s₁).script = [.poll]) :
    ∀ fuel, k + 2 ≤ fuel → runScript fuel s =
      .next { engineRun k s₁ with
        script := []
        replies := .word (engineRun k s₁).status :: (engineRun k s₁).replies } := by
  intro fuel hf
  obtain ⟨n, hn, h⟩ := runScript_engine k s₁ hc ht₁
  obtain ⟨m, rfl⟩ := Nat.exists_eq_add_of_le (show n + 2 ≤ fuel by omega)
  rw [show n + 2 + m = (n + (m + 1)) + 1 by omega,
    runScript_host ht hb hs (s' := s₁) ((perform_scriptCmd i { s with script := [.poll] }).trans he), h _ hk,
    runScript_host (((engineRun_host k s₁).2.2.1).trans ht₁) hk hsc
      (s' := { engineRun k s₁ with
        script := []
        replies := .word (engineRun k s₁).status :: (engineRun k s₁).replies })
      (by simp only [perform]; rw [if_neg (by exact hk)]; rfl)]
  exact runScript_done (s := { engineRun k s₁ with
    script := []
    replies := .word (engineRun k s₁).status :: (engineRun k s₁).replies }) rfl hk m

end Sys2Proof.Machine
end

