-- ==== Sys2Proof/Laws/PerInstr.lean ====
section
/-! SUPPORT. Statements for all instructions, one lemma a constructor. `EncodingRoundTrip`: a command is well-formed, its encoding
decodes back to it, as a word and in the opcode table's numbering, and has RSV = 0 (spec 30_encoding.md R90, R91). -/

namespace Sys2Proof.Laws.EncodingRoundTrip

/-- What holds of every command's encoding. -/
def Statement (i : Instr) : Prop :=
  i.wf = true ∧ decode (encode i) = .ok i ∧ decodeTableWord 32 (encode i).toNat = some i ∧ rsvField (encode i) = 0#24 ∧
    opcField (encode i) = i.opcode

theorem modpow : Statement .modpow := by unfold Statement; decide
theorem xgcd : Statement .xgcd := by unfold Statement; decide
theorem modinv : Statement .modinv := by unfold Statement; decide
theorem mrtest : Statement .mrtest := by unfold Statement; decide
theorem tdiv : Statement .tdiv := by unfold Statement; decide
theorem resume : Statement .resume := by unfold Statement; decide

end Sys2Proof.Laws.EncodingRoundTrip
end

