-- ==== Sys2Proof/Laws/Recommended.lean ====
section
/-! SUPPORT. The recommended machine (spec 10_state.md R22; 93_implementation_defined.md U2 to U4): which statement of the host a step
performs, and what a step of `stepRecommended` can do. -/

namespace Sys2Proof.Machine

/-- A step whose host statement is `st` performs it. -/
theorem step_of_nextStmt {s : State} {st : HostStmt} (h : s.nextStmt = some st) :
    step s = perform st { s with turns := s.turns.tail, script := s.script.tail } := by
  unfold State.nextStmt at h
  split at h
  · rename_i ht
    cases hs : s.script <;> simp_all [step, hostTurn]
  · cases h
  · cases h
  · rename_i ht
    split at h
    · cases h
    · rename_i hb
      cases hs : s.script <;> simp_all [step, hostTurn]

/-- A step without a host statement: a micro-step, a turn of a host that has nothing left to do, or a reset. -/
theorem step_of_no_nextStmt {s s' : State} (h : s.nextStmt = none) (hs : step s = .next s') :
    s' = microStep { s with turns := s.turns.tail } ∨ s' = { s with turns := s.turns.tail } ∨
      s' = applyReset { s with turns := s.turns.tail } := by
  unfold State.nextStmt at h
  unfold step hostTurn at hs
  split at h <;> rename_i ht <;> rw [ht] at hs ⊢
  · have hsc : s.script = [] := List.head?_eq_none_iff.1 h
    simp only [hsc, Host.Outcome.next.injEq] at hs
    exact .inr (.inl (by rw [← hs]; simp [hsc]))
  · cases hs; exact .inl rfl
  · cases hs; exact .inr (.inr rfl)
  · split at h
    · rename_i hb
      simp only [hb, if_true, Host.Outcome.next.injEq] at hs
      refine .inl (hs.symm.trans ?_)
      rw [show ({ s with turns := [].tail } : State) = s by rw [List.tail_nil, ← ht]]
    · rename_i hb
      have hsc : s.script = [] := List.head?_eq_none_iff.1 h
      simp only [hb, if_false, hsc, Host.Outcome.next.injEq] at hs
      exact .inr (.inl (by rw [← hs, List.tail_nil, ← ht]))

/-- Where the recommended machine steps it is `step`, and the statement it performs is admitted. -/
theorem stepRecommended_next {s s' : State} (h : stepRecommended s = .next s') :
    step s = .next s' ∧ ∀ st, s.nextStmt = some st → s.admits st = true := by
  unfold stepRecommended at h
  split at h
  · rename_i st hst
    split at h
    · exact ⟨h, fun st' h' => by rw [hst] at h'; cases h'; assumption⟩
    · cases h
  · rename_i hst
    exact ⟨h, fun st' h' => by rw [hst] at h'; cases h'⟩

/-- A command write that the recommended reading admits finds every operand (R22, U2). -/
theorem admits_operands {s : State} {w : Word} {i : Instr} (h : s.admits (.memWrite s.cfg.base 4 w) = true)
    (hd : decode w = .ok i) : ∀ n ∈ readsOf i, (s.reg n).value.isSome = true := by
  simp only [State.admits, Nat.sub_self, Bool.and_eq_true] at h
  have h := h.2
  simp only [Config.target, if_true, State.admitsCmd, hd, Bool.and_eq_true, List.all_eq_true] at h
  exact h.2

end Sys2Proof.Machine
end

