-- ==== Sys2Proof/Tests/Slice0.lean ====
section
/-! SUPPORT. The model's own tests: decoding of words written out from the spec, the WellFormed smoke, single steps against the
trace tables of spec/95_test_vectors.md, and for every statement with hypotheses a concrete state that meets them. -/

namespace Sys2Proof.Tests

open Sys2Proof.Machine

/-! ### Small states -/

/-- IDLE, with A, B and M written. -/
def loaded (a b m : Int) : State := { State.reset with a := .ofInt a, b := .ofInt b, m := .ofInt m }

/-- A command runs and stands before phase `ph`. -/
def running (i : Instr) (ph : Phase) (a b m : Int) : State :=
  { loaded a b m with state := .busy, op := i.opcode, ph := ph }

/-- WAIT_RNG: an MRTEST of `a` with A - 1 = d * 2^s asks for a witness, `t` trials to run, and W holds `w`. -/
def waiting (a d s t w : Int) : State :=
  { running .mrtest .mrWait a 0 0 with
    w := .ofInt w
    state := .waitRng
    request := true
    mr := { d := d, s := s, t := t, x := 0, j := 0, kd := 0, verd := false } }

/-- A machine with NLIMBS = 2 and BASE = 0, as in V-PORT. -/
def twoLimbs : State := State.resetWith ⟨some 2, 0⟩

/-- The host writes `w` to byte address `addr`. -/
def afterWrite (addr : Nat) (w : Word) (s : State) : Host.Outcome State Fault Refusal := perform (.memWrite addr 4 w) s

/-- A field of the state a step answers. -/
def field (o : Host.Outcome State Fault Refusal) {α : Type} (f : State → α) : Option α :=
  match o with
  | .next s => some (f s)
  | .fault _ => none
  | .refused _ => none

/-! ### Decoding (R90, R91, R93; EN2 to EN5) -/

theorem test_decode_modpow : decode 0b00000000000000000000000000000001#32 = .ok .modpow := by decide
theorem test_decode_xgcd : decode 0b00000000000000000000000000000010#32 = .ok .xgcd := by decide
theorem test_decode_modinv : decode 0b00000000000000000000000000000011#32 = .ok .modinv := by decide
theorem test_decode_mrtest : decode 0b00000000000000000000000000000100#32 = .ok .mrtest := by decide
theorem test_decode_tdiv : decode 0b00000000000000000000000000000101#32 = .ok .tdiv := by decide
theorem test_decode_resume : decode 0b00000000000000000000000000000110#32 = .ok .resume := by decide
theorem test_decode_zero_illegal : decode 0x00000000#32 = .error .noSuchOpcode := by decide
theorem test_decode_seven_illegal : decode 0x00000007#32 = .error .noSuchOpcode := by decide
theorem test_decode_reserved_bit8 : decode 0x00000101#32 = .error .reservedBits := by decide
theorem test_decode_reserved_bit31 : decode 0x80000001#32 = .error .reservedBits := by decide
theorem test_decodeTableWord : decodeTableWord 32 5 = some .tdiv ∧ decodeTableWord 32 7 = none := by decide

/-! ### The WellFormed smoke: an ill-formed term for each check -/

theorem smoke_access_size : HostStmt.wf ⟨some 2, 0⟩ (.memRead 0x004 2) = false := by decide
theorem smoke_access_misaligned : HostStmt.wf ⟨some 2, 0⟩ (.memWrite 0x006 4 0#32) = false := by decide
theorem smoke_access_below_base : HostStmt.wf ⟨some 2, 4⟩ (.memRead 0x00C 4) = false := by decide
theorem smoke_access_reserved_offset : HostStmt.wf ⟨some 2, 0⟩ (.memWrite 0x00C 4 0#32) = false := by decide
theorem smoke_access_past_the_block : HostStmt.wf ⟨some 2, 0⟩ (.memRead 0x064 4) = false := by decide
theorem smoke_access_no_word_map : HostStmt.wf ⟨none, 0⟩ (.memRead 0x010 4) = false := by decide
theorem smoke_write_result_register : HostStmt.wf ⟨some 2, 0⟩ (.writeInt .r0 1) = false := by decide
theorem smoke_write_too_wide : HostStmt.wf ⟨some 2, 0⟩ (.writeInt .a 0x10000000200000003) = false := by decide
theorem smoke_last_cell_is_fine : HostStmt.wf ⟨some 2, 0⟩ (.memWrite 0x060 4 0#32) = true := by decide
theorem smoke_every_command : ∀ i : Instr, i.wf = true := by intro i; cases i <;> decide

/-! ### The step -/

theorem test_withFetchWord_runs : ∀ i : Instr, step (State.reset.withFetchWord 32 (encode i).toNat) = exec i State.reset := by
  intro i; cases i <;> rfl
theorem test_reset_status : State.reset.status = 0x00#32 ∧ State.reset.trials = 20#32 := by decide
theorem test_default_turn_is_the_engine : step (running .modpow .mpCheck 4 13 497) = .next (mpCheck (running .modpow .mpCheck 4 13 497)) := by
  rfl
theorem test_rst_turn : field (step { running .tdiv .tdLoop 97 0 0 with turns := [.rst] }) (fun s => (s.state, s.ph, s.a.value)) =
    some (.idle, .idle, none) := by decide

/-! ### Commands, one step each (traces and tables of 95_test_vectors.md) -/

theorem test_modpow_accept : field (exec .modpow (loaded 4 13 497)) (fun s => (s.state, s.ph, s.status)) =
    some (.busy, .mpCheck, 0x01#32) := by decide
theorem test_modpow_init : (microStep (running .modpow .mpInit 4 13 497)).mexp = ⟨1, 4, 13, 497⟩ := by decide
theorem test_modpow_pass1 : (MexpRegs.pass ⟨1, 4, 13, 497⟩) = ⟨4, 16, 6, 497⟩ := by decide
theorem test_modpow_pass3 : (MexpRegs.pass ⟨4, 256, 3, 497⟩) = ⟨30, 429, 1, 497⟩ := by decide
theorem test_modpow_mod_one : (microStep (running .modpow .mpInit 5 0 1)).mexp.acc = 0 := by decide
theorem test_modpow_zero_modulus : (microStep (running .modpow .mpCheck 2 10 0)).status = 0x13#32 := by decide
theorem test_modpow_negative_base : (microStep (running .modpow .mpCheck (-2) 3 5)).status = 0x13#32 := by decide
theorem test_xgcd_pass1 : XgcdRegs.pass ⟨240, 46, 1, 0, 0, 1, 0, 0⟩ = ⟨46, 10, 0, 1, 1, -5, 5, 0⟩ := by decide
theorem test_xgcd_pass5 : XgcdRegs.pass ⟨4, 2, 5, -9, -26, 47, 1, 0⟩ = ⟨2, 0, -9, 23, 47, -120, 2, 0⟩ := by decide
theorem test_xgcd_negative : (microStep (running .xgcd .xgCheck 5 (-1) 0)).status = 0x13#32 := by decide
theorem test_xgcd_fin : (fun s : State => (s.r0.value, s.r1.value, s.r2.value, s.status))
    (xgFin { running .xgcd .xgFin 240 46 0 with xg := ⟨2, 0, -9, 23, 47, -120, 2, 0⟩ }) =
      (some 2, some (-9), some 47, 0x03#32) := by decide
theorem test_modinv_one_addition : addWhileNegative 367 (-367) 3120 = 2753 := by decide
theorem test_modinv_norm : (miNorm { running .modinv .miNorm 17 0 3120 with xg := ⟨1, 0, -367, 3120, 2, -17, 8, 0⟩ }).xg.inv = 2753 := by
  decide
theorem test_modinv_no_inverse : (microStep { running .modinv .miFin 6 0 3120 with xg := ⟨6, 0, 1, 0, 0, 1, 0, 0⟩ }).status = 0x03#32 := by
  decide
theorem test_modinv_bad_modulus : (microStep (running .modinv .miCheck 4 0 0)).status = 0x13#32 := by decide
theorem test_mrtest_two : (microStep (running .mrtest .mrSpecial 2 0 0)).mr.verd = true := by decide
theorem test_mrtest_negative : (mrSpecial (running .mrtest .mrSpecial (-7) 0 0)).mr.verd = false := by decide
theorem test_mrtest_request : (fun s : State => (s.status, s.ph, s.request))
    (mrTrial { running .mrtest .mrTrial 13 0 0 with mr := ⟨3, 2, 3, 0, 0, 0, false⟩ }) = (0x02#32, .mrWait, true) := by decide
theorem test_mrtest_no_squaring : (mrSq { running .mrtest .mrSq 15 0 0 with mr := ⟨7, 1, 1, 4, 0, 0, true⟩ }).ph = .mrFin := by decide
theorem test_mrtest_becomes_one : (fun s : State => (s.ph, s.mr.verd))
    (mrSq { running .mrtest .mrSq 65 0 0 with mr := ⟨1, 6, 1, 14, 0, 0, true⟩ }) = (.mrFin, false) := by decide
theorem test_mrtest_becomes_minus_one : (fun s : State => (s.ph, s.mr.t, s.mr.x))
    (mrSq { running .mrtest .mrSq 25 0 0 with mr := ⟨3, 3, 1, 18, 0, 0, false⟩ }) = (.mrTrial, 0, 24) := by decide
theorem test_resume_in_range : field (exec .resume (waiting 13 3 2 2 11)) (fun s => (s.status, s.ph, s.ret)) =
    some (0x01#32, .mpInit, .mrFirst) := by decide
theorem test_resume_out_of_range : field (exec .resume (waiting 13 3 2 2 12)) (fun s => (s.status, s.history)) =
    some (0x33#32, [.rngRange]) := by decide
theorem test_tdiv_below_two : (microStep (running .tdiv .tdCheck 1 0 0)).mr.verd = false := by decide
theorem test_tdiv_square_of_two : (fun s : State => (s.ph, s.mr.verd))
    (tdLoop { running .tdiv .tdLoop 4 0 0 with mr := ⟨0, 0, 0, 0, 0, 2, true⟩ }) = (.tdFin, false) := by decide

/-! ### CMD in and out of turn (V-ENC) -/

theorem test_illegal_word : field (afterWrite 0 0x00000101#32 State.reset) State.status = some 0x23#32 := by decide
theorem test_resume_dropped : exec .resume (loaded 1 2 3) = .next (loaded 1 2 3) := by rfl
theorem test_modpow_dropped_in_wait : exec .modpow (waiting 13 3 2 2 11) = .next (waiting 13 3 2 2 11) := by rfl
theorem test_operand_write_dropped_in_wait : field (perform (.writeInt .a 99) (waiting 13 3 2 2 11)) (fun s => s.a.value) =
    some (some 13) := by decide

/-! ### The port (V-PORT, NLIMBS = 2, BASE = 0) -/

theorem test_map_first_cell : twoLimbs.cfg.target 0x010 = .cell .a 0 := by decide
theorem test_map_last_cell : twoLimbs.cfg.target 0x060 = .cell .w 2 := by decide
theorem test_map_r1_limb0 : twoLimbs.cfg.target 0x044 = .cell .r1 1 := by decide
theorem test_map_end : twoLimbs.cfg.target 0x064 = .unmapped := by decide
theorem test_cells_of_minus_367 : ((BigReg.ofInt (-367)).readCell 0, (BigReg.ofInt (-367)).readCell 1,
    (BigReg.ofInt (-367)).readCell 2) = (some 1#32, some 0x0000016F#32, some 0#32) := by decide
theorem test_cells_of_two_limbs : ((BigReg.ofInt 0x0123456789ABCDEF).readCell 1, (BigReg.ofInt 0x0123456789ABCDEF).readCell 2) =
    (some 0x89ABCDEF#32, some 0x01234567#32) := by decide
theorem test_last_word_gives_the_value : field (afterWrite 0x018 0#32
    { twoLimbs with a := ⟨false, 4, [2]⟩ }) (fun s => s.a.value) = some (some 4) := by decide
theorem test_first_word_gives_none : field (afterWrite 0x014 4#32 twoLimbs) (fun s => s.a) = some ⟨false, 4, [0, 2]⟩ := by decide
theorem test_negative_zero : (⟨true, 0, []⟩ : BigReg).value = some 0 := by decide
theorem test_below_base : perform (.memRead 0 4) (State.resetWith ⟨some 2, 1⟩) = .fault (.belowRegisterBlock 0) := by rfl

/-! ### Host computation (V-HOST) -/

theorem test_encode_hello : encodeText 5 256 [72, 69, 76, 76, 79] = .ok [340582483272] := by decide
theorem test_encode_pads : encodeText 2 256 [72, 69, 76, 76, 79] = .ok [17736, 19532, 79] := by decide
theorem test_decode_pads : decodeText 2 256 [17736, 19532, 79] = [72, 69, 76, 76, 79] := by decide
theorem test_encode_empty : encodeText 20 256 [] = .ok [] := by decide
theorem test_encode_invalid : encodeText 2 256 [72, 300] = .error .invalidUnit := by decide
theorem test_embedded_sentinel_lost : decodeText 3 256 [72 + 0 * 256 + 73 * 65536] = [72, 73] := by decide

/-! ### Witnesses: each shows a state and operands that meet the hypotheses of the statement it is named after -/

/-- The invariant holds of a state between commands. -/
theorem loaded_inv (a b m : Int) : Inv (loaded a b m) where
  regs := ⟨by rfl, fun n => by cases n <;> first | (simp [State.reg, loaded, BigReg.wf, BigReg.ofInt, State.reset, State.resetWith]; done) | rfl⟩
  control := by constructor <;> simp [loaded, State.reset, State.resetWith, latchesFit]
  phase := by simp [PhaseInv, loaded, State.reset, State.resetWith]

/-- The invariant holds of an MRTEST that waits for a witness. -/
theorem waiting_inv {a d s t : Int} (w : Int) (ha : 5 ≤ a) (ho : a % 2 = 1) (hd : 1 ≤ d) (hdo : d % 2 = 1) (hs : 1 ≤ s)
    (he : d * 2 ^ s.toNat = a - 1) (ht : 1 ≤ t) : Inv (waiting a d s t w) where
  regs := ⟨by rfl, fun n => by
    cases n <;> first
      | (simp [State.reg, waiting, running, loaded, BigReg.wf, BigReg.ofInt, State.reset, State.resetWith]; done)
      | exact (loaded_inv 0 0 0).regs.regs_wf .r0⟩
  control := by
    constructor <;> simp [waiting, running, loaded, State.reset, State.resetWith, latchesFit]
  phase := by
    have hop : (waiting a d s t w).operand .a = a := by
      simp only [State.operand, State.reg, waiting, running, loaded, BigReg.value, BigReg.ofInt, BigReg.int, if_true]
      by_cases h : a < 0 <;> simp [h] <;> omega
    exact ⟨⟨by rw [hop]; exact ha, by rw [hop]; exact ho, hd, hdo, hs, by rw [hop]; exact he⟩, ht⟩

theorem witness_DecodeEncodeAgree : decode 0x00000002#32 = .ok .xgcd := by decide
theorem witness_IllegalWordFaultsOrIsDropped :
    (decode 0x00000100#32 = .error .reservedBits ∧ decode 0x00000007#32 = .error .noSuchOpcode) ∧
      (loaded 1 2 3).state = .idle ∧ (running .tdiv .tdLoop 9 0 0).state = .busy ∧ (waiting 13 3 2 1 2).state = .waitRng := by decide
theorem witness_CmdWriteFollowsTheTable :
    decode 0x00000005#32 = .ok .tdiv ∧ Instr.tdiv ≠ .resume ∧ decode 0x00000006#32 = .ok .resume ∧
      decode 0x00000000#32 = .error .noSuchOpcode ∧ (loaded 1 2 3).state = .idle ∧
      (running .tdiv .tdLoop 9 0 0).state = .busy ∧ (waiting 13 3 2 1 2).state = .waitRng := by decide
theorem witness_CommandIsAccepted : Instr.mrtest ≠ .resume ∧ (loaded 13 0 0).state = .idle := by decide
theorem witness_CommandOutOfTurnIsDropped : (running .tdiv .tdLoop 9 0 0).state = .busy ∧
    ((waiting 13 3 2 1 2).state = .waitRng ∧ Instr.tdiv ≠ .resume) ∧ (loaded 13 0 0).state = .idle := by decide
theorem witness_ResumeDeliversWitness_least : (waiting 13 3 2 1 2).state = .waitRng ∧ 2 ≤ (waiting 13 3 2 1 2).operand .w ∧
    (waiting 13 3 2 1 2).operand .w ≤ (waiting 13 3 2 1 2).operand .a - 2 := by decide
theorem witness_ResumeDeliversWitness_greatest : 2 ≤ (waiting 13 3 2 1 11).operand .w ∧
    (waiting 13 3 2 1 11).operand .w ≤ (waiting 13 3 2 1 11).operand .a - 2 := by decide
theorem witness_ResumeOutOfRangeFaults : (waiting 13 3 2 1 1).state = .waitRng ∧ (waiting 13 3 2 1 1).operand .w < 2 ∧
    (waiting 13 3 2 1 12).operand .w > (waiting 13 3 2 1 12).operand .a - 2 := by decide
theorem witness_StepRunsDecodedCommand : (3 : Nat) < 2 ^ 32 ∧ decode (BitVec.ofNat 32 3) = .ok .modinv ∧
    (State.reset.withFetchWord 32 3).script = [.memWrite State.reset.cfg.base 4 3#32] ∧
    (State.reset.withFetchWord 32 3).turns = [.host] ∧ (loaded 17 0 3120).turns = [] ∧ (loaded 17 0 3120).state ≠ .busy := by decide
theorem witness_StepTakesTheTurn : ({ loaded 1 2 3 with turns := [.engine] } : State).turns = [.engine] ∧
    (running .tdiv .tdLoop 9 0 0).turns = [] ∧ (running .tdiv .tdLoop 9 0 0).state = .busy ∧
    ({ loaded 1 2 3 with turns := [.host], script := [.poll] } : State).script = [.poll] ∧
    ({ loaded 1 2 3 with turns := [.host] } : State).script = [] ∧
    ({ loaded 1 2 3 with script := [.poll] } : State).turns = [] ∧
    (loaded 1 2 3).script = [] ∧ (loaded 1 2 3).state ≠ .busy := by decide
theorem witness_ModpowComputesThePower : (loaded 4 13 497).state = .idle ∧ 0 < (loaded 4 13 497).operand .m ∧
    0 ≤ (loaded 4 13 497).operand .b ∧ 0 ≤ (loaded 4 13 497).operand .a := by decide
theorem witness_ModpowComputesThePower_boundary : 0 < (loaded 0 0 1).operand .m ∧ 0 ≤ (loaded 0 0 1).operand .b ∧
    0 ≤ (loaded 0 0 1).operand .a ∧ (loaded 2 10 0).operand .m ≤ 0 ∧ (loaded 2 (-1) 5).operand .b < 0 ∧
    (loaded (-1) 3 5).operand .a < 0 := by decide
theorem witness_XgcdComputesGcdAndBezoutPair : (loaded 240 46 0).state = .idle ∧ 0 ≤ (loaded 240 46 0).operand .a ∧
    0 ≤ (loaded 0 0 0).operand .b ∧ (loaded 5 (-1) 0).operand .b < 0 := by decide
theorem witness_XgcdResultsAreBounded : (loaded 0 7 0).state = .idle ∧ 0 ≤ (loaded 0 7 0).operand .a ∧
    0 ≤ (loaded 0 7 0).operand .b := by decide
theorem witness_ModinvComputesTheInverse : (loaded 17 0 3120).state = .idle ∧ 0 ≤ (loaded 17 0 3120).operand .a ∧
    0 < (loaded 17 0 3120).operand .m ∧ Int.gcd ((loaded 17 0 3120).operand .a) ((loaded 17 0 3120).operand .m) = 1 ∧
    (loaded 4 0 0).operand .m ≤ 0 := by decide
theorem witness_TdivDecidesPrimality : (loaded 97 0 0).state = .idle := by decide
theorem witness_MrtestSpecialCases : (loaded 2 0 0).operand .a = 2 ∧ (loaded 3 0 0).operand .a = 3 ∧
    (loaded 1 0 0).operand .a < 2 ∧ (loaded 4 0 0).operand .a % 2 = 0 ∧ (loaded 4 0 0).state = .idle := by decide
theorem witness_MrtestDecomposesAndAsks : (loaded 5 0 0).state = .idle ∧ 5 ≤ (loaded 5 0 0).operand .a ∧
    (loaded 5 0 0).operand .a % 2 = 1 := by decide

/-- 2 is accepted as a witness for 13 (MR1), with 12 = 3 * 2^2. -/
theorem accepted_13_2 : WitnessAccepted 13 2 := ⟨3, 2, by decide, by decide, .inr ⟨1, by decide, by decide⟩⟩

/-- 2 is rejected as a witness for 9 (MR4). -/
theorem rejected_9_2 : ¬ WitnessAccepted 9 2 := by
  rintro ⟨d, s, hd, hs, h⟩
  have hs : d * 2 ^ s = 8 := by
    have h9 : ((d * 2 ^ s : Nat) : Int) = 8 := by push_cast; rw [hs]; norm_num
    exact_mod_cast h9
  have hd1 : d = 1 := by
    have h1 : d ∣ 8 := ⟨2 ^ s, hs.symm⟩
    have h2 := Nat.le_of_dvd (by decide) h1
    interval_cases d <;> first | rfl | omega
  subst hd1
  have h3 : s = 3 := by
    have h4 : s < 4 := by
      by_contra hn
      have := Nat.pow_le_pow_right (show 0 < 2 by decide) (show 4 ≤ s by omega)
      omega
    interval_cases s <;> omega
  subst h3
  rcases h with h | ⟨r, hr, h⟩
  · revert h; decide
  · interval_cases r <;> revert h <;> decide

theorem witness_TrialFollowsMillerRabin : Inv (waiting 13 3 2 1 2) ∧ (waiting 13 3 2 1 2).state = .waitRng ∧
    2 ≤ (waiting 13 3 2 1 2).operand .w ∧ (waiting 13 3 2 1 2).operand .w ≤ (waiting 13 3 2 1 2).operand .a - 2 ∧
    WitnessAccepted 13 2 ∧ (waiting 13 3 2 1 2).mr.t = 1 ∧ 1 < (waiting 13 3 2 2 2).mr.t :=
  ⟨waiting_inv 2 (by decide) (by decide) (by decide) (by decide) (by decide) (by decide) (by decide), by decide, by decide,
    by decide, accepted_13_2, by decide, by decide⟩
theorem witness_TrialFollowsMillerRabin_rejected : Inv (waiting 9 1 3 1 2) ∧
    2 ≤ (waiting 9 1 3 1 2).operand .w ∧ (waiting 9 1 3 1 2).operand .w ≤ (waiting 9 1 3 1 2).operand .a - 2 ∧
    ¬ WitnessAccepted 9 2 :=
  ⟨waiting_inv 2 (by decide) (by decide) (by decide) (by decide) (by decide) (by decide) (by decide), by decide, by decide,
    rejected_9_2⟩
theorem witness_MrtestVerdictAndRequests : Inv (loaded 13 0 0) ∧ (loaded 13 0 0).state = .idle ∧
    (∃ s₁, exec .mrtest (loaded 13 0 0) = .next s₁) ∧ 5 ≤ (loaded 13 0 0).operand .a ∧ (loaded 13 0 0).operand .a % 2 = 1 ∧
    (List.replicate 20 (2 : Int)).length = (loaded 13 0 0).trials.toNat ∧
    ∀ r ∈ List.replicate 20 (2 : Int), (loaded 13 0 0).cfg.fits r = true ∧ 2 ≤ r ∧ r ≤ (loaded 13 0 0).operand .a - 2 ∧
      WitnessAccepted ((loaded 13 0 0).operand .a) r :=
  ⟨loaded_inv 13 0 0, by decide, ⟨_, rfl⟩, by decide, by decide, by decide, fun r hr => by
    rw [List.eq_of_mem_replicate hr]; exact ⟨by decide, by decide, by decide, accepted_13_2⟩⟩
theorem witness_MrtestVerdictAndRequests_rejected : Inv (loaded 9 0 0) ∧ 5 ≤ (loaded 9 0 0).operand .a ∧
    (loaded 9 0 0).operand .a % 2 = 1 ∧ ([] : List Int).length < (loaded 9 0 0).trials.toNat ∧
    (loaded 9 0 0).cfg.fits 2 = true ∧ (2 : Int) ≤ (loaded 9 0 0).operand .a - 2 ∧ ¬ WitnessAccepted 9 2 :=
  ⟨loaded_inv 9 0 0, by decide, by decide, by decide, by decide, by decide, rejected_9_2⟩
theorem witness_PrimePassesEveryWitness : Inv (loaded 5 0 0) ∧ (∃ s₁, exec .mrtest (loaded 5 0 0) = .next s₁) ∧
    5 ≤ (loaded 5 0 0).operand .a ∧ Nat.Prime ((loaded 5 0 0).operand .a).toNat ∧
    (List.replicate 20 (3 : Int)).length = (loaded 5 0 0).trials.toNat ∧
    ∀ r ∈ List.replicate 20 (3 : Int), (loaded 5 0 0).cfg.fits r = true ∧ 2 ≤ r ∧ r ≤ (loaded 5 0 0).operand .a - 2 :=
  ⟨loaded_inv 5 0 0, ⟨_, rfl⟩, by decide, (by norm_num : Nat.Prime 5), by decide, by decide⟩
theorem witness_ResetMeetsTheInvariant : Config.wf ⟨some 1, 3⟩ = true := by decide
theorem witness_StepKeepsControl : ControlInv (loaded 4 13 497) ∧
    ∃ s', step ((loaded 4 13 497).withFetchWord 32 1) = .next s' ∧ s'.state = .busy :=
  ⟨(loaded_inv 4 13 497).control, _, rfl, rfl⟩
theorem witness_StepKeepsTheIterations : ControlInv (waiting 13 3 2 1 2) ∧ PhaseInv (waiting 13 3 2 1 2) ∧
    ∃ s', step { waiting 13 3 2 1 2 with turns := [.engine] } = .next s' :=
  ⟨(waiting_inv 2 (by decide) (by decide) (by decide) (by decide) (by decide) (by decide) (by decide)).control,
    (waiting_inv 2 (by decide) (by decide) (by decide) (by decide) (by decide) (by decide) (by decide)).phase, _, rfl⟩
theorem witness_StepKeepsRegistersInRange : Inv (loaded 4 13 497) ∧ ∃ s', step (loaded 4 13 497) = .next s' :=
  ⟨loaded_inv 4 13 497, _, rfl⟩
theorem witness_StateTransitions : ControlInv (loaded 4 13 497) ∧ (loaded 4 13 497).turns.head? ≠ some .rst ∧
    ∃ s', step { loaded 4 13 497 with script := [.memWrite 0 4 1#32] } = .next s' ∧ s'.state ≠ (loaded 4 13 497).state :=
  ⟨(loaded_inv 4 13 497).control, by decide, _, rfl, by decide⟩
theorem witness_StateTransitions_rngRange :
    ∃ s', step { waiting 13 3 2 1 12 with script := [.memWrite 0 4 6#32] } = .next s' ∧ s'.state = .done ∧ s'.err = .rngRange :=
  ⟨_, rfl, by decide, by decide⟩
theorem witness_StateTransitions_reset : ({ loaded 4 13 497 with turns := [.rst] } : State).turns.head? = some .rst := by decide
theorem witness_CommandsKeepTheOperands : ∃ s', exec .xgcd (loaded 240 46 0) = .next s' ∧ s'.state = .busy := ⟨_, rfl, rfl⟩
theorem witness_ResultsComeWithDone : (microStep (running .modpow .mpLoop 4 13 497)).state ≠ .done := by decide
theorem witness_FaultEntryIsAtomic : ∃ s', step (State.reset.withFetchWord 32 0) = .next s' ∧ s'.history ≠ State.reset.history :=
  ⟨_, rfl, by decide⟩
theorem witness_EngineLeavesBusyAndTrialsProgress : Inv (waiting 13 3 2 1 2) ∧ (waiting 13 3 2 1 2).state = .waitRng ∧
    ∃ s₁, exec .resume (waiting 13 3 2 1 2) = .next s₁ :=
  ⟨waiting_inv 2 (by decide) (by decide) (by decide) (by decide) (by decide) (by decide) (by decide), by decide, _, rfl⟩
theorem witness_AnsweredCommandsReachDone : Inv (loaded 9 0 0) ∧ (loaded 9 0 0).state = .idle ∧ Instr.mrtest ≠ .resume ∧
    (∃ s₁, exec .mrtest (loaded 9 0 0) = .next s₁) ∧ ∀ j : Nat, (loaded 9 0 0).cfg.fits ((j : Int) + 2) = true :=
  ⟨loaded_inv 9 0 0, rfl, by decide, ⟨_, rfl⟩, fun _ => rfl⟩
theorem witness_OnlyResumeLeavesWaitRng : ControlInv (waiting 13 3 2 1 2) ∧ (waiting 13 3 2 1 2).state = .waitRng ∧
    Instr.tdiv ≠ .resume ∧
    ∃ s', perform (.memWrite 0 4 6#32) (waiting 13 3 2 1 2) = .next s' ∧ s'.state ≠ .waitRng :=
  ⟨(waiting_inv 2 (by decide) (by decide) (by decide) (by decide) (by decide) (by decide) (by decide)).control, by decide,
    by decide, _, rfl, by decide⟩
theorem witness_WorkingRegistersAreUnobservable : ControlInv (loaded 4 13 497) ∧ (loaded 4 13 497).state = .idle ∧
    (loaded 4 13 497).withoutWorking = ({ loaded 4 13 497 with op := 5#8, mexp := ⟨1, 2, 3, 4⟩ } : State).withoutWorking :=
  ⟨(loaded_inv 4 13 497).control, rfl, rfl⟩
theorem witness_ResetAbandonsEverything : ({ running .tdiv .tdLoop 97 0 0 with turns := [.rst] } : State).turns = [.rst] := by decide
theorem witness_RegisterMapLayout : twoLimbs.cfg.nlimbs = some 2 ∧ 2 ≤ 2 ∧ 0x010 + 7 * (4 * (2 + 1)) ≤ 0x064 ∧
    0x044 % 4 = 0 ∧ twoLimbs.cfg.target 0x044 = .cell .r1 1 := by decide
theorem witness_RegisterMapLayout_unbounded : State.reset.cfg.nlimbs = none ∧ 0x010 ≤ 0x010 := by decide
theorem witness_RegisterValueFromCells : twoLimbs.cfg.nlimbs = some 2 ∧ (BigReg.ofInt (-9)).wf twoLimbs.cfg = true ∧
    (BigReg.ofInt (-9)).unwritten = [] ∧ (⟨false, 4, [2]⟩ : BigReg).wf twoLimbs.cfg = true ∧
    (⟨false, 4, [2]⟩ : BigReg).unwritten ≠ [] ∧ 0 ∉ (⟨false, 4, [2]⟩ : BigReg).unwritten ∧
    0 + 1 ∉ (⟨false, 4, [2]⟩ : BigReg).unwritten := by decide
theorem witness_CellReadAfterWrite : (0 : Nat) ≠ 1 := by decide
theorem witness_WordWritesStoreTheInteger : twoLimbs.cfg.nlimbs = some 2 ∧ RegsInv twoLimbs ∧
    twoLimbs.cfg.fits (-367) = true ∧ hostMayWrite .a twoLimbs.state = true ∧ [2, 0, 1].Perm (List.range (2 + 1)) :=
  ⟨by decide, ⟨by decide, fun n => by cases n <;> decide⟩, by decide, by decide, by decide⟩
theorem witness_StoredCellsOfAnInteger :
    (microStep (running .modpow .mpFin 4 13 497)).reg .r0 ≠ (running .modpow .mpFin 4 13 497).reg .r0 ∧
      ((microStep (running .modpow .mpFin 4 13 497)).reg .r0).mag = 0 ∧
      exec .tdiv { loaded 1 2 3 with r0 := .ofInt 5 } = .next (acceptCommand 5#8 .tdCheck { loaded 1 2 3 with r0 := .ofInt 5 }) ∧
      (acceptCommand 5#8 .tdCheck { loaded 1 2 3 with r0 := .ofInt 5 }).reg .r0 ≠ .ofInt 5 :=
  ⟨by decide, by decide, rfl, by decide⟩
theorem witness_WriteAccessTable : twoLimbs.cfg.nlimbs = some 2 ∧ 0x064 % 4 = 0 ∧ 0x010 + 7 * (4 * (2 + 1)) ≤ 0x064 ∧
    twoLimbs.cfg.fits (2 ^ 64 - 1) = true ∧ State.reset.cfg.fits (2 ^ 64) = true ∧ twoLimbs.state = .idle ∧
    (waiting 13 3 2 1 2).state = .waitRng := by decide

/-- DONE after a command whose result 445 is in R0, with NLIMBS = 2; A is partly written. -/
def doneTwoLimbs : State := { twoLimbs with state := .done, r0 := .ofInt 445, a := ⟨false, 4, [2]⟩ }

theorem witness_ReadAccessTable_current : doneTwoLimbs.state = .done ∧ doneTwoLimbs.err = .none ∧
    (doneTwoLimbs.reg .r0).value = some 445 ∧ 2 ∉ (doneTwoLimbs.reg .r0).unwritten ∧
    (waiting 13 3 2 1 2).state = .waitRng ∧ ((waiting 13 3 2 1 2).reg .w).value = some 2 := by decide
theorem witness_ReadAccessTable_free : doneTwoLimbs.cfg.nlimbs = some 2 ∧ (doneTwoLimbs.reg .r1).value = none ∧
    2 ∈ (doneTwoLimbs.reg .a).unwritten ∧ 1 ∉ (doneTwoLimbs.reg .a).unwritten ∧ doneTwoLimbs.state ≠ .waitRng ∧
    0x010 + 7 * (4 * (2 + 1)) ≤ 0x064 ∧ 0x064 % 4 = 0 := by decide
theorem witness_BusyDropsEveryWrite : (running .tdiv .tdLoop 97 0 0).state = .busy ∧
    (∃ s', perform (.memWrite 0 4 1#32) (running .tdiv .tdLoop 97 0 0) = .next s') ∧
    ∃ s', perform (.writeInt .a 5) (running .tdiv .tdLoop 97 0 0) = .next s' :=
  ⟨rfl, ⟨_, rfl⟩, ⟨_, rfl⟩⟩
theorem witness_ReadsHaveNoSideEffect : (∃ s', perform (.memRead 0x044 4) twoLimbs = .next s') ∧
    (∃ s', perform (.readInt .a) (loaded 1 2 3) = .next s') ∧ ∃ s', perform .poll (running .tdiv .tdLoop 97 0 0) = .next s' :=
  ⟨⟨_, rfl⟩, ⟨_, rfl⟩, ⟨_, rfl⟩⟩
theorem witness_ResultReads : ({ loaded 4 13 497 with state := .done, r0 := .ofInt 445 } : State).state = .done ∧
    ({ loaded 4 13 497 with state := .done, r0 := .ofInt 445 } : State).err = .none ∧
    (({ loaded 4 13 497 with state := .done, r0 := .ofInt 445 } : State).reg .r0).value = some 445 ∧
    (({ loaded 4 13 497 with state := .done, r0 := .ofInt 445 } : State).reg .r1).value = none := by decide
theorem witness_PortRefusesWhatItCannotForm : (2 : Nat) ≠ 4 ∧ (0x006 : Nat) % 4 ≠ 0 ∧
    twoLimbs.cfg.fits 0x10000000200000003 = false := by decide
theorem witness_AdmittedStatementsAreDefined : (loaded 4 13 497).admits (.memWrite 0 4 1#32) = true ∧
    (loaded 4 13 497).admits (.writeInt .a 4) = true ∧ (loaded 4 13 497).admits (.readInt .a) = true ∧
    (loaded 4 13 497).admits (.memRead 4 4) = true ∧ (loaded 4 13 497).admits .poll = true ∧
    (waiting 13 3 2 1 2).admits (.memWrite 0 4 6#32) = true ∧ RegName.a ∈ readsOf .modpow := by decide
theorem witness_RecommendedMachineRefusesNone :
    decode 0x00000006#32 = .ok .resume ∧ (State.reset.withFetchWord 32 6).turns.head? = some .host ∧
      (State.reset.withFetchWord 32 6).script = [.memWrite State.reset.cfg.base 4 6#32] ∧
      ({ State.reset with script := [.memWrite 0 4 1#32] } : State).turns = [] ∧ State.reset.state ≠ .busy ∧
      ∀ n, (State.reset.reg n).value = none := by
  refine ⟨by decide, by decide, by decide, by decide, by decide, fun n => ?_⟩
  cases n <;> decide
theorem witness_RecommendedMachineRefusesNone_admits :
    ((loaded 4 13 497).withFetchWord 32 1).nextStmt = some (.memWrite 0 4 1#32) ∧
      ((loaded 4 13 497).withFetchWord 32 1).admits (.memWrite 0 4 1#32) = true ∧
      ((loaded 4 13 497).withFetchWord 32 6).nextStmt = some (.memWrite 0 4 6#32) ∧
      ((loaded 4 13 497).withFetchWord 32 6).admits (.memWrite 0 4 6#32) = false ∧
      (running .tdiv .tdLoop 9 0 0).nextStmt = none := by decide
theorem witness_RecommendedMachineRefusesNone_next :
    ∃ s', stepRecommended ((loaded 4 13 497).withFetchWord 32 1) = .next s' ∧ s'.state = .busy := ⟨_, rfl, rfl⟩
theorem witness_RecommendedStepKeepsOperandsDefined : ControlInv (waiting 13 3 2 1 2) ∧ OperandsDefined (waiting 13 3 2 1 2) ∧
    ∃ s', stepRecommended ((waiting 13 3 2 1 2).withFetchWord 32 6) = .next s' ∧ s'.ph = .mpInit :=
  ⟨(waiting_inv 2 (by decide) (by decide) (by decide) (by decide) (by decide) (by decide) (by decide)).control,
    ⟨fun _ i => by cases i <;> decide, by decide⟩, _, rfl, by decide⟩
theorem witness_CodecRoundTrip : 0 < 2 ∧ ∀ u ∈ [72, 73], (0 : Int) < u ∧ u < (256 : Nat) := by decide
theorem witness_EncodeBlocksInRange : 0 < 2 ∧ encodeText 2 256 [72, 73, 74] = .ok [18760, 74] := by decide
theorem witness_TransformAppliesModpow : Inv (loaded 4 13 497) ∧ (loaded 4 13 497).state = .idle ∧ (loaded 4 13 497).turns = [] ∧
    (0 : Int) ≤ 0 ∧ (0 : Int) < 1 ∧ (loaded 4 13 497).cfg.fits 1 = true ∧
    ∀ v ∈ [(0 : Int), 65], 0 ≤ v ∧ (loaded 4 13 497).cfg.fits v = true :=
  ⟨loaded_inv 4 13 497, rfl, rfl, le_refl _, by decide, rfl, by decide⟩
theorem witness_RsaRoundTrip : Nat.Prime 61 ∧ Nat.Prime 53 ∧ (61 : Nat) ≠ 53 ∧
    (17 : Int) * 2753 % (((61 : Nat) - 1) * ((53 : Nat) - 1)) = 1 % (((61 : Nat) - 1) * ((53 : Nat) - 1)) ∧
    (∀ v ∈ [(0 : Int), 65, 3232], 0 ≤ v ∧ v < ((61 : Nat) : Int) * (53 : Nat)) ∧ Inv (loaded 4 13 497) ∧
    (loaded 4 13 497).cfg.fits (((61 : Nat) : Int) * (53 : Nat)) = true :=
  ⟨by norm_num, by norm_num, by decide, by decide, by decide, loaded_inv 4 13 497, rfl⟩

/-- The keys of program P4. -/
def keyA : KeyPair := ⟨61, 53, 3233, 17, 2753⟩
def keyB : KeyPair := ⟨89, 97, 8633, 5, 5069⟩

theorem witness_ChannelRecoversTheText : (Nat.Prime 61 ∧ Nat.Prime 53 ∧ Nat.Prime 89 ∧ Nat.Prime 97) ∧
    keyA.n = ((61 : Nat) : Int) * (53 : Nat) ∧ keyB.n = ((89 : Nat) : Int) * (97 : Nat) ∧
    keyA.e * keyA.d % (((61 : Nat) - 1) * ((53 : Nat) - 1)) = 1 % (((61 : Nat) - 1) * ((53 : Nat) - 1)) ∧
    keyB.e * keyB.d % (((89 : Nat) - 1) * ((97 : Nat) - 1)) = 1 % (((89 : Nat) - 1) * ((97 : Nat) - 1)) ∧
    ((256 : Nat) : Int) ^ 1 < min keyA.n keyB.n ∧ (∀ u ∈ [(72 : Int), 73], 0 < u ∧ u < (256 : Nat)) ∧
    Inv (loaded 4 13 497) ∧
    ∀ x ∈ [keyA.n, keyA.e, keyA.d, keyB.n, keyB.e, keyB.d], (loaded 4 13 497).cfg.fits x = true :=
  ⟨⟨by norm_num, by norm_num, by norm_num, by norm_num⟩, by decide, by decide, by decide, by decide, by decide, by decide,
    loaded_inv 4 13 497, fun _ _ => rfl⟩
theorem witness_GenprimeReturnsAcceptedCandidate :
    ∃ env', genprime 10 { } ⟨State.reset, [2], 1⟩ 1 = .ok (2, env') := ⟨_, rfl⟩

/-- IDLE, A, B and M written and MR_TRIALS = 0, so that every odd candidate of 5 or more is accepted with no witness (R168). -/
def noTrials : State := { loaded 0 0 0 with trials := 0#32 }

theorem noTrials_inv : Inv noTrials := by
  obtain ⟨h1, h2, h3⟩ := loaded_inv 0 0 0
  exact ⟨⟨h1.1, fun n => by cases n <;> rfl⟩, ⟨h2.1, h2.2, h2.3, h2.4, h2.5, h2.6, h2.7⟩, trivial⟩

theorem witness_GenprimeReturnsAcceptedCandidate_default :
    ∃ env', genprime 40 { } ⟨noTrials, [10 ^ 49 + 3], 1⟩ = .ok (10 ^ 49 + 3, env') := ⟨_, rfl⟩
theorem witness_KeygenReturnsAKeyPair :
    Inv noTrials ∧ noTrials.state = .idle ∧ noTrials.turns = [] ∧
      ∃ env', keygen 40 { } ⟨noTrials, [2, 5, 3], 5⟩ 1 = .ok (⟨2, 5, 10, 3, 3⟩, env') :=
  ⟨noTrials_inv, rfl, rfl, _, rfl⟩
theorem witness_KeygenReturnsAKeyPair_default :
    ∃ k env', keygen 60 { } ⟨noTrials, [10 ^ 49 + 3, 10 ^ 49 + 7, (10 ^ 49 + 2) * (10 ^ 49 + 6) - 1], 5⟩ = .ok (k, env') :=
  ⟨_, _, rfl⟩

end Sys2Proof.Tests
end

section
/-! PROOFS. What each turn of the schedule does, one equation a case of `step` and `hostTurn` (spec 00_scope.md R16, 20_memory.md
R61, R72), and that every way a step can go keeps the registers in canonical form and in range (00_scope.md R10, 10_state.md R26,
20_memory.md R63). -/

namespace Sys2Proof.Machine

/-! ### The registers -/

theorem illegalCommand_regs {s : State} (h : RegsInv s) : RegsInv (illegalCommand s) := by
  unfold illegalCommand
  split
  · exact h.raiseFault _
  · exact h

/-- Reset leaves every register unwritten, for the parameters it keeps (R40). -/
theorem applyReset_regs {s : State} (h : RegsInv s) : RegsInv (applyReset s) where
  cfg_wf := h.cfg_wf
  regs_wf n := by cases n <;> exact BigReg.void_wf s.cfg

/-- A statement of the host keeps the registers in range: what it stores is an Integer that fits, or one limb within NLIMBS. -/
theorem perform_regs {st : HostStmt} {s s' : State} (h : RegsInv s) (hp : perform st s = .next s') : RegsInv s' := by
  obtain ⟨sc, dr, rp, rfl⟩ | ⟨n, v, -, hfits, -, rfl⟩ | ⟨n, k, j, w, hk, hj, -, rfl⟩ | ⟨w, -, rfl⟩ | ⟨w, i, -, -, hexec⟩ |
    ⟨w, e, -, -, rfl⟩ := perform_cases hp
  · exact h.of_same rfl fun _ => rfl
  · exact h.setReg (BigReg.ofInt_wf hfits)
  · exact h.setReg (BigReg.writeCell_wf hk hj (h.regs_wf n))
  · exact h.of_same rfl fun _ => rfl
  · exact exec_regs h hexec
  · exact illegalCommand_regs h

/-- Settles O25. The last micro-step of a command is the one case that needs more than the registers: that its results fit is in
the invariants of the iterations (`microStep_regs`). -/
theorem stepKeepsRegistersInRange : Obligations.StepKeepsRegistersInRange := by
  intro s s' hinv hstep
  obtain ⟨ts, rfl⟩ | ⟨ts, sc, st, hp⟩ | ⟨ts, rfl⟩ | ⟨ts, rfl⟩ := step_cases hstep
  · obtain ⟨hregs, hcontrol, hphase⟩ : Inv { s with turns := ts } := hinv.of_host rfl
    exact microStep_regs hregs hcontrol hphase
  · refine perform_regs ?_ hp
    exact hinv.regs.of_same rfl fun _ => rfl
  · exact hinv.regs.of_same rfl fun _ => rfl
  · refine applyReset_regs ?_
    exact hinv.regs.of_same rfl fun _ => rfl

/-! ### The turns -/

section Turns

variable {s : State} {ts : List Turn}

theorem hostTurn_of_script_cons {h : HostStmt} {sc : List HostStmt} (hs : s.script = h :: sc) :
    hostTurn s = perform h { s with script := sc } := by
  simp only [hostTurn, hs]

theorem hostTurn_of_script_nil (hs : s.script = []) : hostTurn s = .next s := by
  simp only [hostTurn, hs]

theorem step_of_turns_engine (ht : s.turns = .engine :: ts) : step s = .next (microStep { s with turns := ts }) := by
  simp only [step, ht]

theorem step_of_turns_host (ht : s.turns = .host :: ts) : step s = hostTurn { s with turns := ts } := by
  simp only [step, ht]

theorem step_of_turns_nil_busy (ht : s.turns = []) (hb : s.state = .busy) : step s = .next (microStep s) := by
  simp only [step, ht, if_pos hb]

theorem step_of_turns_nil_not_busy (ht : s.turns = []) (hb : s.state ≠ .busy) : step s = hostTurn s := by
  simp only [step, ht, if_neg hb]

end Turns

/-- Settles O11: who moves is read off the schedule, and what the host does off its script. -/
theorem stepTakesTheTurn : Obligations.StepTakesTheTurn := by
  refine ⟨?engine, ?defaultEngine, ?host, ?hostDone, ?defaultHost, ?defaultHostDone⟩
  case engine => exact fun s ts ht => step_of_turns_engine ht
  case defaultEngine => exact fun s ht hb => step_of_turns_nil_busy ht hb
  case host => exact fun s ts h sc ht hs => (step_of_turns_host ht).trans (hostTurn_of_script_cons hs)
  case hostDone => exact fun s ts ht hs => (step_of_turns_host ht).trans (hostTurn_of_script_nil hs)
  case defaultHost => exact fun s h sc ht hb hs => (step_of_turns_nil_not_busy ht hb).trans (hostTurn_of_script_cons hs)
  case defaultHostDone => exact fun s ht hb hs => (step_of_turns_nil_not_busy ht hb).trans (hostTurn_of_script_nil hs)

end Sys2Proof.Machine
end

section
/-! PROOFS. The control invariant (spec 10_state.md R24, R27 to R31, R38): it holds after reset, and every statement of the host and
every step keeps it. -/

namespace Sys2Proof.Machine

theorem resetWith_control (c : Config) : ControlInv (State.resetWith c) := by
  constructor <;> simp [State.resetWith, latchesFit]

/-- The invariant holds after reset, for parameters that R9 allows. -/
theorem resetWith_inv {c : Config} (hc : c.wf = true) : Inv (State.resetWith c) where
  regs := ⟨hc, fun n => by cases n <;> exact BigReg.void_wf c⟩
  control := resetWith_control c
  phase := phaseInv_of_idle rfl

/-- The control invariant does not speak of what is the host's. -/
theorem ControlInv.of_host {s : State} (h : ControlInv s) (ts : List Turn) (sc : List HostStmt) (dr : Nat)
    (rp : List Reply) : ControlInv { s with turns := ts, script := sc, draws := dr, replies := rp } :=
  h.of_same rfl rfl rfl rfl rfl rfl rfl rfl rfl rfl rfl

/-- The registers that the host may write are not the results, of which alone the control invariant speaks. -/
theorem ControlInv.setReg {s : State} (h : ControlInv s) {n : RegName} (hn : hostMayWrite n s.state = true) (r : BigReg) :
    ControlInv (s.setReg n r) := by
  cases n
  case a | b | m | w => exact h.of_same rfl rfl rfl rfl rfl rfl rfl rfl rfl rfl rfl
  case r0 | r1 | r2 => simp [hostMayWrite] at hn

theorem perform_control {st : HostStmt} {s s' : State} (h : ControlInv s) (hp : perform st s = .next s') :
    ControlInv s' := by
  obtain ⟨sc, dr, rp, rfl⟩ | ⟨n, v, -, -, hw, rfl⟩ | ⟨n, k, j, w, -, -, hw, rfl⟩ | ⟨w, -, rfl⟩ | ⟨w, i, -, -, hexec⟩ |
    ⟨w, e, -, -, rfl⟩ := perform_cases hp
  · exact h.of_host s.turns sc dr rp
  · exact h.setReg hw _
  · exact h.setReg hw _
  · exact h.of_same rfl rfl rfl rfl rfl rfl rfl rfl rfl rfl rfl
  · exact exec_control h hexec
  · exact illegalCommand_control h

theorem applyReset_control (s : State) : ControlInv (applyReset s) :=
  (resetWith_control s.cfg).of_same rfl rfl rfl rfl rfl rfl rfl rfl rfl rfl rfl

/-- Settles O23: a micro-step, a statement of the host, an idle turn and a reset each keep it. -/
theorem stepKeepsControl : Obligations.StepKeepsControl := by
  intro s s' hcontrol hstep
  have hhost := fun ts sc => hcontrol.of_host ts sc s.draws s.replies
  obtain ⟨ts, rfl⟩ | ⟨ts, sc, st, hp⟩ | ⟨ts, rfl⟩ | ⟨ts, rfl⟩ := step_cases hstep
  · exact microStep_control (hhost ts s.script)
  · exact perform_control (hhost ts sc) hp
  · exact hhost ts s.script
  · exact applyReset_control _

/-- Settles O22: the machine's own reset state is that of unbounded NLIMBS (R9). -/
theorem resetMeetsTheInvariant : Obligations.ResetMeetsTheInvariant :=
  ⟨resetWith_inv rfl, fun _ => resetWith_inv⟩

end Sys2Proof.Machine
end

section
/-! PROOFS. What a micro-step and a write of a command can do, said once each, and what follows from it: which registers the engine
writes and when (spec 10_state.md R23 to R25, R34; 20_memory.md R73), and the transitions of STATE (10_state.md R27). -/

namespace Sys2Proof.Machine

/-! ### What can happen -/

/-- Everything a micro-step can do: go on with the working registers, open the witness request (R164), take INVALID_ARGUMENT
(R247), or complete the command (R24, R73). -/
theorem microStep_cases (s : State) :
    (∃ ph ret mexp xg mr, microStep s = { s with ph := ph, ret := ret, mexp := mexp, xg := xg, mr := mr }) ∨
      (s.ph = .mrTrial ∧ microStep s = { s with request := true, state := .waitRng, ph := .mrWait }) ∨
      microStep s = raiseFault .invalidArgument s ∨
      ∃ x y z v, microStep s = finish x y z v s := by
  cases hp : s.ph <;> simp only [microStep, hp]
  case mpFin | xgFin | miFin | mrFin | tdFin => exact .inr (.inr (.inr ⟨_, _, _, _, rfl⟩))
  case mrTrial =>
    unfold mrTrial
    split
    · exact .inl ⟨_, _, _, _, _, rfl⟩
    · exact .inr (.inl ⟨trivial, rfl⟩)
  case mpCheck | xgCheck | miCheck =>
    simp only [mpCheck, xgCheck, miCheck]
    split
    · exact .inr (.inr (.inl rfl))
    · exact .inl ⟨_, _, _, _, _, rfl⟩
  case idle | mrWait | mpInit | xgInit => exact .inl ⟨_, _, _, _, _, rfl⟩
  case mpLoop | xgLoop | miNorm | mrSpecial | mrDecomp | mrFirst | mrSq | tdCheck | tdLoop =>
    simp only [mpLoop, xgLoop, miNorm, mrSpecial, mrDecomp, mrFirst, mrSq, tdCheck, tdLoop]
    repeat' split
    all_goals exact .inl ⟨_, _, _, _, _, rfl⟩

/-- A command other than RESUME is the acceptance of R95. -/
theorem exec_of_ne_resume {i : Instr} (hi : i ≠ .resume) (s : State) :
    exec i s = .next (acceptCommand i.opcode (firstPhase i) s) := by
  cases i
  case resume => exact absurd rfl hi
  all_goals rfl

theorem exec_resume (s : State) : exec .resume s = .next (if s.state = .waitRng then deliverWitness s else s) := rfl

/-- Everything a write of a command can do: it is dropped, a command is accepted (R95), or RESUME finds the witness out of range
(R243) or delivers it (R165). -/
theorem exec_cases {i : Instr} {s s' : State} (h : exec i s = .next s') :
    s' = s ∨
      (i ≠ .resume ∧ s.mayAccept = true ∧
        s' = { s.voidResults with op := i.opcode, v := false, err := .none, state := .busy, ph := firstPhase i }) ∨
      (i = .resume ∧ s.state = .waitRng ∧ s' = raiseFault .rngRange s) ∨
      (i = .resume ∧ s.state = .waitRng ∧
        s' = { s with request := false, state := .busy, ret := .mrFirst, ph := .mpInit }) := by
  by_cases hi : i = .resume
  · subst hi
    rw [exec_resume] at h
    cases h
    split
    · rename_i hw
      unfold deliverWitness
      split
      · exact .inr (.inr (.inl ⟨rfl, hw, rfl⟩))
      · exact .inr (.inr (.inr ⟨rfl, hw, rfl⟩))
    · exact .inl rfl
  · rw [exec_of_ne_resume hi] at h
    cases h
    unfold acceptCommand
    split
    · exact .inr (.inl ⟨hi, ‹_›, rfl⟩)
    · exact .inl rfl

/-- `exec` answers a next state for every command in every state. -/
theorem exec_answers (i : Instr) (s : State) : ∃ s', exec i s = .next s' := by
  cases i <;> exact ⟨_, rfl⟩

/-- What the host's turn can do: perform a statement, or nothing. -/
theorem hostTurn_cases {s s' : State} (h : hostTurn s = .next s') :
    (∃ sc st, perform st { s with script := sc } = .next s') ∨ s' = s := by
  cases hs : s.script with
  | nil =>
    rw [hostTurn_of_script_nil hs] at h
    cases h
    exact .inr rfl
  | cons st sc =>
    rw [hostTurn_of_script_cons hs] at h
    exact .inl ⟨sc, st, h⟩

/-- The branches of `step_cases` that the schedule leaves open while reset is not asserted. -/
theorem step_cases_of_not_rst {s s' : State} (h : step s = .next s') (hr : s.turns.head? ≠ some .rst) :
    (∃ ts, s' = microStep { s with turns := ts }) ∨
      (∃ ts sc st, perform st { s with turns := ts, script := sc } = .next s') ∨
      ∃ ts, s' = { s with turns := ts } := by
  have hhost : ∀ ts, hostTurn { s with turns := ts } = .next s' →
      (∃ ts sc st, perform st { s with turns := ts, script := sc } = .next s') ∨ ∃ ts, s' = { s with turns := ts } :=
    fun ts ht => (hostTurn_cases ht).imp (fun ⟨sc, st, hp⟩ => ⟨ts, sc, st, hp⟩) fun e => ⟨ts, e⟩
  match ht : s.turns with
  | .rst :: ts => simp [ht] at hr
  | .engine :: ts =>
    rw [step_of_turns_engine ht] at h
    cases h
    exact .inl ⟨ts, rfl⟩
  | .host :: ts =>
    rw [step_of_turns_host ht] at h
    exact .inr (hhost ts h)
  | [] =>
    by_cases hb : s.state = .busy
    · rw [step_of_turns_nil_busy ht hb] at h
      cases h
      exact .inl ⟨s.turns, rfl⟩
    · rw [step_of_turns_nil_not_busy ht hb] at h
      exact .inr (hhost s.turns h)

theorem step_of_turns_rst {s : State} {ts : List Turn} (ht : s.turns = .rst :: ts) :
    step s = .next (applyReset { s with turns := ts }) := by
  simp only [step, ht]

/-! ### What the engine writes -/

theorem microStep_operands (s : State) :
    (microStep s).a = s.a ∧ (microStep s).b = s.b ∧ (microStep s).m = s.m ∧ (microStep s).w = s.w ∧
      (microStep s).trials = s.trials := by
  obtain ⟨ph, ret, mexp, xg, mr, h⟩ | ⟨-, h⟩ | h | ⟨x, y, z, v, h⟩ := microStep_cases s <;> rw [h] <;>
    exact ⟨rfl, rfl, rfl, rfl, rfl⟩

theorem exec_operands {i : Instr} {s s' : State} (h : exec i s = .next s') :
    s'.a = s.a ∧ s'.b = s.b ∧ s'.m = s.m ∧ s'.w = s.w ∧ s'.trials = s.trials := by
  obtain rfl | ⟨-, -, rfl⟩ | ⟨-, -, rfl⟩ | ⟨-, -, rfl⟩ := exec_cases h <;> exact ⟨rfl, rfl, rfl, rfl, rfl⟩

theorem engineRun_operands (k : Nat) : ∀ s : State,
    (engineRun k s).a = s.a ∧ (engineRun k s).b = s.b ∧ (engineRun k s).m = s.m ∧ (engineRun k s).w = s.w ∧
      (engineRun k s).trials = s.trials := by
  induction k with
  | zero => exact fun s => ⟨rfl, rfl, rfl, rfl, rfl⟩
  | succ k ih =>
    intro s
    obtain ⟨ha, hb, hm, hw, ht⟩ := ih (microStep s)
    obtain ⟨ha', hb', hm', hw', ht'⟩ := microStep_operands s
    exact ⟨ha.trans ha', hb.trans hb', hm.trans hm', hw.trans hw', ht.trans ht'⟩

/-- Settles O27: none of the cases of a command's write or of a micro-step names these registers. -/
theorem commandsKeepTheOperands : Obligations.CommandsKeepTheOperands :=
  ⟨fun _ _ _ => exec_operands, engineRun_operands⟩

/-- Settles O28: a fault and a completion are the only micro-steps that write these fields, and both set DONE. -/
theorem resultsComeWithDone : Obligations.ResultsComeWithDone := by
  intro s hdone
  obtain ⟨ph, ret, mexp, xg, mr, h⟩ | ⟨-, h⟩ | h | ⟨x, y, z, v, h⟩ := microStep_cases s <;> rw [h] at hdone ⊢
  · exact ⟨rfl, rfl, rfl, rfl, rfl⟩
  · exact ⟨rfl, rfl, rfl, rfl, rfl⟩
  · exact absurd rfl hdone
  · exact absurd rfl hdone

/-! ### The transitions of STATE -/

/-- R27 for every step but reset, with WAIT_RNG to DONE at RNG_RANGE (log 19): STATE and ERR after the step (`st'`, `err'`)
beside STATE before it. -/
inductive StateMove (err' : FaultCode) : EngState → EngState → Prop where
  | stay (st : EngState) : StateMove err' st st
  | accept {st : EngState} (h : st = .idle ∨ st = .done) : StateMove err' st .busy
  | ask : StateMove err' .busy .waitRng
  | resume : StateMove err' .waitRng .busy
  | finish : StateMove err' .busy .done
  | illegal : StateMove err' .idle .done
  | outOfRange (h : err' = .rngRange) : StateMove err' .waitRng .done

theorem mayAccept_iff {s : State} : s.mayAccept = true ↔ s.state = .idle ∨ s.state = .done := by
  simp [State.mayAccept]

theorem microStep_stateMove {s : State} (hc : ControlInv s) : StateMove (microStep s).err s.state (microStep s).state := by
  by_cases hb : s.state = .busy
  · obtain ⟨ph, ret, mexp, xg, mr, h⟩ | ⟨-, h⟩ | h | ⟨x, y, z, v, h⟩ := microStep_cases s <;> rw [h]
    · exact .stay _
    · rw [hb]; exact .ask
    · rw [hb]; exact .finish
    · rw [hb]; exact .finish
  · rw [microStep_rest hc hb]
    exact .stay _

theorem exec_stateMove {i : Instr} {s s' : State} (h : exec i s = .next s') : StateMove s'.err s.state s'.state := by
  obtain rfl | ⟨-, ha, rfl⟩ | ⟨-, hw, rfl⟩ | ⟨-, hw, rfl⟩ := exec_cases h
  · exact .stay _
  · exact .accept (mayAccept_iff.1 ha)
  · rw [hw]; exact .outOfRange rfl
  · rw [hw]; exact .resume

theorem illegalCommand_stateMove (s : State) : StateMove (illegalCommand s).err s.state (illegalCommand s).state := by
  unfold illegalCommand
  split
  · obtain hs | hs := mayAccept_iff.1 ‹_› <;> rw [hs]
    · exact .illegal
    · exact .stay _
  · exact .stay _

theorem perform_stateMove {st : HostStmt} {s s' : State} (hp : perform st s = .next s') :
    StateMove s'.err s.state s'.state := by
  obtain ⟨sc, dr, rp, rfl⟩ | ⟨n, v, -, -, -, rfl⟩ | ⟨n, k, j, w, -, -, -, rfl⟩ | ⟨w, -, rfl⟩ | ⟨w, i, -, -, hexec⟩ |
    ⟨w, e, -, -, rfl⟩ := perform_cases hp
  · exact .stay _
  · rw [setReg_state]; exact .stay _
  · rw [setReg_state]; exact .stay _
  · exact .stay _
  · exact exec_stateMove hexec
  · exact illegalCommand_stateMove s

theorem step_stateMove {s s' : State} (hc : ControlInv s) (h : step s = .next s') (hr : s.turns.head? ≠ some .rst) :
    StateMove s'.err s.state s'.state := by
  obtain ⟨ts, rfl⟩ | ⟨ts, sc, st, hp⟩ | ⟨ts, rfl⟩ := step_cases_of_not_rst h hr
  · exact microStep_stateMove (hc.of_host ts s.script s.draws s.replies)
  · exact (perform_stateMove hp :)
  · exact .stay _

/-- Settles O26: every step but reset is a `StateMove`, whose constructors but `stay` are the transitions listed. -/
theorem stateTransitions : Obligations.StateTransitions := by
  refine ⟨fun s s' hc h hr hne => ?moves, fun s hr => ?reset⟩
  case moves =>
    have hmove := step_stateMove hc h hr
    generalize s.state = st at hmove hne ⊢
    generalize s'.state = st' at hmove hne ⊢
    cases hmove with
    | stay => exact absurd rfl hne
    | accept h => simp [h]
    | outOfRange h => simp [h]
    | ask | resume | finish | illegal => simp
  case reset =>
    obtain ⟨ts, ht⟩ := List.head?_eq_some_iff.1 hr
    exact ⟨_, step_of_turns_rst ht, rfl⟩

end Sys2Proof.Machine
end

section
/-! PROOFS. The port's accesses at an offset of the register map (spec 20_memory.md R60, R62), the STATUS word (10_state.md R33) and
MR_TRIALS (R34). -/

namespace Sys2Proof.Machine

/-! ### Accesses by offset -/

theorem Config.base_mod_four (c : Config) : c.base % 4 = 0 := by
  unfold Config.base
  omega

/-- An aligned access at an offset of the block reaches what the register map has there (R62). -/
theorem portAccess_base_add (s : State) {off : Nat} (h : off % 4 = 0)
    (k : PortTarget → Host.Outcome State Fault Refusal) : portAccess (s.cfg.base + off) 4 s k = k (s.cfg.target off) := by
  have hbase := Config.base_mod_four s.cfg
  have halign : (s.cfg.base + off) % 4 = 0 := by omega
  have hge : ¬ s.cfg.base + off < s.cfg.base := by omega
  simp only [portAccess, halign, hge, ne_eq, not_true_eq_false, if_false, Nat.add_sub_cancel_left]

theorem perform_memRead_base_add (s : State) {off : Nat} (h : off % 4 = 0) :
    perform (.memRead (s.cfg.base + off) 4) s = readTarget (s.cfg.target off) s := by
  rw [perform, portAccess_base_add s h]

theorem perform_memWrite_base_add (s : State) {off : Nat} (h : off % 4 = 0) (w : Word) :
    perform (.memWrite (s.cfg.base + off) 4 w) s = writeTarget (s.cfg.target off) w s := by
  rw [perform, portAccess_base_add s h]

@[simp] theorem Config.target_cmd (c : Config) : c.target 0x000 = .cmd := rfl
@[simp] theorem Config.target_status (c : Config) : c.target 0x004 = .status := rfl
@[simp] theorem Config.target_trials (c : Config) : c.target 0x008 = .trials := rfl

/-! ### STATUS and MR_TRIALS -/

/-- The bits of STATUS that carry no field read 0 (R33). -/
theorem status_reserved (s : State) : s.status.getLsbD 3 = false ∧ s.status.extractLsb' 8 24 = 0#24 := by
  unfold State.status
  cases s.state <;> cases s.v <;> cases s.err <;> exact ⟨rfl, rfl⟩

theorem resetWith_status (c : Config) : (State.resetWith c).status = 0#32 := by
  simp [State.status, State.resetWith, EngState.code, FaultCode.code]

/-- Settles O35: the fields are those the host's procedures read (`statusState_status` and its like), and their codes those of R27
and R31. -/
theorem statusWordLayout : Obligations.StatusWordLayout := by
  intro s
  refine ⟨?read, fun w => ?write, resetWith_status s.cfg, ?state, statusV_status s, (status_reserved s).1, ?err,
    (status_reserved s).2⟩
  case read =>
    rw [perform_memRead_base_add s (by rfl), Config.target_status]
    rfl
  case write =>
    rw [perform_memWrite_base_add s (by rfl), Config.target_status]
    rfl
  case state =>
    refine (statusState_status s).trans ?_
    cases s.state <;> rfl
  case err =>
    refine (statusErr_status s).trans ?_
    cases s.err <;> rfl

/-- Settles O36: STATE decides about the write as `mayAccept` does. -/
theorem trialsRegisterAccess : Obligations.TrialsRegisterAccess := by
  intro s w
  refine ⟨?read, ?write, rfl⟩
  case read =>
    rw [perform_memRead_base_add s (by rfl), Config.target_trials]
    rfl
  case write =>
    rw [perform_memWrite_base_add s (by rfl), Config.target_trials]
    simp only [writeTarget, hostWriteTrials, mayAccept_iff]

end Sys2Proof.Machine
end

section
/-! PROOFS. The recommended machine (spec 10_state.md R22; 93_implementation_defined.md U2 to U4): what it admits is performed and
meets no free value, what it leaves out is refused, and every operand of the command in progress holds a value. -/

namespace Sys2Proof.Machine

/-! ### What an admitted statement does -/

/-- An access that the port can form reaches what the register map has there. -/
theorem portAccess_of_accessWf {s : State} {addr size : Nat} (h : s.cfg.accessWf addr size = true)
    (k : PortTarget → Host.Outcome State Fault Refusal) : portAccess addr size s k = k (s.cfg.target (addr - s.cfg.base)) := by
  simp only [Config.accessWf, Bool.and_eq_true, decide_eq_true_eq] at h
  obtain ⟨⟨⟨⟨rfl, halign⟩, hbase⟩, -⟩, -⟩ := h
  simp only [portAccess, halign, not_lt.2 hbase, ne_eq, not_true_eq_false, if_false]

theorem BigReg.value_isSome_iff {r : BigReg} : r.value.isSome = true ↔ r.unwritten = [] := by
  unfold BigReg.value
  split <;> simp_all

theorem BigReg.readCell_of_written {r : BigReg} (h : r.unwritten = []) (j : Nat) : ∃ w, r.readCell j = some w := by
  cases j <;> simp [BigReg.readCell, h]

theorem hostReadInt_draws {s : State} {n : RegName} (hr : s.hostMayRead n = true) (hv : (s.reg n).value.isSome = true) :
    (hostReadInt n s).draws = s.draws := by
  obtain ⟨v, hv⟩ := Option.isSome_iff_exists.1 hv
  simp only [hostReadInt, hv, hr, if_true, answer_draws]

theorem hostReadCell_draws {s : State} {n : RegName} (hr : s.hostMayRead n = true) (hv : (s.reg n).value.isSome = true)
    (j : Nat) : (hostReadCell n j s).draws = s.draws := by
  obtain ⟨w, hw⟩ := BigReg.readCell_of_written (BigReg.value_isSome_iff.1 hv) j
  simp only [hostReadCell, hw, hr, if_true, answer_draws]

theorem hostWriteInt_draws (n : RegName) (v : Int) (s : State) : (hostWriteInt n v s).draws = s.draws := by
  unfold hostWriteInt
  split
  · exact setReg_draws s n _
  · rfl

theorem hostWriteCell_draws (n : RegName) (j : Nat) (w : Word) (s : State) : (hostWriteCell n j w s).draws = s.draws := by
  unfold hostWriteCell
  split
  · exact setReg_draws s n _
  · rfl

theorem hostWriteTrials_draws (w : Word) (s : State) : (hostWriteTrials w s).draws = s.draws := by
  unfold hostWriteTrials
  split <;> rfl

theorem writeCmd_next_draws (w : Word) (s : State) : ∃ s', writeCmd w s = .next s' ∧ s'.draws = s.draws := by
  unfold writeCmd
  split
  · rename_i i _
    obtain ⟨s', he⟩ := exec_answers i s
    refine ⟨s', he, ?_⟩
    obtain rfl | ⟨-, -, rfl⟩ | ⟨-, -, rfl⟩ | ⟨-, -, rfl⟩ := exec_cases he <;> rfl
  · refine ⟨_, rfl, ?_⟩
    unfold illegalCommand
    split <;> rfl

/-- An admitted statement answers a next state and draws no free value. -/
theorem perform_of_admits {s : State} {h : HostStmt} (ha : s.admits h = true) :
    ∃ s', perform h s = .next s' ∧ s'.draws = s.draws := by
  cases h with
  | memRead addr size =>
    simp only [State.admits, Bool.and_eq_true] at ha
    obtain ⟨hwf, htarget⟩ := ha
    rw [perform, portAccess_of_accessWf hwf]
    cases ht : s.cfg.target (addr - s.cfg.base) <;> rw [ht] at htarget
    case status | trials => exact ⟨_, rfl, rfl⟩
    case cell n j =>
      obtain ⟨hread, hvalue⟩ := Bool.and_eq_true_iff.1 htarget
      exact ⟨_, rfl, hostReadCell_draws hread hvalue j⟩
    case cmd | unmapped | wordless => cases htarget
  | memWrite addr size w =>
    simp only [State.admits, Bool.and_eq_true] at ha
    obtain ⟨hwf, htarget⟩ := ha
    rw [perform, portAccess_of_accessWf hwf]
    cases ht : s.cfg.target (addr - s.cfg.base) <;> rw [ht] at htarget
    case cmd => exact writeCmd_next_draws w s
    case trials => exact ⟨_, rfl, hostWriteTrials_draws w s⟩
    case cell n j => exact ⟨_, rfl, hostWriteCell_draws n j w s⟩
    case status | unmapped | wordless => cases htarget
  | readInt n =>
    obtain ⟨hread, hvalue⟩ := Bool.and_eq_true_iff.1 ha
    exact ⟨_, rfl, hostReadInt_draws hread hvalue⟩
  | writeInt n v =>
    obtain ⟨hfits, -⟩ := Bool.and_eq_true_iff.1 ha
    exact ⟨_, by rw [perform, if_pos hfits], hostWriteInt_draws n v s⟩
  | poll =>
    refine ⟨_, rfl, ?_⟩
    split <;> rfl

/-- A register that holds a value is read as it by a command. -/
theorem value_eq_operand {s : State} {n : RegName} (h : (s.reg n).value.isSome = true) :
    (s.reg n).value = some (s.operand n) := by
  obtain ⟨v, hv⟩ := Option.isSome_iff_exists.1 h
  rw [operand_of_value hv, hv]

/-- Settles O48: what `admits` asks of a read is what keeps its answer off the free values. -/
theorem admittedStatementsAreDefined : Obligations.AdmittedStatementsAreDefined := by
  intro s h ha
  obtain ⟨s', hp, hd⟩ := perform_of_admits ha
  refine ⟨s', hp, hd, ?_⟩
  rintro w i rfl hdec n hn
  exact value_eq_operand (admits_operands ha hdec n hn)

/-! ### Refusals -/

/-- What is admitted does not depend on the schedule and the script. -/
theorem admits_withHost (s : State) (ts : List Turn) (sc : List HostStmt) (st : HostStmt) :
    ({ s with turns := ts, script := sc } : State).admits st = s.admits st := by
  cases st <;> rfl

theorem nextStmt_of_turn {s : State} {st : HostStmt} {sc : List HostStmt} (hs : s.script = st :: sc)
    (ht : s.turns.head? = some .host ∨ (s.turns = [] ∧ s.state ≠ .busy)) : s.nextStmt = some st := by
  unfold State.nextStmt
  obtain ht | ⟨ht, hb⟩ := ht
  · obtain ⟨ts, ht⟩ := List.head?_eq_some_iff.1 ht
    simp only [ht, hs, List.head?_cons]
  · simp only [ht, hb, if_false, hs, List.head?_cons]

theorem stepRecommended_of_not_admits {s : State} {st : HostStmt} (hst : s.nextStmt = some st) (ha : s.admits st = false) :
    stepRecommended s = .refused (.notAdmitted st) := by
  simp [stepRecommended, hst, ha]

theorem stepRecommended_of_admits {s : State} (h : ∀ st, s.nextStmt = some st → s.admits st = true) :
    stepRecommended s = step s := by
  unfold stepRecommended
  split
  · exact if_pos (h _ ‹_›)
  · rfl

/-- Where the recommended machine steps it draws no free value for a host read. -/
theorem stepRecommended_draws {s s' : State} (h : stepRecommended s = .next s') : s'.draws = s.draws := by
  obtain ⟨hstep, hadm⟩ := stepRecommended_next h
  cases hst : s.nextStmt with
  | some st =>
    rw [step_of_nextStmt hst] at hstep
    obtain ⟨t, hp, hd⟩ := perform_of_admits ((admits_withHost s s.turns.tail s.script.tail st).trans (hadm st hst))
    rw [hstep] at hp
    cases hp
    exact hd
  | none =>
    obtain rfl | rfl | rfl := step_of_no_nextStmt hst hstep
    · exact (microStep_host _).2.2.2.2
    · rfl
    · rfl

/-- Settles O49: a command write that is admitted finds its operands (`admits_operands`), so one that meets `none` is not. -/
theorem recommendedMachineRefusesNone : Obligations.RecommendedMachineRefusesNone := by
  refine ⟨?none, fun _ _ => stepRecommended_of_not_admits, fun _ => stepRecommended_of_admits,
    fun _ _ h => ⟨(stepRecommended_next h).1, stepRecommended_draws h⟩⟩
  case none =>
    intro s w i n sc hdec hs ht hn hnone
    have hreads : n ∈ readsOf i := by cases i <;> exact hn
    refine stepRecommended_of_not_admits (nextStmt_of_turn hs ht) (Bool.eq_false_iff.2 fun ha => ?_)
    have hsome := admits_operands ha hdec n hreads
    rw [hnone] at hsome
    cases hsome

/-! ### The operands of the command in progress -/

theorem Instr.opcode_injective {i j : Instr} (h : i.opcode = j.opcode) : i = j := by
  revert h
  cases i <;> cases j <;> decide

/-- No command reads a result register (R92), so what keeps the operands keeps what a command reads. -/
theorem reg_eq_of_operands {s t : State}
    (h : t.a = s.a ∧ t.b = s.b ∧ t.m = s.m ∧ t.w = s.w ∧ t.trials = s.trials) {i : Instr} {n : RegName}
    (hn : n ∈ readsOf i) : t.reg n = s.reg n := by
  obtain ⟨ha, hb, hm, hw, -⟩ := h
  cases n
  case a => exact ha
  case b => exact hb
  case m => exact hm
  case w => exact hw
  case r0 | r1 | r2 => cases i <;> simp [readsOf] at hn

/-- Between commands there is no command in progress. -/
theorem OperandsDefined.of_rest {s : State} (h : s.state = .idle ∨ s.state = .done) : OperandsDefined s := by
  constructor <;> obtain h | h := h <;> simp [h]

/-- A step that leaves no register without its value, and leaves the command where it is. -/
theorem OperandsDefined.of_values {s t : State} (h : OperandsDefined s) (hst : t.state = s.state) (hop : t.op = s.op)
    (hph : t.ph = s.ph) (hr : ∀ n, (s.reg n).value.isSome = true → (t.reg n).value.isSome = true) : OperandsDefined t where
  command hs i hi ho n hn := hr n (h.command (hst ▸ hs) i hi (hop ▸ ho) n hn)
  witness hs ho hp := hr .w (h.witness (hst ▸ hs) (hop ▸ ho) (hph ▸ hp))

/-- A register stays defined when another is written, or when what is written to it is. -/
theorem OperandsDefined.setReg {s : State} (h : OperandsDefined s) {n : RegName} {r : BigReg}
    (hr : (s.reg n).value.isSome = true → r.value.isSome = true) : OperandsDefined (s.setReg n r) := by
  refine h.of_values (setReg_state s n r) (setReg_op s n r) (setReg_ph s n r) fun k hk => ?_
  by_cases hkn : k = n
  · subst hkn
    rw [reg_setReg_same]
    exact hr hk
  · rwa [reg_setReg_other s hkn]

theorem BigReg.writeCell_value_isSome {r : BigReg} (h : r.value.isSome = true) (j : Nat) (w : Word) :
    (r.writeCell j w).value.isSome = true := by
  rw [BigReg.value_isSome_iff] at h ⊢
  cases j <;> simp [BigReg.writeCell, h]

theorem exec_operandsDefined {i : Instr} {s s' : State} (h : OperandsDefined s)
    (hreads : ∀ n ∈ readsOf i, (s.reg n).value.isSome = true) (he : exec i s = .next s') : OperandsDefined s' := by
  obtain rfl | ⟨hi, -, hs'⟩ | ⟨-, -, rfl⟩ | ⟨rfl, hw, rfl⟩ := exec_cases he
  · exact h
  · refine ⟨fun _ j _ ho n hn => ?_, fun _ _ hp => ?_⟩
    · rw [hs'] at ho
      obtain rfl : i = j := Instr.opcode_injective ho
      rw [reg_eq_of_operands (exec_operands he) hn]
      exact hreads n hn
    · rw [hs'] at hp
      cases i <;> simp [firstPhase] at hp hi
  · exact .of_rest (.inr rfl)
  · refine ⟨fun _ j hj ho n hn => ?_, fun _ _ _ => hreads .w (by simp [readsOf])⟩
    rw [reg_eq_of_operands (exec_operands he) hn]
    exact h.command (.inr hw) j hj ho n hn

theorem illegalCommand_operandsDefined {s : State} (h : OperandsDefined s) : OperandsDefined (illegalCommand s) := by
  unfold illegalCommand
  split
  · exact .of_rest (.inr rfl)
  · exact h

theorem perform_operandsDefined {st : HostStmt} {s s' : State} (h : OperandsDefined s) (ha : s.admits st = true)
    (hp : perform st s = .next s') : OperandsDefined s' := by
  obtain ⟨sc, dr, rp, rfl⟩ | ⟨n, v, -, -, -, rfl⟩ | ⟨n, k, j, w, -, -, -, rfl⟩ | ⟨w, -, rfl⟩ | ⟨w, i, rfl, hdec, hexec⟩ |
    ⟨w, e, -, -, rfl⟩ := perform_cases hp
  · exact h.of_values rfl rfl rfl fun _ hn => hn
  · exact h.setReg fun _ => by rw [BigReg.ofInt_value]; rfl
  · exact h.setReg fun hn => BigReg.writeCell_value_isSome hn j w
  · exact h.of_values rfl rfl rfl fun _ hn => hn
  · exact exec_operandsDefined h (admits_operands ha hdec) hexec
  · exact illegalCommand_operandsDefined h

theorem microStep_op (s : State) : (microStep s).op = s.op := by
  obtain ⟨ph, ret, mexp, xg, mr, h⟩ | ⟨-, h⟩ | h | ⟨x, y, z, v, h⟩ := microStep_cases s <;> rw [h] <;> rfl

/-- A micro-step starts no command. -/
theorem microStep_running {s : State} (hc : ControlInv s)
    (h : (microStep s).state = .busy ∨ (microStep s).state = .waitRng) : s.state = .busy ∨ s.state = .waitRng := by
  by_cases hb : s.state = .busy
  · exact .inl hb
  · rwa [microStep_rest hc hb] at h

/-- No micro-step of MRTEST enters the phases of a trial: RESUME does (R165). -/
theorem microStep_trialPhase {s : State} (hc : ControlInv s) (hop : s.op = Instr.mrtest.opcode)
    (hph : (microStep s).ph ∈ [Phase.mpInit, .mpLoop, .mrFirst, .mrSq]) :
    s.ph ∈ [Phase.mpInit, .mpLoop, .mrFirst, .mrSq] := by
  have hlatch := hc.latches
  cases hp : s.ph <;> simp only [hp, hop, latchesFit] at hlatch <;> simp only [microStep, hp] at hph
  case mpInit | mpLoop | mrFirst | mrSq => simp
  case mpCheck | mpFin | xgCheck | xgInit | xgLoop | xgFin | miCheck | miNorm | miFin | tdCheck | tdLoop | tdFin =>
    exact absurd hlatch (by simp [Instr.opcode])
  case idle | mrWait => simp at hph
  case mrSpecial =>
    unfold mrSpecial at hph
    split at hph
    · simp at hph
    · split at hph <;> simp at hph
  case mrDecomp =>
    unfold mrDecomp at hph
    split at hph <;> simp [hp] at hph
  case mrTrial =>
    unfold mrTrial at hph
    split at hph <;> simp at hph
  case mrFin => simp [mrFin, finishVerdict] at hph

theorem microStep_operandsDefined {s : State} (hc : ControlInv s) (h : OperandsDefined s) : OperandsDefined (microStep s) where
  command hs i hi ho n hn := by
    rw [reg_eq_of_operands (microStep_operands s) hn]
    exact h.command (microStep_running hc hs) i hi ((microStep_op s).symm.trans ho) n hn
  witness hs ho hp := by
    have hop := (microStep_op s).symm.trans ho
    obtain ⟨-, -, -, hw, -⟩ := microStep_operands s
    have hph := microStep_trialPhase hc hop hp
    have hbusy : s.state = .busy := (hc.busy (by intro e; simp [e] at hph) (by intro e; simp [e] at hph)).1
    rw [hw]
    exact h.witness hbusy hop hph

/-- Settles O50: a command starts with its operands by admission, and a trial with W by the admission of its RESUME; a micro-step
writes neither, and a write of the host takes no value away. -/
theorem recommendedStepKeepsOperandsDefined : Obligations.RecommendedStepKeepsOperandsDefined := by
  refine ⟨fun c => .of_rest (.inl rfl), fun s s' hc h hstep => ?_⟩
  have hhost : ∀ ts sc, OperandsDefined { s with turns := ts, script := sc } := fun ts sc =>
    h.of_values rfl rfl rfl fun _ hn => hn
  obtain ⟨hstep, hadm⟩ := stepRecommended_next hstep
  cases hst : s.nextStmt with
  | some st =>
    rw [step_of_nextStmt hst] at hstep
    exact perform_operandsDefined (hhost s.turns.tail s.script.tail)
      ((admits_withHost s s.turns.tail s.script.tail st).trans (hadm st hst)) hstep
  | none =>
    obtain rfl | rfl | rfl := step_of_no_nextStmt hst hstep
    · exact microStep_operandsDefined (hc.of_host s.turns.tail s.script s.draws s.replies) (hhost s.turns.tail s.script)
    · exact hhost s.turns.tail s.script
    · exact .of_rest (.inl rfl)

end Sys2Proof.Machine
end

section
/-! PROOFS. No command reads a working register, OP or RET before it is written (spec 10_state.md R35 to R37, R40; U17). The idea:
`State.live` keeps, phase by phase, what the rest of the command can still read, and blots out the others; a step commutes with
it, so two states with one live part never show a difference. -/

namespace Sys2Proof.Machine

/-! ### What can still be read -/

/-- RET is read where the shared loops return (R29). -/
@[simp] def liveRet (ph ret : Phase) : Phase :=
  match ph with
  | .mpInit | .mpLoop | .xgInit | .xgLoop => ret
  | _ => .idle

/-- The MEXP registers are written by MP_INIT and read until the caller takes ACC (R35). -/
@[simp] def MexpRegs.live (ph : Phase) (r : MexpRegs) : MexpRegs :=
  match ph with
  | .mpLoop | .mpFin | .mrFirst => r
  | _ => ⟨0, 0, 0, 0⟩

/-- The XGCD registers are written by XG_INIT and read until the caller takes its results (R36); Q is written in each pass and read
in none, and INV is set by MI_NORM where there is an inverse (`verd`). -/
@[simp] def XgcdRegs.live (ph : Phase) (verd : Bool) (r : XgcdRegs) : XgcdRegs :=
  match ph with
  | .xgLoop | .xgFin | .miNorm => { r with q := 0, inv := 0 }
  | .miFin => ⟨0, 0, 0, 0, 0, 0, 0, if verd then r.inv else 0⟩
  | _ => ⟨0, 0, 0, 0, 0, 0, 0, 0⟩

/-- The MR registers (R37): D and S from MR_SPECIAL, T from MR_DECOMP, X and J from MR_FIRST, KD in TDIV's loop, VERD in the last
phases. The shared exponentiation keeps D, S and T for MRTEST alone. -/
@[simp] def MrRegs.live (ph : Phase) (op : BitVec 8) (r : MrRegs) : MrRegs :=
  match ph with
  | .mpInit | .mpLoop => if op = Instr.mrtest.opcode then ⟨r.d, r.s, r.t, 0, 0, 0, false⟩ else ⟨0, 0, 0, 0, 0, 0, false⟩
  | .mrDecomp => ⟨r.d, r.s, 0, 0, 0, 0, false⟩
  | .mrTrial | .mrWait | .mrFirst => ⟨r.d, r.s, r.t, 0, 0, 0, false⟩
  | .mrSq => ⟨r.d, r.s, r.t, r.x, r.j, 0, false⟩
  | .tdLoop => ⟨0, 0, 0, 0, 0, r.kd, false⟩
  | .miFin | .mrFin | .tdFin => ⟨0, 0, 0, 0, 0, 0, r.verd⟩
  | _ => ⟨0, 0, 0, 0, 0, 0, false⟩

/-- The state without what the command in progress can no longer read, or has not yet written. -/
def State.live (s : State) : State :=
  { s with
    op := if s.ph = .idle then 0#8 else s.op
    ret := liveRet s.ph s.ret
    mexp := s.mexp.live s.ph
    xg := s.xg.live s.ph s.mr.verd
    mr := s.mr.live s.ph s.op }

/-- The same of an outcome. -/
def Outcome.live : Host.Outcome State Fault Refusal → Host.Outcome State Fault Refusal
  | .next s => .next s.live
  | .fault f => .fault f
  | .refused r => .refused r

theorem live_withoutWorking (s : State) : s.live.withoutWorking = s.withoutWorking := rfl

/-- Between commands nothing of the working registers is live. -/
theorem live_of_idle {s : State} (h : s.ph = .idle) : s.live = s.withoutWorking := by
  simp [State.live, State.withoutWorking, liveRet, MexpRegs.live, XgcdRegs.live, MrRegs.live, h]

/-- A command's operands are no working registers. -/
theorem live_operand (s : State) (n : RegName) : s.live.operand n = s.operand n :=
  operand_congr rfl rfl rfl

/-! ### A micro-step commutes with it -/

theorem State.live_idem (s : State) : s.live.live = s.live := by
  have hph : s.live.ph = s.ph := rfl
  rw [State.live, hph]
  cases hp : s.ph
  case mpInit | mpLoop => by_cases hop : s.op = Instr.mrtest.opcode <;> simp [State.live, hp, hop]
  case miFin => cases hv : s.mr.verd <;> simp [State.live, hp, hv]
  all_goals
    simp only [State.live, hp]
    rfl

/-- The operands of the exponentiation are live when it takes them: D is, where the caller is MRTEST. -/
theorem live_mpOperands {s : State} (h : s.ph = .mpInit) : s.live.mpOperands = s.mpOperands := by
  have hop : s.live.op = s.op := by simp [State.live, h]
  simp only [State.mpOperands, hop, live_operand]
  split
  · simp [State.live, h, ‹s.op = _›]
  · rfl

theorem live_xgOperands {s : State} (h : s.ph = .xgInit) : s.live.xgOperands = s.xgOperands := by
  have hop : s.live.op = s.op := by simp [State.live, h]
  simp only [State.xgOperands, hop, live_operand]

/-- A micro-step reads no register that is not live, and leaves none live that it has not written. -/
theorem microStep_live {s : State} (hl : latchesFit s.ph s.op s.ret = true) :
    (microStep s.live).live = (microStep s).live := by
  have hph : s.live.ph = s.ph := rfl
  cases hp : s.ph <;> simp only [hp, latchesFit, Bool.or_eq_true, decide_eq_true_eq] at hl <;>
    simp only [microStep, hph, hp]
  case idle | mrWait => exact State.live_idem s
  case mpFin | xgFin | mrFin | tdFin => simp [mpFin, xgFin, mrFin, tdFin, finishVerdict, finish, State.live, hp]
  case miFin => cases hv : s.mr.verd <;> simp [miFin, finish, State.live, hp, hv]
  case mpCheck | xgCheck | miCheck | tdCheck | mrSpecial =>
    simp only [mpCheck, xgCheck, miCheck, mrSpecial, tdCheck, live_operand]
    split_ifs <;> simp [raiseFault, State.voidResults, State.live, hp, hl, Instr.opcode]
  case mpInit =>
    simp only [mpInit, live_mpOperands hp]
    by_cases hop : s.op = Instr.mrtest.opcode <;> simp [State.live, hp, hop]
  case xgInit =>
    simp only [xgInit, live_xgOperands hp]
    simp [State.live, hp]
  case mpLoop =>
    by_cases hk : s.mexp.k = 0
    · obtain ⟨hop, hret⟩ | ⟨hop, hret⟩ := hl <;> simp [mpLoop, State.live, hp, hk, hop, hret, Instr.opcode]
    · by_cases hop : s.op = Instr.mrtest.opcode <;> simp [mpLoop, State.live, hp, hk, hop]
  case xgLoop =>
    by_cases hg : s.xg.g1 = 0
    · obtain ⟨-, hret⟩ | ⟨-, hret⟩ := hl <;> simp [xgLoop, State.live, hp, hg, hret]
    · simp [xgLoop, State.live, hp, hg, XgcdRegs.pass]
  case miNorm =>
    simp only [miNorm, live_operand]
    by_cases hg : s.xg.g0 = 1 <;> simp [State.live, hp, hg]
  case mrDecomp | mrTrial | mrFirst | mrSq | tdLoop =>
    simp only [mrDecomp, mrTrial, mrFirst, mrSq, tdLoop, live_operand]
    simp only [State.live, hp, MexpRegs.live, MrRegs.live]
    split_ifs <;> rfl

/-! ### The host commutes with it -/

theorem Outcome.live_idem (o : Host.Outcome State Fault Refusal) : Outcome.live (Outcome.live o) = Outcome.live o := by
  cases o with
  | next s => exact congrArg Host.Outcome.next (State.live_idem s)
  | fault f => rfl
  | refused r => rfl

/-- A statement that commutes with `State.live` shows the same on the live part. -/
theorem Outcome.live_of_commutes {f : State → Host.Outcome State Fault Refusal} {s : State}
    (h : f s.live = Outcome.live (f s)) : Outcome.live (f s.live) = Outcome.live (f s) := by
  rw [h, Outcome.live_idem]

theorem live_setReg (s : State) (n : RegName) (r : BigReg) : (s.setReg n r).live = s.live.setReg n r := by
  cases n <;> rfl

theorem hostReadInt_live (n : RegName) (s : State) : hostReadInt n s.live = (hostReadInt n s).live := by
  have hreg : s.live.reg n = s.reg n := rfl
  have hread : s.live.hostMayRead n = s.hostMayRead n := rfl
  simp only [hostReadInt, hreg, hread]
  repeat' split
  all_goals rfl

theorem hostReadCell_live (n : RegName) (j : Nat) (s : State) : hostReadCell n j s.live = (hostReadCell n j s).live := by
  have hreg : s.live.reg n = s.reg n := rfl
  have hread : s.live.hostMayRead n = s.hostMayRead n := rfl
  simp only [hostReadCell, hreg, hread]
  repeat' split
  all_goals rfl

theorem hostWriteInt_live (n : RegName) (v : Int) (s : State) : hostWriteInt n v s.live = (hostWriteInt n v s).live := by
  have hstate : s.live.state = s.state := rfl
  simp only [hostWriteInt, hstate]
  split
  · exact (live_setReg s n _).symm
  · rfl

theorem hostWriteCell_live (n : RegName) (j : Nat) (w : Word) (s : State) :
    hostWriteCell n j w s.live = (hostWriteCell n j w s).live := by
  have hstate : s.live.state = s.state := rfl
  simp only [hostWriteCell, hstate]
  split
  · exact (live_setReg s n _).symm
  · rfl

theorem hostWriteTrials_live (w : Word) (s : State) : hostWriteTrials w s.live = (hostWriteTrials w s).live := by
  have hmay : s.live.mayAccept = s.mayAccept := rfl
  simp only [hostWriteTrials, hmay]
  split <;> rfl

theorem readTarget_live (t : PortTarget) (s : State) : readTarget t s.live = Outcome.live (readTarget t s) := by
  cases t
  case cell n j => exact congrArg Host.Outcome.next (hostReadCell_live n j s)
  all_goals rfl

theorem acceptCommand_live {i : Instr} (hi : i ≠ .resume) (s : State) :
    (acceptCommand i.opcode (firstPhase i) s.live).live = (acceptCommand i.opcode (firstPhase i) s).live := by
  have hmay : s.live.mayAccept = s.mayAccept := rfl
  simp only [acceptCommand, hmay]
  split
  · cases i
    case resume => exact absurd rfl hi
    all_goals rfl
  · exact State.live_idem s

theorem deliverWitness_live {s : State} (hp : s.ph = .mrWait) : (deliverWitness s.live).live = (deliverWitness s).live := by
  simp only [deliverWitness, live_operand]
  split
  · rfl
  · by_cases hop : s.op = Instr.mrtest.opcode <;> simp [State.live, hp, hop]

theorem exec_live {s : State} (hw : s.state = .waitRng → s.ph = .mrWait) (i : Instr) :
    Outcome.live (exec i s.live) = Outcome.live (exec i s) := by
  have hstate : s.live.state = s.state := rfl
  by_cases hi : i = .resume
  · subst hi
    simp only [exec_resume, hstate]
    split
    · exact congrArg Host.Outcome.next (deliverWitness_live (hw ‹_›))
    · exact congrArg Host.Outcome.next (State.live_idem s)
  · rw [exec_of_ne_resume hi, exec_of_ne_resume hi]
    exact congrArg Host.Outcome.next (acceptCommand_live hi s)

theorem illegalCommand_live (s : State) : (illegalCommand s.live).live = (illegalCommand s).live := by
  have hmay : s.live.mayAccept = s.mayAccept := rfl
  simp only [illegalCommand, hmay]
  split
  · rfl
  · exact State.live_idem s

theorem writeTarget_live {s : State} (hw : s.state = .waitRng → s.ph = .mrWait) (t : PortTarget) (w : Word) :
    Outcome.live (writeTarget t w s.live) = Outcome.live (writeTarget t w s) := by
  cases t
  case cmd =>
    simp only [writeTarget, writeCmd]
    split
    · exact exec_live hw _
    · exact congrArg Host.Outcome.next (illegalCommand_live s)
  case trials => exact Outcome.live_of_commutes (congrArg Host.Outcome.next (hostWriteTrials_live w s))
  case cell n j => exact Outcome.live_of_commutes (congrArg Host.Outcome.next (hostWriteCell_live n j w s))
  case status | unmapped | wordless => exact Outcome.live_of_commutes (f := writeTarget _ w) rfl

theorem portAccess_live (addr size : Nat) (s : State) {k k' : PortTarget → Host.Outcome State Fault Refusal}
    (h : ∀ t, Outcome.live (k t) = Outcome.live (k' t)) :
    Outcome.live (portAccess addr size s.live k) = Outcome.live (portAccess addr size s k') := by
  have hcfg : s.live.cfg = s.cfg := rfl
  simp only [portAccess, hcfg]
  repeat' split
  · rfl
  · rfl
  · rfl
  · exact h _

/-- A statement of the host reads no working register but those a RESUME goes on with. -/
theorem perform_live {s : State} (hw : s.state = .waitRng → s.ph = .mrWait) (st : HostStmt) :
    Outcome.live (perform st s.live) = Outcome.live (perform st s) := by
  cases st with
  | memRead addr size =>
    exact portAccess_live addr size s fun t => Outcome.live_of_commutes (readTarget_live t s)
  | memWrite addr size w => exact portAccess_live addr size s fun t => writeTarget_live hw t w
  | readInt n => exact Outcome.live_of_commutes (congrArg Host.Outcome.next (hostReadInt_live n s))
  | writeInt n v =>
    have hcfg : s.live.cfg = s.cfg := rfl
    simp only [perform, hcfg]
    split
    · exact Outcome.live_of_commutes (f := fun s => .next (hostWriteInt n v s))
        (congrArg Host.Outcome.next (hostWriteInt_live n v s))
    · rfl
  | poll =>
    refine Outcome.live_of_commutes (f := perform .poll) (congrArg Host.Outcome.next ?_)
    have hstate : s.live.state = s.state := rfl
    rw [hstate]
    split <;> rfl

/-! ### Steps and runs -/

theorem hostTurn_live {s : State} (hw : s.state = .waitRng → s.ph = .mrWait) :
    Outcome.live (hostTurn s.live) = Outcome.live (hostTurn s) := by
  cases hs : s.script with
  | nil =>
    rw [hostTurn_of_script_nil (s := s.live) hs, hostTurn_of_script_nil hs]
    exact congrArg Host.Outcome.next (State.live_idem s)
  | cons st sc =>
    rw [hostTurn_of_script_cons (s := s.live) hs, hostTurn_of_script_cons hs]
    exact perform_live (s := { s with script := sc }) hw st

theorem step_live {s : State} (hc : ControlInv s) : Outcome.live (step s.live) = Outcome.live (step s) := by
  match ht : s.turns with
  | .engine :: ts =>
    rw [step_of_turns_engine (s := s.live) ht, step_of_turns_engine ht]
    exact congrArg Host.Outcome.next (microStep_live (s := { s with turns := ts }) hc.latches)
  | .host :: ts =>
    rw [step_of_turns_host (s := s.live) ht, step_of_turns_host ht]
    exact hostTurn_live (s := { s with turns := ts }) hc.wait_iff.2
  | .rst :: ts =>
    rw [step_of_turns_rst (s := s.live) ht, step_of_turns_rst ht]
    rfl
  | [] =>
    by_cases hb : s.state = .busy
    · rw [step_of_turns_nil_busy (s := s.live) ht hb, step_of_turns_nil_busy ht hb]
      exact congrArg Host.Outcome.next (microStep_live hc.latches)
    · rw [step_of_turns_nil_not_busy (s := s.live) ht hb, step_of_turns_nil_not_busy ht hb]
      exact hostTurn_live hc.wait_iff.2

/-- Outcomes with one live part go on together, or stop alike. -/
theorem Outcome.live_eq_cases {o o' : Host.Outcome State Fault Refusal} (h : Outcome.live o = Outcome.live o') :
    (∃ s s', o = .next s ∧ o' = .next s' ∧ s.live = s'.live) ∨ (o = o' ∧ ∀ s, o ≠ .next s) := by
  cases o <;> cases o' <;> simp_all [Outcome.live]

theorem run_succ_of_next (M : Host.Core) {s s' : M.State} (h : M.step s = .next s') (n : Nat) :
    M.run (n + 1) s = M.run n s' := by
  rw [Host.Core.run, h]

theorem run_succ_of_stop (M : Host.Core) {s : M.State} (h : ∀ s', M.step s ≠ .next s') (n : Nat) :
    M.run (n + 1) s = M.step s := by
  rw [Host.Core.run]
  split
  · exact absurd ‹_› (h _)
  · exact ‹M.step s = _›.symm
  · exact ‹M.step s = _›.symm

/-- Two states with one live part run alike. -/
theorem core_run_live (n : Nat) : ∀ s t : State, ControlInv s → ControlInv t → s.live = t.live →
    Outcome.live (Sys2Proof.core.run n s) = Outcome.live (Sys2Proof.core.run n t) := by
  induction n with
  | zero => exact fun s t _ _ h => congrArg Host.Outcome.next h
  | succ n ih =>
    intro s t hs ht h
    have hstep : Outcome.live (step s) = Outcome.live (step t) := by rw [← step_live hs, h, step_live ht]
    obtain ⟨s', t', es, et, h'⟩ | ⟨e, hstop⟩ := Outcome.live_eq_cases hstep
    · have hs' : Sys2Proof.core.run (n + 1) s = Sys2Proof.core.run n s' := run_succ_of_next Sys2Proof.core es n
      have ht' : Sys2Proof.core.run (n + 1) t = Sys2Proof.core.run n t' := run_succ_of_next Sys2Proof.core et n
      rw [hs', ht']
      exact ih s' t' (stepKeepsControl s s' hs es) (stepKeepsControl t t' ht et) h'
    · have hstop' : ∀ u, step t ≠ .next u := by rwa [← e]
      have hs' : Sys2Proof.core.run (n + 1) s = step s := run_succ_of_stop Sys2Proof.core hstop n
      have ht' : Sys2Proof.core.run (n + 1) t = step t := run_succ_of_stop Sys2Proof.core hstop' n
      rw [hs', ht', e]

/-- Between commands the control invariant does not speak of the working registers. -/
theorem control_withoutWorking_iff {s : State} (h : s.ph = .idle) : ControlInv s.withoutWorking ↔ ControlInv s :=
  ⟨fun ⟨hidle, hwait, hrequest, hverdict, herr, hvoid, _⟩ =>
      ⟨hidle, hwait, hrequest, hverdict, herr, hvoid, by rw [h]; rfl⟩,
    fun ⟨hidle, hwait, hrequest, hverdict, herr, hvoid, _⟩ =>
      ⟨hidle, hwait, hrequest, hverdict, herr, hvoid, by simp [State.withoutWorking, latchesFit, h]⟩⟩

theorem Outcome.withoutWorking_live (o : Host.Outcome State Fault Refusal) :
    Outcome.withoutWorking (Outcome.live o) = Outcome.withoutWorking o := by
  cases o <;> rfl

/-- Settles O33: between commands two states that differ in working registers only have one live part, and a run keeps that. -/
theorem workingRegistersAreUnobservable : Obligations.WorkingRegistersAreUnobservable := by
  intro n s t hs hrest h
  have hidle : s.ph = .idle := hs.idle_iff.2 hrest
  have hidle' : t.ph = .idle := (congrArg State.ph h).symm.trans hidle
  have ht : ControlInv t := by rwa [← control_withoutWorking_iff hidle', ← h, control_withoutWorking_iff hidle]
  have hlive : s.live = t.live := by rw [live_of_idle hidle, live_of_idle hidle', h]
  calc Outcome.withoutWorking (Sys2Proof.core.run n s)
      = Outcome.withoutWorking (Outcome.live (Sys2Proof.core.run n s)) := (Outcome.withoutWorking_live _).symm
    _ = Outcome.withoutWorking (Outcome.live (Sys2Proof.core.run n t)) :=
        congrArg Outcome.withoutWorking (core_run_live n s t hs ht hlive)
    _ = Outcome.withoutWorking (Sys2Proof.core.run n t) := Outcome.withoutWorking_live _

end Sys2Proof.Machine
end

section
/-! PROOFS. The register map (spec 20_memory.md R62, R71): where each cell of a register stands, and what the port does with a word
access to it (R61). -/

namespace Sys2Proof.Machine

/-! ### The order of the registers (R21) -/

theorem RegName.index_lt (r : RegName) : r.index < 7 := by
  cases r <;> decide

@[simp] theorem RegName.ofIndex_index (r : RegName) : RegName.ofIndex r.index = some r := by
  cases r <;> rfl

theorem RegName.ofIndex_of_ge {i : Nat} (h : 7 ≤ i) : RegName.ofIndex i = none := by
  obtain ⟨k, rfl⟩ := Nat.exists_eq_add_of_le' h
  rfl

theorem RegName.index_of_ofIndex {i : Nat} {r : RegName} (h : RegName.ofIndex i = some r) : r.index = i := by
  have hi : i < 7 := by
    by_contra hge
    rw [RegName.ofIndex_of_ge (not_lt.1 hge)] at h
    cases h
  interval_cases i <;> cases h <;> rfl

/-! ### What stands at an offset -/

theorem Config.stride_pos (n : Nat) : 0 < Config.stride n := by
  unfold Config.stride
  omega

/-- From 0x010 on the map is read off the register's number and the offset within its STRIDE (R62). -/
theorem Config.target_of_ge {c : Config} {n off : Nat} (hn : c.nlimbs = some n) (h : 0x010 ≤ off) :
    c.target off = ((RegName.ofIndex ((off - 0x010) / Config.stride n)).elim .unmapped fun r =>
      .cell r ((off - 0x010) % Config.stride n / 4)) := by
  unfold Config.target
  rw [if_neg (by omega), if_neg (by omega), if_neg (by omega), if_neg (by omega)]
  simp only [hn]
  cases RegName.ofIndex ((off - 0x010) / Config.stride n) <;> rfl

@[simp] theorem Config.target_00C (c : Config) : c.target 0x00C = .unmapped := rfl

theorem Config.target_cell {c : Config} {n j : Nat} (hn : c.nlimbs = some n) (r : RegName) (hj : j ≤ n) :
    c.target (0x010 + r.index * Config.stride n + 4 * j) = .cell r j := by
  have hlt : 4 * j < Config.stride n := by unfold Config.stride; omega
  have hoff : 0x010 + r.index * Config.stride n + 4 * j - 0x010 = 4 * j + r.index * Config.stride n := by omega
  rw [Config.target_of_ge hn (by omega), hoff, Nat.add_mul_div_right _ _ (Config.stride_pos n), Nat.div_eq_of_lt hlt,
    Nat.add_mul_mod_self_right, Nat.mod_eq_of_lt hlt, Nat.mul_div_cancel_left j (by decide), Nat.zero_add,
    RegName.ofIndex_index]
  rfl

theorem Config.target_beyond {c : Config} {n off : Nat} (hn : c.nlimbs = some n)
    (h : 0x010 + 7 * Config.stride n ≤ off) : c.target off = .unmapped := by
  have hreg : 7 ≤ (off - 0x010) / Config.stride n := (Nat.le_div_iff_mul_le (Config.stride_pos n)).2 (by omega)
  rw [Config.target_of_ge hn (by omega), RegName.ofIndex_of_ge hreg]
  rfl

theorem Config.target_wordless {c : Config} {off : Nat} (hn : c.nlimbs = none) (h : 0x010 ≤ off) :
    c.target off = .wordless := by
  unfold Config.target
  rw [if_neg (by omega), if_neg (by omega), if_neg (by omega), if_neg (by omega)]
  simp only [hn]

/-- The one aligned offset at which a cell can stand. -/
theorem Config.offset_of_target_cell {c : Config} {n off : Nat} {r : RegName} {j : Nat} (hn : c.nlimbs = some n)
    (halign : off % 4 = 0) (h : c.target off = .cell r j) : off = 0x010 + r.index * Config.stride n + 4 * j := by
  have hge : 0x010 ≤ off := by
    by_contra hlt
    obtain rfl | rfl | rfl | rfl : off = 0x000 ∨ off = 0x004 ∨ off = 0x008 ∨ off = 0x00C := by omega
    all_goals cases h
  rw [Config.target_of_ge hn hge] at h
  cases hr : RegName.ofIndex ((off - 0x010) / Config.stride n) with
  | none =>
    rw [hr] at h
    cases h
  | some r' =>
    rw [hr] at h
    cases h
    have hdiv := Nat.div_add_mod' (off - 0x010) (Config.stride n)
    have hquarter : (off - 0x010) % Config.stride n % 4 = 0 := by
      rw [Nat.mod_mod_of_dvd _ (Dvd.intro (n + 1) rfl : 4 ∣ Config.stride n)]
      omega
    rw [RegName.index_of_ofIndex hr]
    omega

/-- Settles O37: a cell's offset determines it and is determined by it. -/
theorem registerMapLayout : Obligations.RegisterMapLayout := by
  intro c n hn
  refine ⟨rfl, rfl, rfl, rfl, ?cells, fun _ => Config.target_beyond hn, ?distinct, fun _ => Config.target_wordless rfl⟩
  case cells =>
    intro r j hj
    have htarget := Config.target_cell hn r hj
    cases r <;> exact htarget
  case distinct =>
    intro off off' r j halign halign' h h'
    rw [Config.offset_of_target_cell hn halign h, Config.offset_of_target_cell hn halign' h']

/-! ### Word accesses to a cell -/

theorem cellAddr_eq (c : Config) (n : Nat) (r : RegName) (j : Nat) :
    cellAddr c n r j = c.base + (0x010 + r.index * Config.stride n + 4 * j) := by
  unfold cellAddr
  omega

theorem cellOffset_mod_four (n i j : Nat) : (0x010 + i * Config.stride n + 4 * j) % 4 = 0 := by
  have hdvd : 4 ∣ i * Config.stride n := Dvd.dvd.mul_left ⟨n + 1, rfl⟩ i
  omega

theorem perform_memWrite_cellAddr {s : State} {n j : Nat} (hn : s.cfg.nlimbs = some n) (r : RegName) (hj : j ≤ n) (w : Word) :
    perform (.memWrite (cellAddr s.cfg n r j) 4 w) s = .next (hostWriteCell r j w s) := by
  rw [cellAddr_eq, perform_memWrite_base_add s (cellOffset_mod_four n r.index j), Config.target_cell hn r hj]
  rfl

theorem perform_memRead_cellAddr {s : State} {n j : Nat} (hn : s.cfg.nlimbs = some n) (r : RegName) (hj : j ≤ n) :
    perform (.memRead (cellAddr s.cfg n r j) 4) s = .next (hostReadCell r j s) := by
  rw [cellAddr_eq, perform_memRead_base_add s (cellOffset_mod_four n r.index j), Config.target_cell hn r hj]
  rfl

end Sys2Proof.Machine
end

section
/-! PROOFS. The cells of a register (spec 20_memory.md R63 to R65): what each reads, that they determine the register, and that the
word writes of a whole-register transfer, in any order, store its Integer. -/

namespace Sys2Proof.Machine

/-! ### What a cell reads -/

theorem BigReg.readCell_of_mem {r : BigReg} {j : Nat} (h : j ∈ r.unwritten) : r.readCell j = none := by
  simp only [BigReg.readCell, h, if_true]

theorem BigReg.readCell_zero {r : BigReg} (h : 0 ∉ r.unwritten) : r.readCell 0 = some (if r.neg then 1#32 else 0#32) := by
  simp only [BigReg.readCell, h, if_false]

theorem BigReg.readCell_succ {r : BigReg} {j : Nat} (h : j + 1 ∉ r.unwritten) : r.readCell (j + 1) = some (limb r.mag j) := by
  simp only [BigReg.readCell, h, if_false]

theorem BigReg.notMem_of_readCell {r : BigReg} {j : Nat} {w : Word} (h : r.readCell j = some w) : j ∉ r.unwritten := by
  intro hm
  rw [BigReg.readCell_of_mem hm] at h
  cases h

@[simp] theorem BigReg.readCell_ofInt (v : Int) (j : Nat) : (BigReg.ofInt v).readCell j = some (cellWord v j) := by
  cases j with
  | zero => simp [BigReg.readCell, BigReg.ofInt, cellWord]
  | succ j => rfl

/-! ### The Integer of the limbs -/

/-- Limb j is digit j to base 2^32, so the first `n` limbs add up to the magnitude below 2^(32*n). -/
theorem sum_limbs (m n : Nat) :
    ((List.range n).map fun j => ((limb m j).toNat : Int) * 2 ^ (32 * j)).sum = ((m % 2 ^ (32 * n) : Nat) : Int) := by
  induction n with
  | zero => simp [Nat.mod_one]
  | succ n ih =>
    have hdigit : (limb m n).toNat = m / 2 ^ (32 * n) % 2 ^ 32 := BitVec.toNat_ofNat _ _
    rw [List.range_succ, List.map_append, List.sum_append, ih, List.map_singleton, List.sum_singleton, hdigit, Nat.mul_succ,
      pow_add, Nat.mod_mul]
    push_cast
    ring

theorem BigReg.mag_lt {c : Config} {n : Nat} {r : BigReg} (hn : c.nlimbs = some n) (h : r.wf c = true) :
    r.mag < 2 ^ (32 * n) := by
  simp only [BigReg.wf, hn, Bool.and_eq_true, decide_eq_true_eq] at h
  exact h.2.1

/-- Settles O38: the limbs of a magnitude within the register's width add up to it. -/
theorem registerValueFromCells : Obligations.RegisterValueFromCells := by
  intro c n r hn hwf
  refine ⟨fun hall => ?value, fun hsome => if_neg hsome, BigReg.readCell_zero, fun _ => BigReg.readCell_succ⟩
  case value =>
    rw [sum_limbs, Nat.mod_eq_of_lt (BigReg.mag_lt hn hwf), BigReg.value, if_pos hall, BigReg.int]
    cases r.neg <;> simp

/-! ### A cell written and read -/

theorem BigReg.readCell_writeCell_zero (r : BigReg) (w : Word) : (r.writeCell 0 w).readCell 0 = some (w &&& 1#32) := by
  have hbit : (if w.getLsbD 0 then 1#32 else 0#32) = w &&& 1#32 := by
    rw [BitVec.and_one_eq_setWidth_ofBool_getLsbD]
    cases w.getLsbD 0 <;> rfl
  rw [BigReg.readCell_zero (by simp [BigReg.writeCell]), ← hbit]
  rfl

theorem BigReg.readCell_writeCell_succ (r : BigReg) (j : Nat) (w : Word) :
    (r.writeCell (j + 1) w).readCell (j + 1) = some w := by
  rw [BigReg.readCell_succ (by simp [BigReg.writeCell])]
  exact congrArg some (limb_setLimb_same r.mag j w)

theorem BigReg.writeCell_succ_neg (r : BigReg) (j : Nat) (w : Word) : (r.writeCell (j + 1) w).neg = r.neg := by
  rw [BigReg.writeCell]

theorem BigReg.limb_writeCell_other (r : BigReg) {i j : Nat} (w : Word) (h : i + 1 ≠ j) :
    limb (r.writeCell j w).mag i = limb r.mag i := by
  cases j with
  | zero => rfl
  | succ j => exact limb_setLimb_other r.mag w (by omega)

theorem BigReg.mem_unwritten_writeCell {r : BigReg} {i j : Nat} {w : Word} :
    i ∈ (r.writeCell j w).unwritten ↔ i ∈ r.unwritten ∧ i ≠ j := by
  cases j <;> simp [BigReg.writeCell]

theorem BigReg.readCell_writeCell_other (r : BigReg) {i j : Nat} (w : Word) (h : i ≠ j) :
    (r.writeCell j w).readCell i = r.readCell i := by
  by_cases hm : i ∈ r.unwritten
  · rw [BigReg.readCell_of_mem hm, BigReg.readCell_of_mem (BigReg.mem_unwritten_writeCell.2 ⟨hm, h⟩)]
  · have hm' : i ∉ (r.writeCell j w).unwritten := fun hi => hm (BigReg.mem_unwritten_writeCell.1 hi).1
    cases i with
    | zero =>
      obtain ⟨k, rfl⟩ := Nat.exists_eq_succ_of_ne_zero h.symm
      rw [BigReg.readCell_zero hm, BigReg.readCell_zero hm', BigReg.writeCell_succ_neg]
    | succ i => rw [BigReg.readCell_succ hm, BigReg.readCell_succ hm', BigReg.limb_writeCell_other r w h]

/-- Settles O39: a write of one limb leaves the others (`limb_setLimb_other`), and the sign word is apart from them. -/
theorem cellReadAfterWrite : Obligations.CellReadAfterWrite :=
  fun r w => ⟨r.readCell_writeCell_zero w, fun j => r.readCell_writeCell_succ j w, fun _ _ => r.readCell_writeCell_other w⟩

/-- A word that the cell holds whole, as every word of a transfer is, reads back as written. -/
theorem BigReg.readCell_writeCell_cellWord (r : BigReg) (v : Int) (j : Nat) :
    (r.writeCell j (cellWord v j)).readCell j = some (cellWord v j) := by
  cases j with
  | zero =>
    rw [BigReg.readCell_writeCell_zero, cellWord]
    split <;> rfl
  | succ j => exact BigReg.readCell_writeCell_succ r j _

/-! ### The cells determine the register -/

theorem BigReg.unwritten_eq_nil {c : Config} {n : Nat} {r : BigReg} (hn : c.nlimbs = some n) (h : r.wf c = true)
    (hall : ∀ j ≤ n, j ∉ r.unwritten) : r.unwritten = [] := by
  simp only [BigReg.wf, hn, Bool.and_eq_true, decide_eq_true_eq, Config.cells] at h
  obtain ⟨⟨⟨-, hcells⟩, -⟩, -⟩ := h
  exact List.eq_nil_iff_forall_not_mem.2 fun j hj => hall j (Nat.le_of_lt_succ (hcells j hj)) hj

/-- Two registers in canonical form all of whose cells are written, with the same words, are one. -/
theorem BigReg.eq_of_readCell {c : Config} {n : Nat} {r r' : BigReg} {f : Nat → Word} (hn : c.nlimbs = some n)
    (hwf : r.wf c = true) (hwf' : r'.wf c = true) (h : ∀ j ≤ n, r.readCell j = some (f j))
    (h' : ∀ j ≤ n, r'.readCell j = some (f j)) : r = r' := by
  have hall : r.unwritten = [] := BigReg.unwritten_eq_nil hn hwf fun j hj => BigReg.notMem_of_readCell (h j hj)
  have hall' : r'.unwritten = [] := BigReg.unwritten_eq_nil hn hwf' fun j hj => BigReg.notMem_of_readCell (h' j hj)
  have hneg : r.neg = r'.neg := by
    have hword := (h 0 n.zero_le).trans (h' 0 n.zero_le).symm
    rw [BigReg.readCell_zero (by simp [hall]), BigReg.readCell_zero (by simp [hall'])] at hword
    cases hr : r.neg <;> cases hr' : r'.neg <;> simp [hr, hr'] at hword ⊢
  have hmag : r.mag = r'.mag := by
    refine mag_eq_of_limbs (BigReg.mag_lt hn hwf) (BigReg.mag_lt hn hwf') fun j hj => ?_
    have hword := (h (j + 1) hj).trans (h' (j + 1) hj).symm
    rw [BigReg.readCell_succ (by simp [hall]), BigReg.readCell_succ (by simp [hall'])] at hword
    exact Option.some.inj hword
  cases r
  cases r'
  cases hneg
  cases hmag
  cases hall.trans hall'.symm
  rfl

/-! ### The word writes of a transfer -/

/-- The cells of `order` written one after the other with the words of `v`. -/
def BigReg.writeCells (order : List Nat) (v : Int) (r : BigReg) : BigReg :=
  order.foldl (fun t j => t.writeCell j (cellWord v j)) r

theorem BigReg.writeCells_wf {c : Config} {n : Nat} (hn : c.nlimbs = some n) (v : Int) (order : List Nat) :
    ∀ r : BigReg, r.wf c = true → (∀ j ∈ order, j ≤ n) → (r.writeCells order v).wf c = true := by
  induction order with
  | nil => exact fun r h _ => h
  | cons i order ih =>
    intro r h hle
    exact ih _ (BigReg.writeCell_wf hn (Nat.lt_succ_of_le (hle i (by simp))) h) fun j hj => hle j (by simp [hj])

/-- A later write of another cell leaves a cell alone, and one of the same cell writes the same word again. -/
theorem BigReg.readCell_writeCells {v : Int} {j : Nat} (order : List Nat) :
    ∀ r : BigReg, j ∈ order ∨ r.readCell j = some (cellWord v j) →
      (r.writeCells order v).readCell j = some (cellWord v j) := by
  induction order with
  | nil => exact fun r h => h.resolve_left (by simp)
  | cons i order ih =>
    intro r h
    refine ih _ ?_
    by_cases hij : j = i
    · subst hij
      exact .inr (r.readCell_writeCell_cellWord v j)
    · rw [BigReg.readCell_writeCell_other r _ hij]
      exact h.imp_left fun hm => (List.mem_cons.1 hm).resolve_left hij

/-- Every cell written with the words of `v`, in any order and whatever the register held, gives the register of `v`. -/
theorem BigReg.writeCells_eq_ofInt {c : Config} {n : Nat} {r : BigReg} {v : Int} {order : List Nat} (hn : c.nlimbs = some n)
    (hwf : r.wf c = true) (hfits : c.fits v = true) (hmem : ∀ j, j ∈ order ↔ j ≤ n) : r.writeCells order v = .ofInt v :=
  BigReg.eq_of_readCell hn (BigReg.writeCells_wf hn v order r hwf fun j hj => (hmem j).1 hj) (BigReg.ofInt_wf hfits)
    (fun j hj => BigReg.readCell_writeCells order r (.inl ((hmem j).2 hj))) fun j _ => BigReg.readCell_ofInt v j

theorem setReg_setReg (s : State) (n : RegName) (r r' : BigReg) : (s.setReg n r).setReg n r' = s.setReg n r' := by
  cases n <;> rfl

/-- Where the table stores (R69), the word writes of the host write the register's cells. -/
theorem foldl_hostWriteCell (n : RegName) (v : Int) (order : List Nat) : ∀ s : State, hostMayWrite n s.state = true →
    order.foldl (fun t j => hostWriteCell n j (cellWord v j) t) s = s.setReg n ((s.reg n).writeCells order v) := by
  induction order with
  | nil => exact fun s _ => (setReg_eq_self s n).symm
  | cons j order ih =>
    intro s hw
    have hfirst : hostWriteCell n j (cellWord v j) s = s.setReg n ((s.reg n).writeCell j (cellWord v j)) := if_pos hw
    rw [List.foldl_cons, hfirst, ih _ (by rwa [setReg_state]), setReg_setReg, reg_setReg_same]
    rfl

/-- Settles O40: both ways store the one register that has the words of `v` in its cells. -/
theorem wordWritesStoreTheInteger : Obligations.WordWritesStoreTheInteger := by
  intro s n r v order hn hregs hfits hw hperm
  have hmem : ∀ j, j ∈ order ↔ j ≤ n := fun j => by rw [hperm.mem_iff, List.mem_range, Nat.lt_succ_iff]
  have hstore : hostWriteInt r v s = s.setReg r (.ofInt v) := if_pos hw
  rw [foldl_hostWriteCell r v order s hw, BigReg.writeCells_eq_ofInt hn (hregs.regs_wf r) hfits hmem, hstore]
  exact ⟨rfl, reg_setReg_same s r _⟩

/-! ### Negative zero (R65) -/

/-- A register that is not negative zero. -/
def BigReg.notNegZero (r : BigReg) : Prop := r.mag = 0 → r.neg = false

theorem BigReg.notNegZero_ofInt (v : Int) : (BigReg.ofInt v).notNegZero := by
  intro h
  obtain rfl : v = 0 := Int.natAbs_eq_zero.1 h
  rfl

theorem BigReg.notNegZero_void (n : Nat) : (BigReg.void n).notNegZero := fun _ => rfl

theorem finish_reg {x y z : BigReg} (hx : x.notNegZero) (hy : y.notNegZero) (hz : z.notNegZero) (v : Bool) (s : State)
    (n : RegName) : (finish x y z v s).reg n = s.reg n ∨ ((finish x y z v s).reg n).notNegZero := by
  cases n
  case a | b | m | w => exact .inl rfl
  case r0 => exact .inr hx
  case r1 => exact .inr hy
  case r2 => exact .inr hz

theorem voidResults_reg (s : State) (n : RegName) : s.voidResults.reg n = s.reg n ∨ (s.voidResults.reg n).notNegZero := by
  cases n
  case a | b | m | w => exact .inl rfl
  case r0 | r1 | r2 => exact .inr (BigReg.notNegZero_void _)

theorem exec_reg {i : Instr} {s s' : State} (h : exec i s = .next s') (n : RegName) :
    s'.reg n = s.reg n ∨ (s'.reg n).notNegZero := by
  obtain rfl | ⟨-, -, rfl⟩ | ⟨-, -, rfl⟩ | ⟨-, -, rfl⟩ := exec_cases h
  · exact .inl rfl
  · exact voidResults_reg s n
  · exact voidResults_reg s n
  · exact .inl rfl

/-- The last micro-step of a command stores its results as Integers or leaves them void; a fault leaves them void; no other
micro-step writes a register. -/
theorem microStep_reg (s : State) (n : RegName) :
    (microStep s).reg n = s.reg n ∨ ((microStep s).reg n).notNegZero := by
  have hvoid := BigReg.notNegZero_void s.cfg.cells
  cases hp : s.ph <;> simp only [microStep, hp]
  case idle | mrWait => exact .inl trivial
  case mpInit | xgInit => exact .inl rfl
  case mpFin => exact finish_reg (BigReg.notNegZero_ofInt _) hvoid hvoid _ s n
  case xgFin => exact finish_reg (BigReg.notNegZero_ofInt _) (BigReg.notNegZero_ofInt _) (BigReg.notNegZero_ofInt _) _ s n
  case miFin =>
    refine finish_reg ?_ hvoid hvoid _ s n
    split
    · exact BigReg.notNegZero_ofInt _
    · exact hvoid
  case mrFin | tdFin => exact finish_reg hvoid hvoid hvoid _ s n
  case mpCheck | xgCheck | miCheck =>
    simp only [mpCheck, xgCheck, miCheck]
    split
    · exact voidResults_reg s n
    · exact .inl rfl
  case mpLoop | xgLoop | miNorm | mrSpecial | mrDecomp | mrTrial | mrFirst | mrSq | tdCheck | tdLoop =>
    simp only [mpLoop, xgLoop, miNorm, mrSpecial, mrDecomp, mrTrial, mrFirst, mrSq, tdCheck, tdLoop]
    repeat' split
    all_goals exact .inl rfl

/-- Settles O41: the words of an Integer are its cells' words, and no register that the engine changes is negative zero. -/
theorem storedCellsOfAnInteger : Obligations.StoredCellsOfAnInteger := by
  refine ⟨fun v j => ⟨BigReg.readCell_ofInt v 0, BigReg.readCell_ofInt v (j + 1)⟩, BigReg.notNegZero_ofInt, rfl, ?_⟩
  rintro s s' n (rfl | ⟨i, h⟩) hchanged
  · exact (microStep_reg s n).resolve_left hchanged
  · exact (exec_reg h n).resolve_left hchanged

end Sys2Proof.Machine
end

section
/-! PROOFS. The access table (spec 20_memory.md R69 to R71): what the port does with each read and write of the host, that no read
changes the machine (R68), what the port refuses (R66, R67; 00_scope.md R10), and that a write to CMD runs the command (R61, R75). -/

namespace Sys2Proof.Machine

/-! ### Accesses of the port -/

theorem perform_memRead (addr size : Nat) (s : State) :
    perform (.memRead addr size) s = portAccess addr size s fun t => readTarget t s := rfl

theorem perform_memWrite (addr size : Nat) (w : Word) (s : State) :
    perform (.memWrite addr size w) s = portAccess addr size s fun t => writeTarget t w s := rfl

/-! ### The write rows -/

theorem hostMayWrite_iff {n : RegName} {st : EngState} : hostMayWrite n st = true ↔
    ((n = .a ∨ n = .b ∨ n = .m) ∧ (st = .idle ∨ st = .done)) ∨ (n = .w ∧ st = .waitRng) := by
  cases n <;> simp [hostMayWrite]

theorem perform_writeInt {s : State} {v : Int} (h : s.cfg.fits v = true) (n : RegName) :
    perform (.writeInt n v) s = .next (hostWriteInt n v s) := if_pos h

theorem perform_writeInt_tooWide {s : State} {v : Int} (h : s.cfg.fits v = false) (n : RegName) :
    perform (.writeInt n v) s = .refused .operandTooWide := if_neg (by simp [h])

/-- Settles O42: what is stored where is `hostMayWrite`, and the register map says which place an address is. -/
theorem writeAccessTable : Obligations.WriteAccessTable := by
  intro s
  refine ⟨fun r v hfits => ?whole, fun w => ⟨?status, ?reserved⟩,
    fun n w hn => ⟨fun r j hj => ?cell, fun off halign hge => ?beyond⟩⟩
  case whole => simp only [perform_writeInt hfits, hostWriteInt, hostMayWrite_iff]
  case status =>
    rw [perform_memWrite_base_add s rfl, Config.target_status]
    rfl
  case reserved =>
    rw [perform_memWrite_base_add s rfl, Config.target_00C]
    rfl
  case cell => simp only [perform_memWrite_cellAddr hn r hj, hostWriteCell, hostMayWrite_iff]
  case beyond =>
    rw [perform_memWrite_base_add s halign, Config.target_beyond hn hge]
    rfl

/-! ### The read rows -/

theorem hostMayRead_iff {s : State} {n : RegName} : s.hostMayRead n = true ↔
    n = .a ∨ n = .b ∨ n = .m ∨ (n = .w ∧ s.state = .waitRng) ∨
      ((n = .r0 ∨ n = .r1 ∨ n = .r2) ∧ s.state = .done ∧ s.err = .none) := by
  cases n <;> simp [State.hostMayRead]

theorem perform_readInt_current {s : State} {n : RegName} {v : Int} (hr : s.hostMayRead n = true)
    (hv : (s.reg n).value = some v) : perform (.readInt n) s = .next (s.answer (.int v)) := by
  simp only [perform, hostReadInt, hv, hr, if_true]

theorem perform_readInt_free {s : State} {n : RegName} (h : ¬ s.hostMayRead n = true ∨ (s.reg n).value = none) :
    perform (.readInt n) s = .next s.answerFreeInt := by
  simp only [perform, hostReadInt]
  split
  · rename_i v hv
    rw [if_neg (h.resolve_right (by simp [hv]))]
  · rfl

theorem hostReadCell_current {s : State} {n : RegName} {j : Nat} {w : Word} (hr : s.hostMayRead n = true)
    (hw : (s.reg n).readCell j = some w) : hostReadCell n j s = s.answer (.word w) := by
  simp only [hostReadCell, hw, hr, if_true]

theorem hostReadCell_free {s : State} {n : RegName} {j : Nat}
    (h : ¬ s.hostMayRead n = true ∨ (s.reg n).readCell j = none) : hostReadCell n j s = s.answerFreeWord := by
  unfold hostReadCell
  split
  · rename_i w hw
    rw [if_neg (h.resolve_right (by simp [hw]))]
  · rfl

/-- A written cell reads as the sign word or as a limb (R63). -/
theorem BigReg.readCell_of_notMem {r : BigReg} {j : Nat} (h : j ∉ r.unwritten) :
    r.readCell j = some (if j = 0 then if r.neg then 1#32 else 0#32 else BitVec.ofNat 32 (r.mag / 2 ^ (32 * (j - 1)))) := by
  cases j with
  | zero => rw [BigReg.readCell_zero h, if_pos rfl]
  | succ j => rw [BigReg.readCell_succ h, if_neg j.succ_ne_zero, limb, Nat.add_sub_cancel]

/-- Settles O43: `hostMayRead` says when the content is current, and a written cell or a register with a value has a content. -/
theorem readAccessTable : Obligations.ReadAccessTable := by
  intro s
  refine ⟨fun r => ?registers, fun off halign hoff => ?unspecified⟩
  case registers =>
    simp only [← hostMayRead_iff]
    refine ⟨fun v hr hv => perform_readInt_current hr hv, fun h => perform_readInt_free h, fun n j hn hj => ?_⟩
    rw [perform_memRead_cellAddr hn r hj]
    refine ⟨fun hr hw => ?_, fun h => ?_⟩
    · rw [hostReadCell_current hr (BigReg.readCell_of_notMem hw)]
      rfl
    · rw [hostReadCell_free (h.imp_right BigReg.readCell_of_mem)]
      rfl
  case unspecified =>
    rw [perform_memRead_base_add s halign]
    obtain rfl | rfl | ⟨n, hn, hge⟩ := hoff
    · rfl
    · rfl
    · rw [Config.target_beyond hn hge]
      rfl

/-- Settles O46: the result rows of the table of whole-register reads. -/
theorem resultReads : Obligations.ResultReads := by
  intro s n hn
  have hread : s.hostMayRead n = true ↔ s.state = .done ∧ s.err = .none := by
    obtain rfl | rfl | rfl := hn <;> simp [State.hostMayRead]
  refine ⟨fun v hdone herr hv => perform_readInt_current (hread.2 ⟨hdone, herr⟩) hv, fun h => perform_readInt_free ?_⟩
  rw [hread, not_and_or, or_assoc]
  exact h

/-! ### No read has a side effect (R68) -/

/-- What a read may change: the answers given and the number of free values drawn. -/
def ReadFrame (s s' : State) : Prop := s' = { s with replies := s'.replies, draws := s'.draws }

theorem hostReadInt_frame (n : RegName) (s : State) : ReadFrame s (hostReadInt n s) := by
  unfold hostReadInt
  repeat' split
  all_goals rfl

theorem hostReadCell_frame (n : RegName) (j : Nat) (s : State) : ReadFrame s (hostReadCell n j s) := by
  unfold hostReadCell
  repeat' split
  all_goals rfl

theorem readTarget_frame {t : PortTarget} {s s' : State} (h : readTarget t s = .next s') : ReadFrame s s' := by
  cases t <;> cases h
  case cell n j => exact hostReadCell_frame n j s
  case cmd | status | trials | unmapped => rfl

/-- An access that the port answers reaches something of the register map. -/
theorem target_of_portAccess_next {addr size : Nat} {s s' : State} {k : PortTarget → Host.Outcome State Fault Refusal}
    (h : portAccess addr size s k = .next s') : ∃ t, k t = .next s' := by
  unfold portAccess at h
  repeat' split at h
  case isFalse => exact ⟨_, h⟩
  all_goals cases h

/-- Settles O45: every read the port answers ends in one of the model's answers. -/
theorem readsHaveNoSideEffect : Obligations.ReadsHaveNoSideEffect := by
  refine fun s s' => ⟨fun addr size h => ?word, fun r h => ?whole, fun h => ?poll⟩
  case word =>
    rw [perform_memRead] at h
    obtain ⟨t, ht⟩ := target_of_portAccess_next h
    exact readTarget_frame ht
  case whole =>
    cases h
    exact hostReadInt_frame r s
  case poll =>
    cases h
    split <;> rfl

/-! ### What the port refuses -/

theorem portAccess_of_size {size : Nat} (h : size ≠ 4) (addr : Nat) (s : State)
    (k : PortTarget → Host.Outcome State Fault Refusal) : portAccess addr size s k = .refused (.accessSize size) := if_pos h

theorem portAccess_misaligned {addr : Nat} (h : addr % 4 ≠ 0) (s : State)
    (k : PortTarget → Host.Outcome State Fault Refusal) : portAccess addr 4 s k = .refused (.misaligned addr) := by
  rw [portAccess, if_neg (not_not.2 rfl), if_pos h]

/-- Settles O47: the size is looked at first, then the alignment, before the register map. -/
theorem portRefusesWhatItCannotForm : Obligations.PortRefusesWhatItCannotForm := by
  intro s addr size w r v
  rw [perform_memRead, perform_memWrite, perform_memRead, perform_memWrite]
  exact ⟨fun h => ⟨portAccess_of_size h addr s _, portAccess_of_size h addr s _⟩,
    fun h => ⟨portAccess_misaligned h s _, portAccess_misaligned h s _⟩, fun h => perform_writeInt_tooWide h r⟩

/-! ### A write to CMD -/

/-- A legal word written to CMD executes its command (R95). -/
theorem perform_cmdWrite {w : Word} {i : Instr} (h : decode w = .ok i) (s : State) :
    perform (.memWrite s.cfg.base 4 w) s = exec i s := by
  rw [show s.cfg.base = s.cfg.base + 0x000 from rfl, perform_memWrite_base_add s rfl, Config.target_cmd]
  simp only [writeTarget, writeCmd, h]

theorem hostTurn_cmdWrite {s : State} {w : Word} {i : Instr} {sc : List HostStmt} (h : decode w = .ok i)
    (hs : s.script = .memWrite s.cfg.base 4 w :: sc) : hostTurn s = exec i { s with script := sc } := by
  rw [hostTurn_of_script_cons hs]
  exact perform_cmdWrite h { s with script := sc }

/-- Settles O10: the host's turn performs the CMD write, and `withFetchWord` is the first case at its own state. -/
theorem stepRunsDecodedCommand : Obligations.StepRunsDecodedCommand := by
  have hhost : ∀ (s : State) (w : Word) (i : Instr) (ts : List Turn) (sc : List HostStmt), decode w = .ok i →
      s.script = .memWrite s.cfg.base 4 w :: sc → s.turns = .host :: ts →
        step s = exec i { s with turns := ts, script := sc } :=
    fun s w i ts sc hdec hs ht => (step_of_turns_host ht).trans (hostTurn_cmdWrite (s := { s with turns := ts }) hdec hs)
  refine ⟨hhost, fun s w i sc hdec hs ht hb => ?default, fun s w i hw hdec => ?fetch⟩
  case default => exact (step_of_turns_nil_not_busy ht hb).trans (hostTurn_cmdWrite hdec hs)
  case fetch =>
    rw [← Nat.mod_eq_of_lt hw] at hdec
    exact hhost (s.withFetchWord 32 w) _ i s.turns s.script hdec rfl rfl

end Sys2Proof.Machine
end

section
/-! PROOFS. The decoder (spec 30_encoding.md R90, R91, R93): it reads a word as a command exactly when the word is that command's
encoding, and which words it rejects. -/

namespace Sys2Proof

/-! ### The opcode map (R91) -/

theorem opcodeOf_opcode (i : Instr) : opcodeOf i.opcode = some i := by
  cases i <;> rfl

/-- The map names a command by its own opcode alone. -/
theorem opcodeOf_eq_some_iff {opc : BitVec 8} {i : Instr} : opcodeOf opc = some i ↔ opc = i.opcode := by
  refine ⟨fun h => ?_, fun h => h ▸ opcodeOf_opcode i⟩
  unfold opcodeOf at h
  split_ifs at h with hopc hopc hopc hopc hopc hopc <;> cases h <;> exact hopc

/-- R93: the opcodes with no command are 0 and those above 0x06. -/
theorem opcodeOf_eq_none_iff {opc : BitVec 8} : opcodeOf opc = none ↔ opc.toNat = 0 ∨ 6 < opc.toNat := by
  unfold opcodeOf
  split_ifs <;> simp only [true_iff, false_iff] <;> bv_omega

/-! ### The fields of a word (R90) -/

theorem rsvField_toNat (w : Word) : (rsvField w).toNat = w.toNat / 256 := by
  have hw := w.isLt
  simp only [rsvField, BitVec.extractLsb'_toNat, Nat.shiftRight_eq_div_pow]
  omega

theorem opcField_toNat (w : Word) : (opcField w).toNat = w.toNat % 256 := by
  simp only [opcField, BitVec.extractLsb'_toNat, Nat.shiftRight_zero, Nat.reducePow]

/-- RSV and OPC are the whole word. -/
theorem word_ext_fields {w w' : Word} (hrsv : rsvField w = rsvField w') (hopc : opcField w = opcField w') : w = w' := by
  have hhigh := congrArg BitVec.toNat hrsv
  have hlow := congrArg BitVec.toNat hopc
  rw [rsvField_toNat, rsvField_toNat] at hhigh
  rw [opcField_toNat, opcField_toNat] at hlow
  exact BitVec.eq_of_toNat_eq (by omega)

/-! ### The decoder -/

/-- The round trip of `Laws.EncodingRoundTrip`, for every command. -/
theorem encodingRoundTrip (i : Instr) : Laws.EncodingRoundTrip.Statement i := by
  cases i
  exacts [Laws.EncodingRoundTrip.modpow, Laws.EncodingRoundTrip.xgcd, Laws.EncodingRoundTrip.modinv,
    Laws.EncodingRoundTrip.mrtest, Laws.EncodingRoundTrip.tdiv, Laws.EncodingRoundTrip.resume]

theorem decode_encode (i : Instr) : decode (encode i) = .ok i := by
  obtain ⟨-, hdecode, -⟩ := encodingRoundTrip i
  exact hdecode

theorem decode_eq_ok_iff_fields {w : Word} {i : Instr} : decode w = .ok i ↔ rsvField w = 0#24 ∧ opcField w = i.opcode := by
  rw [← opcodeOf_eq_some_iff, decode]
  split
  case isTrue hrsv => simp [hrsv]
  case isFalse hrsv =>
    cases hopc : opcodeOf (opcField w) <;> simp [not_not.1 hrsv]

/-- R91: a word is read as a command exactly when it is the encoding of that command. -/
theorem decode_eq_ok_iff {w : Word} {i : Instr} : decode w = .ok i ↔ w = encode i := by
  refine ⟨fun h => ?_, fun h => h ▸ decode_encode i⟩
  obtain ⟨hrsv, hopc⟩ := decode_eq_ok_iff_fields.1 h
  obtain ⟨-, -, -, hrsv', hopc'⟩ := encodingRoundTrip i
  exact word_ext_fields (hrsv.trans hrsv'.symm) (hopc.trans hopc'.symm)

theorem decode_error_iff_fields {w : Word} :
    (∃ e, decode w = .error e) ↔ rsvField w ≠ 0#24 ∨ opcodeOf (opcField w) = none := by
  have hnot : (∃ e, decode w = .error e) ↔ ¬ ∃ i, decode w = .ok i := by
    cases decode w <;> simp
  simp only [hnot, decode_eq_ok_iff_fields, ← opcodeOf_eq_some_iff, exists_and_left, not_and_or,
    ← Option.isSome_iff_exists, Option.not_isSome_iff_eq_none, ne_eq]

/-- R93: the illegal words, by the value of the word. -/
theorem decode_error_iff {w : Word} :
    (∃ e, decode w = .error e) ↔ w.toNat / 256 ≠ 0 ∨ w.toNat % 256 = 0 ∨ 6 < w.toNat % 256 := by
  have hrsv : rsvField w = 0#24 ↔ w.toNat / 256 = 0 := by rw [← BitVec.toNat_inj, rsvField_toNat]; rfl
  rw [decode_error_iff_fields, opcodeOf_eq_none_iff, opcField_toNat, ne_eq, hrsv]

/-- Settles O2: the words that decode are the encodings. -/
theorem decodeEncodeAgree : Obligations.DecodeEncodeAgree := by
  refine ⟨fun i => ?roundTrip, fun w i h => (decode_eq_ok_iff.1 h).symm⟩
  obtain ⟨-, hdecode, htable, -⟩ := encodingRoundTrip i
  exact ⟨hdecode, htable⟩

/-- Settles O1: each word of the opcode map is the encoding of its row's command. -/
theorem decodeIsTheOpcodeMap : Obligations.DecodeIsTheOpcodeMap := by
  intro w i
  rw [decode_eq_ok_iff]
  cases i <;> rfl

/-- Settles O3: three encodings, and for each illegal word the field that R93 rejects it for. -/
theorem knownWordsDecode : Obligations.KnownWordsDecode :=
  ⟨decode_encode .modpow, decode_encode .mrtest, decode_encode .resume, rfl, rfl, rfl, rfl⟩

end Sys2Proof
end

section
/-! PROOFS. What a word written to CMD does in each STATE (spec 30_encoding.md R93, R95, R96): commands accepted and dropped, RESUME
out of its STATE, and illegal words. -/

namespace Sys2Proof.Machine

/-! ### Legal words -/

theorem mayAccept_eq_false_iff {s : State} : s.mayAccept = false ↔ s.state = .busy ∨ s.state = .waitRng := by
  unfold State.mayAccept
  cases s.state <;> simp

/-- A command other than RESUME in BUSY and WAIT_RNG is dropped (R95, R96). -/
theorem exec_dropped {i : Instr} {s : State} (hi : i ≠ .resume) (h : s.state = .busy ∨ s.state = .waitRng) :
    exec i s = .next s := by
  rw [exec_of_ne_resume hi, acceptCommand_dropped (mayAccept_eq_false_iff.2 h)]

/-- RESUME is dropped in every STATE but WAIT_RNG (R95). -/
theorem exec_resume_dropped {s : State} (h : s.state ≠ .waitRng) : exec .resume s = .next s := by
  rw [exec_resume, if_neg h]

/-- Settles O5: a command other than RESUME is `acceptCommand`, which accepts in IDLE and DONE. -/
theorem commandIsAccepted : Obligations.CommandIsAccepted := by
  intro s i hi h
  rw [exec_of_ne_resume hi, acceptCommand_of (mayAccept_iff.2 h)]

/-- Settles O7: RESUME has its STATE and the other commands have theirs. -/
theorem commandOutOfTurnIsDropped : Obligations.CommandOutOfTurnIsDropped := by
  rintro s i (hbusy | ⟨hwait, hi⟩ | ⟨hrest, rfl⟩)
  · by_cases hi : i = .resume
    · subst hi
      exact exec_resume_dropped (by simp [hbusy])
    · exact exec_dropped hi (.inl hbusy)
  · exact exec_dropped hi (.inr hwait)
  · exact exec_resume_dropped (by rcases hrest with h | h <;> simp [h])

/-! ### Illegal words -/

theorem illegalCommand_of {s : State} (h : s.state = .idle ∨ s.state = .done) :
    illegalCommand s = raiseFault .illegalCommand s := if_pos (mayAccept_iff.2 h)

theorem illegalCommand_dropped {s : State} (h : s.state = .busy ∨ s.state = .waitRng) : illegalCommand s = s :=
  if_neg (by simp [mayAccept_eq_false_iff.2 h])

/-- CMD stands at offset 0 of the register map (R62). -/
theorem perform_memWrite_base (w : Word) (s : State) : perform (.memWrite s.cfg.base 4 w) s = writeCmd w s :=
  perform_memWrite_base_add s (off := 0x000) rfl w

/-- An illegal word written to CMD is `illegalCommand`, whatever made it illegal (R93, R242). -/
theorem perform_cmdWrite_illegal {w : Word} {e : Illegal} (h : decode w = .error e) (s : State) :
    perform (.memWrite s.cfg.base 4 w) s = .next (illegalCommand s) := by
  rw [perform_memWrite_base, writeCmd, h]

/-- Settles O4: which words are illegal is the decoder's, and STATE decides what `illegalCommand` does. -/
theorem illegalWordFaultsOrIsDropped : Obligations.IllegalWordFaultsOrIsDropped := by
  refine fun w => ⟨decode_error_iff, fun s e h => ?_⟩
  rw [perform_cmdWrite_illegal h]
  exact ⟨fun hs => congrArg _ (illegalCommand_of hs), fun hs => congrArg _ (illegalCommand_dropped hs)⟩

/-! ### The table of R95 -/

/-- Settles O6: a column of the table is what the decoder says of the word. -/
theorem cmdWriteFollowsTheTable : Obligations.CmdWriteFollowsTheTable := by
  refine fun s w => ⟨fun i h hi => ?command, fun h => ?resume, fun e h => ?illegal⟩
  case command =>
    rw [perform_cmdWrite h]
    refine ⟨fun hs => ?_, exec_dropped hi⟩
    rw [commandIsAccepted s i hi hs]
    cases i
    case resume => exact absurd rfl hi
    all_goals rfl
  case resume =>
    rw [perform_cmdWrite h]
    exact ⟨exec_resume_dropped, fun _ => rfl⟩
  case illegal =>
    rw [perform_cmdWrite_illegal h]
    refine ⟨fun hs => ⟨_, rfl, ?_⟩, fun hs => congrArg _ (illegalCommand_dropped hs)⟩
    rw [illegalCommand_of hs]
    exact ⟨rfl, rfl, rfl, rfl, rfl, rfl⟩

end Sys2Proof.Machine
end

section
/-! PROOFS. The invariants of the iterations (spec 40_modular_arithmetic.md R125, R128; 41_primality.md R162, R166, R171): every
statement of the host and every step keeps them. -/

namespace Sys2Proof.Machine

/-- The invariants of the iterations do not speak of what is the host's, nor of MR_TRIALS. -/
theorem PhaseInv.of_host {s : State} (h : PhaseInv s) (ts : List Turn) (sc : List HostStmt) (dr : Nat) (rp : List Reply)
    (tr : Word) : PhaseInv { s with turns := ts, script := sc, draws := dr, replies := rp, trials := tr } :=
  h.of_same rfl rfl rfl (fun _ => rfl) rfl rfl rfl rfl rfl

/-- The host may write A, B and M only between commands, and W only while the engine waits for it: the one phase whose invariant
does not speak of W (R25, R69). -/
theorem PhaseInv.setReg {s : State} (hc : ControlInv s) (h : PhaseInv s) {n : RegName} (hn : hostMayWrite n s.state = true)
    (r : BigReg) : PhaseInv (s.setReg n r) := by
  cases n
  case a | b | m => exact phaseInv_of_idle (hc.idle_iff.2 (of_decide_eq_true hn))
  case w =>
    have hwait : s.ph = .mrWait := hc.wait_iff.2 (of_decide_eq_true hn)
    exact h.of_same rfl rfl rfl (absurd hwait) rfl rfl rfl rfl rfl
  case r0 | r1 | r2 => simp [hostMayWrite] at hn

theorem illegalCommand_phase {s : State} (h : PhaseInv s) : PhaseInv (illegalCommand s) := by
  unfold illegalCommand
  split
  · exact phaseInv_of_idle rfl
  · exact h

theorem perform_phase {st : HostStmt} {s s' : State} (hc : ControlInv s) (h : PhaseInv s) (hp : perform st s = .next s') :
    PhaseInv s' := by
  obtain ⟨sc, dr, rp, rfl⟩ | ⟨n, v, -, -, hw, rfl⟩ | ⟨n, k, j, w, -, -, hw, rfl⟩ | ⟨w, -, rfl⟩ | ⟨w, i, -, -, hexec⟩ |
    ⟨w, e, -, -, rfl⟩ := perform_cases hp
  · exact h.of_host s.turns sc dr rp s.trials
  · exact h.setReg hc hw _
  · exact h.setReg hc hw _
  · exact h.of_host s.turns s.script s.draws s.replies w
  · exact exec_phase hc h hexec
  · exact illegalCommand_phase h

/-- Settles O24: a micro-step, a statement of the host, an idle turn and a reset each keep them. -/
theorem stepKeepsTheIterations : Obligations.StepKeepsTheIterations := by
  intro s s' hcontrol hphase hstep
  have hctl := fun ts sc => hcontrol.of_host ts sc s.draws s.replies
  have hph := fun ts sc => hphase.of_host ts sc s.draws s.replies s.trials
  obtain ⟨ts, rfl⟩ | ⟨ts, sc, st, hp⟩ | ⟨ts, rfl⟩ | ⟨ts, rfl⟩ := step_cases hstep
  · exact microStep_phase (hctl ts s.script) (hph ts s.script)
  · exact perform_phase (hctl ts sc) (hph ts sc) hp
  · exact hph ts s.script
  · exact phaseInv_of_idle rfl

end Sys2Proof.Machine
end

section
/-! PROOFS. MODPOW, XGCD and MODINV from acceptance to the end (spec 40_modular_arithmetic.md R122, R127, R130 to R132): for each
command the run of the engine from its first phase to DONE. -/

namespace Sys2Proof.Machine

/-- The state at the acceptance of a command other than RESUME (R95). -/
def State.accepted (i : Instr) (s : State) : State :=
  { s with
    op := i.opcode
    v := false
    err := .none
    r0 := .void s.cfg.cells
    r1 := .void s.cfg.cells
    r2 := .void s.cfg.cells
    state := .busy
    ph := firstPhase i }

theorem exec_accepted {i : Instr} {s : State} (hi : i ≠ .resume) (hs : s.state = .idle ∨ s.state = .done) :
    exec i s = .next (s.accepted i) := commandIsAccepted s i hi hs

/-- Two runs, one after the other. -/
theorem engineRun_trans {j k : Nat} {s t u : State} (h₁ : engineRun j s = t) (h₂ : engineRun k t = u) :
    engineRun (j + k) s = u := by
  rw [engineRun_add, h₁, h₂]

/-! ### MODPOW -/

/-- MP_LOOP makes bitlen(K) passes and one micro-step to leave (R279), and leaves with the power sought in ACC (R125). -/
theorem mpLoop_run_of_inv {s : State} (hp : s.ph = .mpLoop) (h : MexpInv s) :
    ∃ mexp : MexpRegs, engineRun (s.mexp.k.toNat.size + 1) s = { s with mexp := mexp, ph := s.ret } ∧
      mexp.acc = s.mpOperands.1 ^ s.mpOperands.2.1.toNat % s.mpOperands.2.2 := by
  have hm : 0 < s.mexp.modulus := h.modulus_eq ▸ h.modulus_pos
  obtain ⟨hacc0, hacc⟩ := h.acc_range
  obtain ⟨sq, hrun⟩ := mpLoop_run s.mexp.k.toNat s hp (Int.toNat_of_nonneg h.k_nonneg).symm hm hacc0 hacc
  exact ⟨_, hrun, by rw [h.power, h.modulus_eq]⟩

theorem mpCheck_of_bad {s : State} (h : s.operand .m ≤ 0 ∨ s.operand .b < 0 ∨ s.operand .a < 0) :
    mpCheck s = raiseFault .invalidArgument s := if_pos h

theorem mpCheck_of_good {s : State} (hm : 0 < s.operand .m) (hb : 0 ≤ s.operand .b) (ha : 0 ≤ s.operand .a) :
    mpCheck s = { s with ret := .mpFin, ph := .mpInit } := if_neg (by omega)

/-- From MP_INIT the exponentiation runs to the phase in RET. -/
theorem mpInit_run {s : State} (hp : s.ph = .mpInit) {a b m : Int} (ho : s.mpOperands = (a, b, m)) (hm : 0 < m)
    (hb : 0 ≤ b) (ha : 0 ≤ a) :
    ∃ mexp : MexpRegs, engineRun (b.toNat.size + 2) s = { s with mexp := mexp, ph := s.ret } ∧
      mexp.acc = a ^ b.toNat % m := by
  have hinv : MexpInv (mpInit s) := mpInit_mexpInv (by rwa [ho]) (by rwa [ho]) (by rwa [ho])
  obtain ⟨mexp, hrun, hacc⟩ := mpLoop_run_of_inv rfl hinv
  have hops : (mpInit s).mpOperands = (a, b, m) := ho
  have hk : (mpInit s).mexp.k = b := congrArg (·.2.1) ho
  have hstep : microStep s = mpInit s := by simp only [microStep, hp]
  rw [hops] at hacc
  rw [hk] at hrun
  exact ⟨mexp, by rw [engineRun_succ, hstep, hrun]; rfl, hacc⟩

/-- MODPOW with good arguments, from MP_CHECK to its end: MP_CHECK, MP_INIT and MP_FIN are one micro-step each. -/
theorem modpow_run {s : State} (hp : s.ph = .mpCheck) (ho : s.op = Instr.modpow.opcode) (hm : 0 < s.operand .m)
    (hb : 0 ≤ s.operand .b) (ha : 0 ≤ s.operand .a) :
    ∃ mexp : MexpRegs, engineRun ((s.operand .b).toNat.size + 4) s =
      finish (.ofInt (s.operand .a ^ (s.operand .b).toNat % s.operand .m)) (.void s.cfg.cells) (.void s.cfg.cells) false
        { s with ret := .mpFin, mexp := mexp } := by
  have hcheck : engineRun 1 s = { s with ret := .mpFin, ph := .mpInit } := by
    simp only [engineRun_one, microStep, hp, mpCheck_of_good hm hb ha]
  have hops : ({ s with ret := .mpFin, ph := .mpInit } : State).mpOperands = (s.operand .a, s.operand .b, s.operand .m) :=
    if_neg (by rw [ho]; decide)
  obtain ⟨mexp, hrun, hacc⟩ := mpInit_run rfl hops hm hb ha
  refine ⟨mexp, ?_⟩
  rw [← hacc, show (s.operand .b).toNat.size + 4 = 1 + ((s.operand .b).toNat.size + 2 + 1) by omega]
  exact engineRun_trans hcheck (engineRun_trans hrun rfl)

/-- Settles O12: MP_CHECK takes the fault, or `modpow_run` runs to the end. -/
theorem modpowComputesThePower : Obligations.ModpowComputesThePower := by
  refine ⟨decode_encode .modpow, fun s hs =>
    ⟨s.accepted .modpow, exec_accepted (by decide) hs, rfl, fun hbad => ?fault, fun hm hb ha => ?power⟩⟩
  case fault => exact mpCheck_of_bad hbad
  case power => exact modpow_run (s := s.accepted .modpow) rfl rfl hm hb ha

/-! ### XGCD, and the iteration MODINV shares -/

/-- From XG_INIT the iteration runs to its exit as Mathlib's extended Euclid does, and keeps its invariant (R128). -/
theorem xgInit_run {s : State} (hp : s.ph = .xgInit) {a b : Int} (ho : s.xgOperands = (a, b)) (ha : 0 ≤ a) (hb : 0 ≤ b) :
    ∃ (k : Nat) (xg : XgcdRegs), engineRun k s = { s with xg := xg, ph := s.ret } ∧ xg.g1 = 0 ∧ xg.g0 = Int.gcd a b ∧
      Nat.xgcdAux b.toNat 0 1 a.toNat 1 0 = (Int.gcd a b, xg.s0, xg.t0) ∧ XgcdInv { s with xg := xg, ph := s.ret } := by
  have hinv : XgcdInv (xgInit s) := xgInit_xgcdInv (by rwa [ho]) (by rwa [ho])
  have hg0 : (xgInit s).xg.g0 = (a.toNat : Int) := (congrArg (·.1) ho).trans (Int.toNat_of_nonneg ha).symm
  have hg1 : (xgInit s).xg.g1 = (b.toNat : Int) := (congrArg (·.2) ho).trans (Int.toNat_of_nonneg hb).symm
  have hgcd : Nat.gcd a.toNat b.toNat = Int.gcd a b := by
    rw [← Int.gcd_natCast_natCast, Int.toNat_of_nonneg ha, Int.toNat_of_nonneg hb]
  have hstep : microStep s = xgInit s := by simp only [microStep, hp]
  obtain ⟨k, xg, hrun, hzero, -, hg, haux, hkeep⟩ := xgLoop_run b.toNat (xgInit s) a.toNat rfl hg0 hg1
  rw [hgcd] at hg haux
  exact ⟨k + 1, xg, by rw [engineRun_succ, hstep, hrun]; rfl, hzero, hg, haux, hkeep hinv⟩

theorem xgCheck_of_bad {s : State} (h : s.operand .a < 0 ∨ s.operand .b < 0) :
    xgCheck s = raiseFault .invalidArgument s := if_pos h

theorem xgCheck_of_good {s : State} (ha : 0 ≤ s.operand .a) (hb : 0 ≤ s.operand .b) :
    xgCheck s = { s with ret := .xgFin, ph := .xgInit } := if_neg (by omega)

/-- XGCD with good arguments, from XG_CHECK to its end: the results are the last S0 and T0, for which the iteration's invariant
holds. -/
theorem xgcd_run {s : State} (hp : s.ph = .xgCheck) (ho : s.op = Instr.xgcd.opcode) (ha : 0 ≤ s.operand .a)
    (hb : 0 ≤ s.operand .b) :
    ∃ (k : Nat) (xg : XgcdRegs),
      engineRun k s =
        finish (.ofInt (Int.gcd (s.operand .a) (s.operand .b))) (.ofInt xg.s0) (.ofInt xg.t0) false
          { s with ret := .xgFin, xg := xg } ∧
      Nat.xgcdAux (s.operand .b).toNat 0 1 (s.operand .a).toNat 1 0 =
        (Int.gcd (s.operand .a) (s.operand .b), xg.s0, xg.t0) ∧
      s.operand .a * xg.s0 + s.operand .b * xg.t0 = Int.gcd (s.operand .a) (s.operand .b) ∧
      |xg.s0| ≤ max (s.operand .b) 1 ∧ |xg.t0| ≤ max (s.operand .a) 1 := by
  have hcheck : engineRun 1 s = { s with ret := .xgFin, ph := .xgInit } := by
    simp only [engineRun_one, microStep, hp, xgCheck_of_good ha hb]
  have hops : ∀ (xg : XgcdRegs) (ph ret : Phase),
      ({ s with ret := ret, xg := xg, ph := ph } : State).xgOperands = (s.operand .a, s.operand .b) :=
    fun _ _ _ => if_neg (by rw [ho]; decide)
  obtain ⟨k, xg, hrun, -, hg, haux, hinv⟩ := xgInit_run rfl (hops s.xg .xgInit .xgFin) ha hb
  have hbezout := hinv.bezout0
  have hs := hinv.s0_bound
  have ht := hinv.t0_bound
  rw [hops] at hbezout hs ht
  refine ⟨1 + (k + 1), xg, ?_, haux, hbezout.trans hg, hs, ht⟩
  rw [← hg]
  exact engineRun_trans hcheck (engineRun_trans hrun rfl)

/-- Settles O13: the Bezout identity is part of the iteration's invariant (R128), so no property of `Nat.xgcdAux` is needed. -/
theorem xgcdComputesGcdAndBezoutPair : Obligations.XgcdComputesGcdAndBezoutPair := by
  refine ⟨decode_encode .xgcd, fun s hs =>
    ⟨s.accepted .xgcd, exec_accepted (by decide) hs, rfl, fun hbad => ?fault, fun ha hb => ?gcd⟩⟩
  case fault => exact xgCheck_of_bad hbad
  case gcd =>
    obtain ⟨k, xg, hrun, haux, hbezout, -, -⟩ := xgcd_run (s := s.accepted .xgcd) rfl rfl ha hb
    exact ⟨k, xg, xg.s0, xg.t0, haux, hbezout, hrun⟩

/-- With both arguments 0 the gcd is 0 too, so this needs no argument to be positive. -/
theorem gcd_le_max {a b : Int} (ha : 0 ≤ a) (hb : 0 ≤ b) : (Int.gcd a b : Int) ≤ max a b := by
  rcases ha.eq_or_lt with rfl | hpos
  · rw [Int.gcd_zero_left, Int.natAbs_of_nonneg hb]
    exact le_max_right 0 b
  · exact (Int.le_of_dvd hpos (Int.gcd_dvd_left a b)).trans (le_max_left a b)

/-- Settles O14: the bounds on R1 and R2 are those of the iteration's invariant. -/
theorem xgcdResultsAreBounded : Obligations.XgcdResultsAreBounded := by
  intro s hs ha hb
  obtain ⟨k, xg, hrun, -, -, hx, hy⟩ := xgcd_run (s := s.accepted .xgcd) rfl rfl ha hb
  refine ⟨s.accepted .xgcd, k, Int.gcd (s.operand .a) (s.operand .b), xg.s0, xg.t0, exec_accepted (by decide) hs, ?_⟩
  rw [hrun]
  exact ⟨rfl, BigReg.ofInt_value _, BigReg.ofInt_value _, BigReg.ofInt_value _, gcd_le_max ha hb, hx, hy⟩

/-! ### MODINV -/

/-- The fields of which the control invariant speaks, as a command in progress has them. A command may be accepted in a state that
does not meet that invariant (a request may be open in it, R38); MI_NORM reads none of these fields, so what is known of it in a
state that does meet it holds in this one too. -/
def State.asRunning (s : State) : State :=
  { s.voidResults with state := .busy, v := false, err := .none, request := false }

theorem asRunning_control {s : State} (hi : s.ph ≠ .idle) (hw : s.ph ≠ .mrWait) (hl : latchesFit s.ph s.op s.ret = true) :
    ControlInv s.asRunning := by
  constructor <;> simp [State.asRunning, hi, hw, hl]

theorem asRunning_phase {s : State} (h : PhaseInv s) : PhaseInv s.asRunning :=
  h.of_same rfl rfl rfl (fun _ => rfl) rfl rfl rfl rfl rfl

theorem miCheck_of_bad {s : State} (h : s.operand .a < 0 ∨ s.operand .m ≤ 0) :
    miCheck s = raiseFault .invalidArgument s := if_pos h

theorem miCheck_of_good {s : State} (ha : 0 ≤ s.operand .a) (hm : 0 < s.operand .m) :
    miCheck s = { s with ret := .miNorm, ph := .xgInit } := if_neg (by omega)

/-- What MI_NORM leaves for MI_FIN (R133): the invariant of MI_FIN, which MI_NORM brings about (`microStep_phase`). -/
theorem miNorm_run {s : State} (hp : s.ph = .miNorm) (ho : s.op = Instr.modinv.opcode) (h : PhaseInv s) :
    ∃ (xg : XgcdRegs) (mr : MrRegs), engineRun 1 s = { s with xg := xg, mr := mr, ph := .miFin } ∧
      mr.verd = decide (Int.gcd (s.operand .a) (s.operand .m) = 1) ∧
      (Int.gcd (s.operand .a) (s.operand .m) = 1 →
        0 ≤ xg.inv ∧ xg.inv < s.operand .m ∧ s.operand .a * xg.inv % s.operand .m = 1 % s.operand .m) := by
  have hcontrol : ControlInv s.asRunning :=
    asRunning_control (by simp [hp]) (by simp [hp]) (by simp [hp, ho, latchesFit])
  have hphase : PhaseInv (microStep s.asRunning) := microStep_phase hcontrol (asRunning_phase h)
  obtain ⟨xg, mr, hstep, hstep'⟩ : ∃ xg mr, engineRun 1 s = { s with xg := xg, mr := mr, ph := .miFin } ∧
      microStep s.asRunning = { s.asRunning with xg := xg, mr := mr, ph := .miFin } := by
    have hp' : s.asRunning.ph = .miNorm := hp
    simp only [engineRun_one, microStep, hp, hp', miNorm]
    by_cases hg : s.xg.g0 ≠ 1
    · exact ⟨_, _, if_pos hg, if_pos hg⟩
    · exact ⟨_, _, if_neg hg, if_neg hg⟩
  rw [hstep'] at hphase
  obtain ⟨-, hverd, hinv⟩ := hphase
  exact ⟨xg, mr, hstep, by rw [Bool.eq_iff_iff, hverd, decide_eq_true_iff]; rfl, fun hg => hinv (hverd.2 hg)⟩

/-- MODINV with good arguments, from MI_CHECK to its end. -/
theorem modinv_run {s : State} (hp : s.ph = .miCheck) (ho : s.op = Instr.modinv.opcode) (ha : 0 ≤ s.operand .a)
    (hm : 0 < s.operand .m) :
    ∃ (k : Nat) (xg : XgcdRegs) (mr : MrRegs),
      (Int.gcd (s.operand .a) (s.operand .m) = 1 →
        0 ≤ xg.inv ∧ xg.inv < s.operand .m ∧ s.operand .a * xg.inv % s.operand .m = 1 % s.operand .m) ∧
      engineRun k s =
        finish (if Int.gcd (s.operand .a) (s.operand .m) = 1 then .ofInt xg.inv else .void s.cfg.cells)
          (.void s.cfg.cells) (.void s.cfg.cells) (decide (Int.gcd (s.operand .a) (s.operand .m) = 1))
          { s with ret := .miNorm, xg := xg, mr := mr } := by
  have hcheck : engineRun 1 s = { s with ret := .miNorm, ph := .xgInit } := by
    simp only [engineRun_one, microStep, hp, miCheck_of_good ha hm]
  have hops : ({ s with ret := .miNorm, ph := .xgInit } : State).xgOperands = (s.operand .a, s.operand .m) := if_pos ho
  obtain ⟨k, xg, hloop, hzero, -, -, hinv⟩ := xgInit_run rfl hops ha hm.le
  obtain ⟨xg', mr, hnorm, hverd, hinverse⟩ := miNorm_run (s := { s with ret := .miNorm, xg := xg, ph := .miNorm }) rfl ho
    ⟨hinv, hzero, hm⟩
  refine ⟨1 + (k + (1 + 1)), xg', mr, hinverse,
    engineRun_trans hcheck (engineRun_trans hloop (engineRun_trans hnorm ?_))⟩
  simp only [engineRun_one, microStep, miFin, hverd, decide_eq_true_eq]
  rfl

/-- Settles O15: MI_CHECK takes the fault, or `modinv_run` runs to the end. -/
theorem modinvComputesTheInverse : Obligations.ModinvComputesTheInverse := by
  refine ⟨decode_encode .modinv, fun s hs =>
    ⟨s.accepted .modinv, exec_accepted (by decide) hs, rfl, fun hbad => ?fault, fun ha hm => ?inverse⟩⟩
  case fault => exact miCheck_of_bad hbad
  case inverse =>
    obtain ⟨k, xg, mr, hinverse, hrun⟩ := modinv_run (s := s.accepted .modinv) rfl rfl ha hm
    exact ⟨k, xg, mr, xg.inv, hinverse, hrun⟩

end Sys2Proof.Machine
end

section
/-! PROOFS. TDIV from acceptance to its end, and MRTEST from acceptance to the first witness request, which the special cases and
MR_TRIALS = 0 never reach (spec 41_primality.md R161 to R164, R168, R170, R171). -/

namespace Sys2Proof.Machine

/-! ### TDIV -/

theorem tdCheck_of_lt_two {s : State} (h : s.operand .a < 2) :
    tdCheck s = { s with mr := { s.mr with verd := false }, ph := .tdFin } := if_pos h

theorem tdCheck_of_two_le {s : State} (h : 2 ≤ s.operand .a) :
    tdCheck s = { s with mr := { s.mr with kd := 2 }, ph := .tdLoop } := if_neg (by omega)

/-- TDIV from TD_CHECK to its end (R171): an A below 2 is no prime and never divided; any other goes through TD_LOOP. -/
theorem tdiv_run {s : State} (hp : s.ph = .tdCheck) :
    ∃ (k : Nat) (mr : MrRegs),
      engineRun k s = finishVerdict (decide (Nat.Prime (s.operand .a).toNat)) { s with mr := mr } := by
  have hcheck : engineRun 1 s = tdCheck s := by simp only [engineRun_one, microStep, hp]
  by_cases h2 : s.operand .a < 2
  · have hnp : ¬ Nat.Prime (s.operand .a).toNat := fun hprime => by
      have := hprime.two_le
      omega
    rw [tdCheck_of_lt_two h2] at hcheck
    rw [decide_eq_false hnp]
    exact ⟨1 + 1, _, engineRun_trans hcheck rfl⟩
  · rw [tdCheck_of_two_le (by omega)] at hcheck
    obtain ⟨k, kd, hloop⟩ := tdLoop_run _ { s with mr := { s.mr with kd := 2 }, ph := .tdLoop } rfl le_rfl rfl
      (not_lt.1 h2) (fun d hd hlt => absurd hd (not_le.2 hlt))
    exact ⟨1 + (k + 1), _, engineRun_trans hcheck (engineRun_trans hloop rfl)⟩

/-- Settles O16: the verdict is that of `tdiv_run`, whatever A is. -/
theorem tdivDecidesPrimality : Obligations.TdivDecidesPrimality :=
  ⟨decode_encode .tdiv, fun s hs => ⟨s.accepted .tdiv, exec_accepted (by decide) hs, rfl, tdiv_run rfl⟩⟩

/-! ### MRTEST up to the first request -/

theorem mrSpecial_of_special {s : State}
    (h : s.operand .a = 2 ∨ s.operand .a = 3 ∨ s.operand .a < 2 ∨ s.operand .a % 2 = 0) :
    mrSpecial s =
      { s with mr := { s.mr with verd := decide (s.operand .a = 2 ∨ s.operand .a = 3) }, ph := .mrFin } := by
  by_cases h23 : s.operand .a = 2 ∨ s.operand .a = 3
  · rw [mrSpecial, if_pos h23, decide_eq_true h23]
  · rw [mrSpecial, if_neg h23, if_pos (by tauto), decide_eq_false h23]

theorem mrSpecial_of_odd {s : State} (ha : 5 ≤ s.operand .a) (hodd : s.operand .a % 2 = 1) :
    mrSpecial s = { s with mr := { s.mr with d := s.operand .a - 1, s := 0 }, ph := .mrDecomp } := by
  rw [mrSpecial, if_neg (by omega), if_neg (by omega)]

/-- MR_FIN is one micro-step (R167). -/
theorem mrFin_run {s : State} (hp : s.ph = .mrFin) : engineRun 1 s = finishVerdict s.mr.verd s := by
  simp only [engineRun_one, microStep, hp, mrFin]

/-- Settles O17: MR_SPECIAL and MR_FIN are the two micro-steps. -/
theorem mrtestSpecialCases : Obligations.MrtestSpecialCases := by
  intro s hs h
  have hspecial : engineRun 1 (s.accepted .mrtest) = _ := mrSpecial_of_special (s := s.accepted .mrtest) h
  exact ⟨s.accepted .mrtest, exec_accepted (by decide) hs, rfl, congrArg State.state hspecial, _,
    engineRun_trans hspecial (mrFin_run rfl)⟩

/-- MR_TRIAL with no trial left: the test has passed (R163), and MR_FIN follows. -/
theorem mrTrial_run_of_none_left {s : State} (hp : s.ph = .mrTrial) (ht : s.mr.t = 0) :
    engineRun 2 s = finishVerdict true { s with mr := { s.mr with verd := true } } := by
  have htrial : engineRun 1 s = { s with mr := { s.mr with verd := true }, ph := .mrFin } := by
    simp only [engineRun_one, microStep, hp, mrTrial, ht, if_true]
  exact engineRun_trans htrial (mrFin_run rfl)

/-- MR_TRIAL with a trial left opens the witness request (R164). -/
theorem mrTrial_run_of_left {s : State} (hp : s.ph = .mrTrial) (ht : s.mr.t ≠ 0) :
    engineRun 1 s = { s with request := true, state := .waitRng, ph := .mrWait } := by
  simp only [engineRun_one, microStep, hp, mrTrial, ht, if_false]

/-- MRTEST on an odd A of 5 or more from MR_SPECIAL to MR_TRIAL: A - 1 is even, so S is at least 1 (R162). -/
theorem mrtest_split_run {s : State} (hp : s.ph = .mrSpecial) (ha : 5 ≤ s.operand .a) (hodd : s.operand .a % 2 = 1) :
    ∃ (k : Nat) (mr : MrRegs), engineRun k s = { s with mr := mr, ph := .mrTrial } ∧
      1 ≤ mr.d ∧ mr.d % 2 = 1 ∧ 1 ≤ mr.s ∧ mr.d * 2 ^ mr.s.toNat = s.operand .a - 1 ∧ mr.t = s.trials.toNat := by
  have hspecial : engineRun 1 s =
      { s with mr := { s.mr with d := s.operand .a - 1, s := 0 }, ph := .mrDecomp } := by
    simp only [engineRun_one, microStep, hp, mrSpecial_of_odd ha hodd]
  obtain ⟨k, e, d, hdecomp, hd, hsplit⟩ := mrDecomp_run (s.operand .a - 1).toNat
    { s with mr := { s.mr with d := s.operand .a - 1, s := 0 }, ph := .mrDecomp } rfl
    (by show s.operand .a - 1 = _; omega) (by omega)
  have he : e ≠ 0 := by
    rintro rfl
    omega
  have hsplit' : (d : Int) * 2 ^ e = s.operand .a - 1 := by
    rw [← Int.toNat_of_nonneg (show 0 ≤ s.operand .a - 1 by omega), ← hsplit]
    push_cast
    rfl
  refine ⟨1 + k, _, engineRun_trans hspecial hdecomp, ?_, ?_, ?_, ?_, rfl⟩
  · show 1 ≤ (d : Int); omega
  · show (d : Int) % 2 = 1; omega
  · show 1 ≤ 0 + (e : Int); omega
  · show (d : Int) * 2 ^ (0 + (e : Int)).toNat = _
    rw [zero_add, Int.toNat_natCast, hsplit']

/-- Settles O18: MR_TRIAL follows `mrtest_split_run`, and either asks or ends. -/
theorem mrtestDecomposesAndAsks : Obligations.MrtestDecomposesAndAsks := by
  intro s hs ha hodd
  obtain ⟨k, mr, hrun, hd, hdodd, hs1, hsplit, ht⟩ := mrtest_split_run (s := s.accepted .mrtest) rfl ha hodd
  refine ⟨s.accepted .mrtest, exec_accepted (by decide) hs, rfl, ?_⟩
  by_cases h0 : s.trials = 0#32
  · have hnone : mr.t = 0 := by rw [ht, show (s.accepted .mrtest).trials = 0#32 from h0]; rfl
    refine ⟨k + 2, { mr with verd := true }, hd, hdodd, hs1, hsplit, ht, ?_⟩
    rw [if_pos h0]
    exact engineRun_trans hrun (mrTrial_run_of_none_left rfl hnone)
  · have hleft : mr.t ≠ 0 := by
      rw [ht]
      exact fun h => h0 (BitVec.eq_of_toNat_eq (Int.ofNat_eq_zero.1 h))
    refine ⟨k + 1, mr, hd, hdodd, hs1, hsplit, ht, ?_⟩
    rw [if_neg h0]
    exact engineRun_trans hrun (mrTrial_run_of_left rfl hleft)

end Sys2Proof.Machine
end

section
/-! PROOFS. One trial of MRTEST, from the delivery of the witness to its verdict (spec 41_primality.md R165, R166). -/

namespace Sys2Proof.Machine

/-! ### The number theory of a trial -/

/-- The D and S of R162 are unique. -/
theorem odd_mul_two_pow_inj {d d' : Nat} (hd : d % 2 = 1) (hd' : d' % 2 = 1) :
    ∀ {e e' : Nat}, d * 2 ^ e = d' * 2 ^ e' → d = d' ∧ e = e'
  | 0, 0, h => ⟨by simpa using h, rfl⟩
  | 0, e' + 1, h => by rw [pow_zero, pow_succ, ← mul_assoc] at h; omega
  | e + 1, 0, h => by rw [pow_zero, pow_succ, ← mul_assoc] at h; omega
  | e + 1, e' + 1, h => by
    have hhalf : d * 2 ^ e = d' * 2 ^ e' := by rw [pow_succ, pow_succ, ← mul_assoc, ← mul_assoc] at h; omega
    exact (odd_mul_two_pow_inj hd hd' hhalf).imp_right (congrArg (· + 1))

/-- Acceptance may be tested with any split of n - 1, the engine's for one. -/
theorem witnessAccepted_iff {n a : Int} {d e : Nat} (hd : d % 2 = 1) (hsplit : (d : Int) * 2 ^ e = n - 1) :
    WitnessAccepted n a ↔ a ^ d % n = 1 ∨ ∃ r, r < e ∧ a ^ (d * 2 ^ r) % n = n - 1 := by
  constructor
  · rintro ⟨d', e', hd', hsplit', h⟩
    have heq : d' * 2 ^ e' = d * 2 ^ e := by exact_mod_cast hsplit'.trans hsplit.symm
    obtain ⟨rfl, rfl⟩ := odd_mul_two_pow_inj hd' hd heq
    exact h
  · exact fun h => ⟨d, e, hd, hsplit, h⟩

theorem MrInv.witnessAccepted_iff {s : State} (h : MrInv s) (w : Int) :
    WitnessAccepted (s.operand .a) w ↔ w ^ s.mr.d.toNat % s.operand .a = 1 ∨
      ∃ r, r < s.mr.s.toNat ∧ w ^ (s.mr.d.toNat * 2 ^ r) % s.operand .a = s.operand .a - 1 := by
  have hd : (s.mr.d.toNat : Int) = s.mr.d := Int.toNat_of_nonneg (by have := h.d_pos; omega)
  exact Machine.witnessAccepted_iff (by have := h.d_odd; omega) (by rw [hd, h.split])

/-- The invariant of MRTEST speaks of A, D and S only. -/
theorem MrInv.of_same {s t : State} (h : MrInv s) (ha : t.operand .a = s.operand .a) (hmr : t.mr = s.mr) : MrInv t := by
  obtain ⟨hlarge, hodd, hd, hdodd, hs, hsplit⟩ := h
  constructor <;> simpa only [ha, hmr]

/-! ### The engine through one trial -/

/-- The state at the delivery of a witness in range (R165). -/
def State.delivered (s : State) : State := { s with request := false, state := .busy, ret := .mrFirst, ph := .mpInit }

theorem exec_resume_delivered {s : State} (hs : s.state = .waitRng) (hlo : 2 ≤ s.operand .w)
    (hhi : s.operand .w ≤ s.operand .a - 2) : exec .resume s = .next s.delivered := by
  rw [exec_resume, if_pos hs, deliverWitness, if_neg (by omega), State.delivered]

/-- Settles O8: the state at the delivery is the one asked for. -/
theorem resumeDeliversWitness : Obligations.ResumeDeliversWitness := fun _ => exec_resume_delivered

/-- The tests of a trial, from MR_FIRST on: an accepted witness leads back to MR_TRIAL with one trial less, a rejected one to the
end. MR_FIRST tests the power r = 0, the squarings of MR_SQ all others. -/
theorem mrFirst_run {s : State} (hp : s.ph = .mrFirst) (h : MrInv s)
    (hacc : s.mexp.acc = s.operand .w ^ s.mr.d.toNat % s.operand .a) :
    ∃ (k : Nat) (mr : MrRegs), mr.d = s.mr.d ∧ mr.s = s.mr.s ∧
      (WitnessAccepted (s.operand .a) (s.operand .w) →
        mr.t = s.mr.t - 1 ∧ engineRun k s = { s with mr := mr, ph := .mrTrial }) ∧
      (¬ WitnessAccepted (s.operand .a) (s.operand .w) → engineRun k s = finishVerdict false { s with mr := mr }) := by
  have hiff := h.witnessAccepted_iff (s.operand .w)
  have hs := h.s_pos
  by_cases hfirst : s.mexp.acc = 1 ∨ s.mexp.acc = s.operand .a - 1
  · have hwa : WitnessAccepted (s.operand .a) (s.operand .w) := by
      rw [hacc] at hfirst
      exact hiff.2 (hfirst.imp_right fun hr => ⟨0, by omega, by rwa [pow_zero, mul_one]⟩)
    refine ⟨1, { s.mr with x := s.mexp.acc, t := s.mr.t - 1 }, rfl, rfl, fun _ => ⟨rfl, ?_⟩, absurd hwa⟩
    simp only [engineRun_one, microStep, hp, mrFirst, if_pos hfirst]
  · have hstep : engineRun 1 s = { s with mr := { s.mr with x := s.mexp.acc, j := 0 }, ph := .mrSq } := by
      simp only [engineRun_one, microStep, hp, mrFirst, if_neg hfirst]
    obtain ⟨k, x, j, haccept, hreject⟩ := mrSq_run _
      { s with mr := { s.mr with x := s.mexp.acc, j := 0 }, ph := .mrSq } rfl h.a_large le_rfl
      (by show 0 ≤ s.mr.s - 1; omega)
      (by show s.mexp.acc = s.operand .w ^ (s.mr.d.toNat * 2 ^ 0) % s.operand .a; rw [pow_zero, mul_one, hacc]) rfl
    have hlater : WitnessAccepted (s.operand .a) (s.operand .w) ↔ ∃ r, 0 < r ∧ r < s.mr.s.toNat ∧
        s.operand .w ^ (s.mr.d.toNat * 2 ^ r) % s.operand .a = s.operand .a - 1 := by
      rw [hacc] at hfirst
      push Not at hfirst
      rw [hiff]
      constructor
      · rintro (h1 | ⟨r, hr, hpow⟩)
        · exact absurd h1 hfirst.1
        · refine ⟨r, Nat.pos_of_ne_zero ?_, hr, hpow⟩
          rintro rfl
          rw [pow_zero, mul_one] at hpow
          exact hfirst.2 hpow
      · exact fun ⟨r, _, hr, hpow⟩ => .inr ⟨r, hr, hpow⟩
    by_cases hwa : WitnessAccepted (s.operand .a) (s.operand .w)
    · exact ⟨1 + k, { s.mr with x := x, j := j, t := s.mr.t - 1 }, rfl, rfl,
        fun _ => ⟨rfl, engineRun_trans hstep (haccept (hlater.1 hwa))⟩, absurd hwa⟩
    · exact ⟨1 + (k + 1), { s.mr with x := x, j := j, verd := false }, rfl, rfl, fun h => absurd h hwa, fun _ =>
        engineRun_trans hstep (engineRun_trans (hreject (mt hlater.2 hwa)) (mrFin_run rfl))⟩

/-- What holds of a state that waits for a witness: the invariant, in the one phase of WAIT_RNG (R28, R29, R38). -/
theorem Inv.of_waiting {s : State} (h : Inv s) (hs : s.state = .waitRng) :
    s.ph = .mrWait ∧ s.op = Instr.mrtest.opcode ∧ s.request = true ∧ MrInv s ∧ 1 ≤ s.mr.t := by
  have hp : s.ph = .mrWait := h.control.wait_iff.2 hs
  have hop : s.op = Instr.mrtest.opcode := by simpa [hp, latchesFit] using h.control.latches
  have hphase := h.phase
  simp only [PhaseInv, hp] at hphase
  exact ⟨hp, hop, h.control.request_iff.2 hs, hphase⟩

/-- One trial from the delivery of its witness: the exponentiation, then the tests of `mrFirst_run`. -/
theorem trial_run {s : State} (h : Inv s) (hs : s.state = .waitRng) (hlo : 2 ≤ s.operand .w) :
    ∃ (k : Nat) (mexp : MexpRegs) (mr : MrRegs), mr.d = s.mr.d ∧ mr.s = s.mr.s ∧
      (WitnessAccepted (s.operand .a) (s.operand .w) →
        mr.t = s.mr.t - 1 ∧ engineRun k s.delivered = { s.delivered with mexp := mexp, mr := mr, ph := .mrTrial }) ∧
      (¬ WitnessAccepted (s.operand .a) (s.operand .w) →
        engineRun k s.delivered = finishVerdict false { s.delivered with mexp := mexp, mr := mr }) := by
  obtain ⟨-, hop, -, hmr, -⟩ := h.of_waiting hs
  have ha := hmr.a_large
  have hd := hmr.d_pos
  have hops : s.delivered.mpOperands = (s.operand .w, s.mr.d, s.operand .a) := if_pos hop
  obtain ⟨mexp, hpow, hacc⟩ := mpInit_run rfl hops (by omega) (by omega) (by omega)
  obtain ⟨k, mr, hmd, hms, haccept, hreject⟩ := mrFirst_run
    (s := { s.delivered with mexp := mexp, ph := .mrFirst }) rfl (hmr.of_same rfl rfl) hacc
  exact ⟨_, mexp, mr, hmd, hms, fun hwa => ⟨(haccept hwa).1, engineRun_trans hpow (haccept hwa).2⟩,
    fun hwa => engineRun_trans hpow (hreject hwa)⟩

/-- Opening the request again brings a waiting state back. -/
theorem reopen_waiting {s : State} (hp : s.ph = .mrWait) (hs : s.state = .waitRng) (hr : s.request = true) :
    { s with request := true, state := .waitRng, ph := .mrWait } = s := by
  rw [← hr, ← hs, ← hp]

/-- Settles O19: after `trial_run` an accepted witness leads to MR_TRIAL, which asks again or, with none left, ends the test. -/
theorem trialFollowsMillerRabin : Obligations.TrialFollowsMillerRabin := by
  intro s h hs hlo hhi
  obtain ⟨hp, -, hreq, -, ht⟩ := h.of_waiting hs
  obtain ⟨k, mexp, mr, hd, hms, haccept, hreject⟩ := trial_run h hs hlo
  have hexec := exec_resume_delivered hs hlo hhi
  by_cases hwa : WitnessAccepted (s.operand .a) (s.operand .w)
  · obtain ⟨hmt, hrun⟩ := haccept hwa
    by_cases hlast : s.mr.t = 1
    · refine ⟨s.delivered, k + 2, mexp, { mr with verd := true }, hexec, rfl, hd, hms, fun _ h1 => by omega,
        fun _ => ⟨true, iff_of_true rfl hwa, ?_⟩⟩
      exact engineRun_trans hrun (mrTrial_run_of_none_left rfl (by show mr.t = 0; omega))
    · refine ⟨s.delivered, k + 1, mexp, mr, hexec, rfl, hd, hms, fun _ _ => ⟨hmt, ?_⟩, fun hend => by tauto⟩
      rw [engineRun_trans hrun (mrTrial_run_of_left rfl (by show mr.t ≠ 0; omega))]
      exact reopen_waiting (s := { s with ret := .mrFirst, mexp := mexp, mr := mr }) hp hs hreq
  · exact ⟨s.delivered, k, mexp, mr, hexec, rfl, hd, hms, fun h => absurd h hwa,
      fun _ => ⟨false, iff_of_false Bool.false_ne_true hwa, hreject hwa⟩⟩

end Sys2Proof.Machine
end

section
/-! PROOFS. The whole exchange of witnesses of an MRTEST, and its verdict (spec 20_memory.md R76; 41_primality.md R167). -/

namespace Sys2Proof.Machine

theorem Inv.exec {i : Instr} {s s' : State} (h : Inv s) (he : exec i s = .next s') : Inv s' :=
  ⟨exec_regs h.regs he, exec_control h.control he, exec_phase h.control h.phase he⟩

/-! ### Exchanges -/

/-- An exchange may begin at any earlier state of the engine's run. -/
theorem WitnessExchange.of_engineRun {ws : List Int} {s u t : State} (k : Nat) (hk : engineRun k s = u)
    (h : WitnessExchange ws u t) : WitnessExchange ws s t := by
  subst hk
  cases h with
  | ended _ j hdone =>
    rw [← engineRun_add] at hdone ⊢
    exact .ended s (k + j) hdone
  | answered _ s₁ _ j r ws hwait hresume hrest =>
    rw [← engineRun_add] at hwait hresume
    exact .answered s s₁ t (k + j) r ws hwait hresume hrest

/-- `r` is an answer that the host may give to a request draw(2, A - 2) for the A of `s`: it can be written to W, and it is in the
range (R164, R165). -/
def State.MayAnswer (s : State) (r : Int) : Prop := s.cfg.fits r = true ∧ 2 ≤ r ∧ r ≤ s.operand .a - 2

/-- `u` waits for a witness in the MRTEST that was accepted in `s`, with `n` trials to run. -/
structure Asks (s : State) (n : Nat) (u : State) : Prop where
  inv : Inv u
  waiting : u.state = .waitRng
  cfg_eq : u.cfg = s.cfg
  a_eq : u.a = s.a
  trials_eq : u.trials = s.trials
  operand_eq : u.operand .a = s.operand .a
  left : u.mr.t = n

/-- `t` is the end with verdict `v` of the MRTEST that was accepted in `s`. -/
def EndsWith (s : State) (v : Bool) (t : State) : Prop :=
  t.state = .done ∧ t.err = .none ∧ t.v = v ∧ t.a = s.a ∧ t.trials = s.trials

/-- The trial that an answer sets off is O19's, with the answer in W. -/
theorem Asks.trial {s u : State} {n : Nat} {r : Int} (h : Asks s n u) (hr : s.MayAnswer r) :
    ∃ (s₁ : State) (k : Nat) (mexp : MexpRegs) (mr : MrRegs), exec .resume (hostWriteInt .w r u) = .next s₁ ∧ Inv s₁ ∧
      (WitnessAccepted (s.operand .a) r → 1 < n →
        mr.t = n - 1 ∧ engineRun k s₁ = { u with w := .ofInt r, ret := .mrFirst, mexp := mexp, mr := mr }) ∧
      (¬ WitnessAccepted (s.operand .a) r ∨ n = 1 →
        ∃ verdict : Bool, (verdict = true ↔ WitnessAccepted (s.operand .a) r) ∧ EndsWith s verdict (engineRun k s₁)) := by
  obtain ⟨hfits, hlo, hhi⟩ := hr
  obtain ⟨hwrite, hinv, hw⟩ := h.inv.writeWitness h.waiting (h.cfg_eq ▸ hfits)
  have ha : ({ u with w := .ofInt r } : State).operand .a = s.operand .a := h.operand_eq
  have hleft : u.mr.t = n := h.left
  obtain ⟨s₁, k, mexp, mr, hexec, -, -, -, haccept, hend⟩ :=
    trialFollowsMillerRabin _ hinv h.waiting (hlo.trans_eq hw.symm) (by rwa [hw, ha])
  rw [ha, hw] at haccept hend
  refine ⟨s₁, k, mexp, mr, hwrite ▸ hexec, hinv.exec hexec, fun hwa hn => ?_, fun hlast => ?_⟩
  · obtain ⟨hmt, hrun⟩ := haccept hwa (by show 1 < u.mr.t; omega)
    exact ⟨hmt.trans (by rw [← hleft]), hrun⟩
  · obtain ⟨verdict, hverdict, hrun⟩ := hend (hlast.imp_right fun hn => by show u.mr.t = 1; omega)
    rw [hrun]
    exact ⟨verdict, hverdict, rfl, rfl, rfl, h.a_eq, h.trials_eq⟩

/-- An accepted answer with another trial to run leads to the next request. -/
theorem Asks.next {s u : State} {n : Nat} {r : Int} (h : Asks s (n + 1) u) (hn : 0 < n) (hr : s.MayAnswer r)
    (hwa : WitnessAccepted (s.operand .a) r) :
    ∃ u', Asks s n u' ∧ ∀ ws t, WitnessExchange ws u' t → WitnessExchange (r :: ws) u t := by
  obtain ⟨s₁, k, mexp, mr, hexec, hinv, haccept, -⟩ := h.trial hr
  obtain ⟨hmt, hrun⟩ := haccept hwa (by omega)
  have hinv' := engineRun_inv k s₁ hinv
  refine ⟨engineRun k s₁, ?_, fun ws t hrest => .answered u s₁ t 0 r ws h.waiting hexec (hrest.of_engineRun k rfl)⟩
  rw [hrun] at hinv' ⊢
  exact ⟨hinv', h.waiting, h.cfg_eq, h.a_eq, h.trials_eq, h.operand_eq, by show mr.t = n; omega⟩

/-- A rejected answer, and the answer to the last request, end the test. -/
theorem Asks.ends {s u : State} {n : Nat} {r : Int} (h : Asks s n u) (hr : s.MayAnswer r)
    (hlast : ¬ WitnessAccepted (s.operand .a) r ∨ n = 1) :
    ∃ (t : State) (v : Bool), WitnessExchange [r] u t ∧ (v = true ↔ WitnessAccepted (s.operand .a) r) ∧ EndsWith s v t := by
  obtain ⟨s₁, k, -, -, hexec, -, -, hend⟩ := h.trial hr
  obtain ⟨v, hv, ht⟩ := hend hlast
  exact ⟨_, v, .answered u s₁ _ 0 r [] h.waiting hexec (.ended s₁ k ht.1), hv, ht⟩

/-- Accepted answers, fewer than there are trials to run, lead to the next request. -/
theorem Asks.next_list {s : State} {n : Nat} (hn : 0 < n) (ws : List Int) : ∀ {u : State}, Asks s (n + ws.length) u →
    (∀ r ∈ ws, s.MayAnswer r ∧ WitnessAccepted (s.operand .a) r) →
    ∃ u', Asks s n u' ∧ ∀ vs t, WitnessExchange vs u' t → WitnessExchange (ws ++ vs) u t := by
  induction ws with
  | nil => exact fun h _ => ⟨_, h, fun _ _ => id⟩
  | cons r ws ih =>
    intro u h hws
    obtain ⟨hr, hws⟩ := List.forall_mem_cons.1 hws
    obtain ⟨u₁, h₁, hfirst⟩ := Asks.next h (Nat.add_pos_left hn _) hr.1 hr.2
    obtain ⟨u₂, h₂, hrest⟩ := ih h₁ hws
    exact ⟨u₂, h₂, fun vs t ht => hfirst _ _ (hrest vs t ht)⟩

/-! ### The verdict -/

section Verdict

variable {s s₁ : State} (hinv : Inv s) (hs : s.state = .idle ∨ s.state = .done) (hexec : exec .mrtest s = .next s₁)
  (ha : 5 ≤ s.operand .a) (hodd : s.operand .a % 2 = 1)

include hs hexec ha hodd

/-- The run of O18, from the given acceptance. -/
theorem mrtest_first_run : ∃ (k : Nat) (mr : MrRegs), mr.t = s.trials.toNat ∧
    engineRun k s₁ =
      if s.trials = 0#32 then finishVerdict true { s.accepted .mrtest with mr := mr }
      else { s.accepted .mrtest with state := .waitRng, ph := .mrWait, request := true, mr := mr } := by
  obtain ⟨s₂, hexec₂, -, k, mr, -, -, -, -, ht, hrun⟩ := mrtestDecomposesAndAsks s hs ha hodd
  obtain rfl : s₁ = s₂ := Host.Outcome.next.inj (hexec.symm.trans hexec₂)
  exact ⟨k, mr, ht, hrun⟩

theorem mrtest_ends_of_no_trials (h0 : s.trials = 0#32) : ∃ t, WitnessExchange [] s₁ t ∧ EndsWith s true t := by
  obtain ⟨k, mr, -, hrun⟩ := mrtest_first_run hs hexec ha hodd
  rw [if_pos h0] at hrun
  have hend : EndsWith s true (engineRun k s₁) := by
    rw [hrun]
    exact ⟨rfl, rfl, rfl, rfl, rfl⟩
  exact ⟨_, .ended s₁ k hend.1, hend⟩

include hinv

theorem mrtest_asks (h0 : s.trials ≠ 0#32) : ∃ k, Asks s s.trials.toNat (engineRun k s₁) := by
  obtain ⟨k, mr, ht, hrun⟩ := mrtest_first_run hs hexec ha hodd
  rw [if_neg h0] at hrun
  have hinv' := engineRun_inv k s₁ (hinv.exec hexec)
  refine ⟨k, ?_⟩
  rw [hrun] at hinv' ⊢
  exact ⟨hinv', rfl, rfl, rfl, rfl, rfl, ht⟩

/-- Accepted answers and then one that is rejected or the last: exactly they are asked for, and the last decides. -/
theorem mrtest_verdict {ws : List Int} {r : Int} (hws : ∀ r ∈ ws, s.MayAnswer r ∧ WitnessAccepted (s.operand .a) r)
    (hr : s.MayAnswer r) (hlen : ws.length < s.trials.toNat)
    (hlast : ¬ WitnessAccepted (s.operand .a) r ∨ s.trials.toNat = ws.length + 1) :
    ∃ (t : State) (v : Bool), WitnessExchange (ws ++ [r]) s₁ t ∧ (v = true ↔ WitnessAccepted (s.operand .a) r) ∧
      EndsWith s v t := by
  have h0 : s.trials ≠ 0#32 := by
    intro h
    rw [h] at hlen
    exact Nat.not_lt_zero _ hlen
  obtain ⟨k, hasks⟩ := mrtest_asks hinv hs hexec ha hodd h0
  obtain ⟨n, hn⟩ := Nat.exists_eq_add_of_lt hlen
  rw [show s.trials.toNat = n + 1 + ws.length by omega] at hasks
  obtain ⟨u, hu, hbefore⟩ := Asks.next_list n.succ_pos ws hasks hws
  obtain ⟨t, v, hex, hv, hend⟩ := hu.ends hr (hlast.imp_right fun h => by omega)
  exact ⟨t, v, (hbefore [r] t hex).of_engineRun k rfl, hv, hend⟩

end Verdict

/-- Settles O20: `mrtest_verdict`, with the last of the answers split off when all are accepted. -/
theorem mrtestVerdictAndRequests : Obligations.MrtestVerdictAndRequests := by
  intro s s₁ ws hinv hs hexec ha hodd hws
  have hws : ∀ r ∈ ws, s.MayAnswer r ∧ WitnessAccepted (s.operand .a) r := fun r hr => by
    obtain ⟨hfits, hlo, hhi, hwa⟩ := hws r hr
    exact ⟨⟨hfits, hlo, hhi⟩, hwa⟩
  refine ⟨fun hlen => ?accepted, fun r hlen hfits hlo hhi hrej => ?rejected⟩
  case accepted =>
    rcases ws.eq_nil_or_concat' with rfl | ⟨ws, r, rfl⟩
    · exact mrtest_ends_of_no_trials hs hexec ha hodd (BitVec.eq_of_toNat_eq hlen.symm)
    · obtain ⟨hws, hr⟩ := List.forall_mem_append.1 hws
      obtain ⟨hr, hwa⟩ := hr r (List.mem_singleton_self r)
      rw [List.length_append, List.length_singleton] at hlen
      obtain ⟨t, v, hex, hv, hend⟩ := mrtest_verdict hinv hs hexec ha hodd hws hr (by omega) (.inr hlen.symm)
      obtain rfl := hv.2 hwa
      exact ⟨t, hex, hend⟩
  case rejected =>
    obtain ⟨t, v, hex, hv, hend⟩ := mrtest_verdict hinv hs hexec ha hodd hws ⟨hfits, hlo, hhi⟩ hlen (.inl hrej)
    obtain rfl := Bool.eq_false_iff.2 (mt hv.1 hrej)
    exact ⟨t, hex, hend⟩

/-! ### Primes -/

/-- From a power that is 1 modulo a prime, the square roots lead down to A - 1, or to 1 all the way (R167). -/
theorem pow_one_or_neg_one_of_prime {A w : Int} (hp : Nat.Prime A.toNat) (hA : 5 ≤ A) {d e : Nat}
    (h : w ^ (d * 2 ^ e) % A = 1) : w ^ d % A = 1 ∨ ∃ r, r < e ∧ w ^ (d * 2 ^ r) % A = A - 1 := by
  induction e with
  | zero => exact .inl (by rwa [pow_zero, mul_one] at h)
  | succ e ih =>
    rw [← square_step rfl] at h
    rcases sqrt_one_of_prime hp (Int.emod_nonneg _ (by omega)) (Int.emod_lt_of_pos _ (by omega)) h with h1 | h1
    · exact (ih h1).imp_right fun ⟨r, hr, hpow⟩ => ⟨r, by omega, hpow⟩
    · exact .inr ⟨e, by omega, h1⟩

/-- Every witness in range is accepted for a prime (G3): Fermat's theorem gives the power at A - 1. -/
theorem witnessAccepted_of_prime {A w : Int} (hp : Nat.Prime A.toNat) (hA : 5 ≤ A) (hlo : 2 ≤ w) (hhi : w ≤ A - 2) :
    WitnessAccepted A w := by
  obtain ⟨e, d, hd, hsplit⟩ := Nat.exists_eq_two_pow_mul_odd (n := A.toNat - 1) (by omega)
  have hfermat := fermat_of_prime hp (show 1 ≤ w by omega) (by omega)
  rw [hsplit, mul_comm] at hfermat
  refine ⟨d, e, Nat.odd_iff.1 hd, ?_, pow_one_or_neg_one_of_prime hp hA hfermat⟩
  have hcast : ((2 ^ e * d : Nat) : Int) = A - 1 := by omega
  rw [← hcast]
  push_cast
  ring

/-- Settles O21: O20 with `witnessAccepted_of_prime`; a prime of 5 or more is odd. -/
theorem primePassesEveryWitness : Obligations.PrimePassesEveryWitness := by
  intro s s₁ ws hinv hs hexec ha hprime hlen hws
  have hodd : s.operand .a % 2 = 1 := by
    have := hprime.eq_two_or_odd
    omega
  obtain ⟨t, hex, hdone, herr, hv, -⟩ := (mrtestVerdictAndRequests s s₁ ws hinv hs hexec ha hodd fun r hr => by
    obtain ⟨hfits, hlo, hhi⟩ := hws r hr
    exact ⟨hfits, hlo, hhi, witnessAccepted_of_prime hprime ha hlo hhi⟩).1 hlen
  exact ⟨t, hex, hdone, herr, hv⟩

end Sys2Proof.Machine
end

section
/-! PROOFS. The block codec (spec 42_host_procedures.md R206, R207): the units of a block are the digits of its value in base
alphabetSize, and the blocks of a text are the padded text cut into pieces of blockLength units. -/

namespace Sys2Proof.Machine

/-! ### One block -/

section Block

variable {n : Nat} {us : List Int}

/-- The value of a block is a number of as many digits as the block has units. -/
theorem blockValue_range (h : ∀ u ∈ us, 0 ≤ u ∧ u < (n : Int)) :
    0 ≤ blockValue n us ∧ blockValue n us < (n : Int) ^ us.length := by
  induction us with
  | nil => simp [blockValue]
  | cons u us ih =>
    obtain ⟨⟨hu0, hun⟩, hus⟩ := List.forall_mem_cons.1 h
    obtain ⟨h0, hlt⟩ := ih hus
    rw [blockValue, List.length_cons, pow_succ]
    constructor
    · positivity
    · nlinarith

/-- Remainder and division take the digits of the value off again, lowest first. -/
theorem blockUnits_blockValue (h : ∀ u ∈ us, 0 ≤ u ∧ u < (n : Int)) :
    blockUnits n us.length (blockValue n us) = us := by
  induction us with
  | nil => rfl
  | cons u us ih =>
    obtain ⟨⟨hu0, hun⟩, hus⟩ := List.forall_mem_cons.1 h
    rw [List.length_cons, blockUnits, blockValue, Int.add_mul_emod_self_left, Int.emod_eq_of_lt hu0 hun,
      Int.add_mul_ediv_left _ _ (by omega), Int.ediv_eq_zero_of_lt hu0 hun, zero_add, ih hus]

end Block

/-! ### The padded text -/

section Padding

variable {len n : Nat} {text : List Int}

/-- The padding fills the last block (R206). -/
theorem padText_length (h : 0 < len) (text : List Int) :
    (padText len text).length = (text.length + len - 1) / len * len := by
  have hdiv := Nat.div_add_mod text.length len
  have hlt := Nat.mod_lt text.length h
  rw [padText, List.length_append, List.length_replicate]
  generalize text.length / len = q at hdiv
  generalize text.length % len = r at hdiv hlt ⊢
  rcases Nat.eq_zero_or_pos r with rfl | hr
  · have hq : (text.length + len - 1) / len = q := by
      rw [show text.length + len - 1 = len - 1 + len * q by omega, Nat.add_mul_div_left _ _ h,
        Nat.div_eq_of_lt (by omega), zero_add]
    rw [hq, Nat.sub_zero, Nat.mod_self, mul_comm]
    omega
  · have hq : (text.length + len - 1) / len = q + 1 := by
      rw [show text.length + len - 1 = r - 1 + len * (q + 1) by rw [mul_add]; omega, Nat.add_mul_div_left _ _ h,
        Nat.div_eq_of_lt (by omega), zero_add]
    rw [hq, Nat.mod_eq_of_lt (show len - r < len by omega), mul_comm, mul_add]
    omega

/-- The sentinel is a unit wherever padding is needed, since the alphabet of a text that is not empty is not empty. -/
theorem padText_units (h : ∀ u ∈ text, 0 ≤ u ∧ u < (n : Int)) : ∀ u ∈ padText len text, 0 ≤ u ∧ u < (n : Int) := by
  intro u hu
  obtain hu | hu := List.mem_append.1 hu
  · exact h u hu
  · obtain ⟨hpad, rfl⟩ := List.mem_replicate.1 hu
    cases text with
    | nil => simp at hpad
    | cons v text =>
      obtain ⟨hv0, hvn⟩ := h v List.mem_cons_self
      omega

/-- Removing the sentinels of a padded text leaves the text, if it has none of its own. -/
theorem padText_filter (h : ∀ u ∈ text, 0 < u) : (padText len text).filter (· ≠ 0) = text := by
  rw [padText, List.filter_append, List.filter_replicate_of_neg (by simp), List.append_nil, List.filter_eq_self]
  exact fun u hu => decide_eq_true (h u hu).ne'

end Padding

/-! ### The pieces -/

/-- The first `k` pieces of `len` units of a text. -/
def pieces (len k : Nat) (text : List Int) : List (List Int) :=
  (List.range k).map fun c => (text.drop (c * len)).take len

theorem pieces_succ (len k : Nat) (text : List Int) :
    pieces len (k + 1) text = text.take len :: pieces len k (text.drop len) := by
  simp only [pieces, List.range_succ_eq_map, List.map_cons, List.map_map, Function.comp_def, List.drop_drop]
  simp only [Nat.zero_mul, List.drop_zero, Nat.succ_mul, Nat.add_comm]

theorem pieces_flatten {len k : Nat} {text : List Int} (h : text.length = k * len) : (pieces len k text).flatten = text := by
  induction k generalizing text with
  | zero =>
    rw [Nat.zero_mul] at h
    rw [List.eq_nil_of_length_eq_zero h]
    rfl
  | succ k ih =>
    rw [pieces_succ, List.flatten_cons, ih (by rw [List.length_drop, h, Nat.succ_mul, Nat.add_sub_cancel]),
      List.take_append_drop]

theorem mem_pieces {len k : Nat} {text us : List Int} (h : text.length = k * len) (hus : us ∈ pieces len k text) :
    us.length = len ∧ us ⊆ text := by
  obtain ⟨c, hc, rfl⟩ := List.mem_map.1 hus
  have hfull : (c + 1) * len ≤ k * len := Nat.mul_le_mul_right len (List.mem_range.1 hc)
  rw [Nat.succ_mul] at hfull
  refine ⟨?_, fun u hu => List.mem_of_mem_drop (List.mem_of_mem_take hu)⟩
  rw [List.length_take, List.length_drop]
  omega

/-! ### ENCODE -/

section Encode

variable {len n : Nat} {text : List Int}

theorem encodeText_eq_invalidUnit_iff (h : 0 < len) :
    encodeText len n text = .error .invalidUnit ↔ ∃ u ∈ text, u < 0 ∨ (n : Int) ≤ u := by
  rw [encodeText, if_neg h.ne']
  split <;> rename_i hany <;> simpa using hany

/-- ENCODE of units of the alphabet: the values of the pieces of the padded text. -/
theorem encodeText_of_units (h : 0 < len) (hunits : ∀ u ∈ text, 0 ≤ u ∧ u < (n : Int)) :
    encodeText len n text =
      .ok ((pieces len ((text.length + len - 1) / len) (padText len text)).map (blockValue n)) := by
  have hany : ¬ (text.any fun u => decide (u < 0 ∨ (n : Int) ≤ u)) = true := by simpa using hunits
  rw [encodeText, if_neg h.ne', if_neg hany, padText_length h, Nat.mul_div_cancel _ h, pieces, List.map_map]
  rfl

theorem units_of_encodeText {blocks : List Int} (h : 0 < len) (hok : encodeText len n text = .ok blocks) :
    ∀ u ∈ text, 0 ≤ u ∧ u < (n : Int) := by
  have hvalid : ¬ encodeText len n text = .error .invalidUnit := by rw [hok]; simp
  rw [encodeText_eq_invalidUnit_iff h] at hvalid
  push Not at hvalid
  exact hvalid

/-- The blocks are in range (R206), one for each piece. -/
theorem encodeText_blocks {blocks : List Int} (h : 0 < len) (hok : encodeText len n text = .ok blocks) :
    blocks.length = (text.length + len - 1) / len ∧ ∀ v ∈ blocks, 0 ≤ v ∧ v < (n : Int) ^ len := by
  have hunits := units_of_encodeText h hok
  rw [encodeText_of_units h hunits, Except.ok.injEq] at hok
  subst hok
  refine ⟨by simp [pieces], fun v hv => ?_⟩
  obtain ⟨us, hus, rfl⟩ := List.mem_map.1 hv
  obtain ⟨hlen, hsub⟩ := mem_pieces (padText_length h text) hus
  rw [← hlen]
  exact blockValue_range fun u hu => padText_units hunits u (hsub hu)

/-- DECODE takes each block apart into its piece (R207), and the pieces together are the padded text. -/
theorem decodeText_of_encodeText {blocks : List Int} (h : 0 < len) (hunits : ∀ u ∈ text, 0 < u ∧ u < (n : Int))
    (hok : encodeText len n text = .ok blocks) : decodeText len n blocks = text := by
  have hunits' : ∀ u ∈ text, 0 ≤ u ∧ u < (n : Int) := fun u hu => ⟨(hunits u hu).1.le, (hunits u hu).2⟩
  have hlength := padText_length h text
  rw [encodeText_of_units h hunits', Except.ok.injEq] at hok
  subst hok
  have hpieces : ∀ us ∈ pieces len ((text.length + len - 1) / len) (padText len text),
      (blockUnits n len ∘ blockValue n) us = id us := fun us hus => by
    obtain ⟨hlen, hsub⟩ := mem_pieces hlength hus
    rw [Function.comp_apply, id, ← hlen]
    exact blockUnits_blockValue fun u hu => padText_units hunits' u (hsub hu)
  rw [decodeText, List.map_map, List.map_congr_left hpieces, List.map_id, pieces_flatten hlength]
  exact padText_filter fun u hu => (hunits u hu).1

end Encode

/-- Settles O52: a unit outside the alphabet is what fails, and every piece of the padded text has a value in range. -/
theorem encodeBlocksInRange : Obligations.EncodeBlocksInRange :=
  fun _ _ _ h => ⟨encodeText_eq_invalidUnit_iff h, fun _ => encodeText_blocks h⟩

/-- Settles O51: ENCODE succeeds on these units, and DECODE takes its blocks apart again. -/
theorem codecRoundTrip : Obligations.CodecRoundTrip := by
  intro len n text h hunits
  have hok := encodeText_of_units h fun u hu => ⟨(hunits u hu).1.le, (hunits u hu).2⟩
  exact ⟨_, hok, decodeText_of_encodeText h hunits hok⟩

end Sys2Proof.Machine
end

section
/-! PROOFS. The host's scripts from a machine between commands (spec 30_encoding.md R97, R98): what each statement of them leads to,
with the schedule left to the default. -/

namespace Sys2Proof.Machine

/-- The machine between commands, with the schedule left to the default (log 2). -/
structure Ready (s : State) : Prop where
  inv : Inv s
  rest : s.state = .idle ∨ s.state = .done
  turns_eq : s.turns = []

theorem Ready.not_busy {s : State} (h : Ready s) : s.state ≠ .busy := by
  obtain hs | hs := h.rest <;> simp [hs]

/-- What the host still has to do and what it has read do not matter. -/
theorem Ready.of_host {s : State} (h : Ready s) (sc : List HostStmt) (rp : List Reply) :
    Ready { s with script := sc, replies := rp } :=
  ⟨h.inv.of_host rfl, h.rest, h.turns_eq⟩

theorem Ready.setReg {s : State} (h : Ready s) {n : RegName} {v : Int} (hf : s.cfg.fits v = true)
    (hn : n = .a ∨ n = .b ∨ n = .m) : Ready (s.setReg n (.ofInt v)) :=
  ⟨h.inv.writeOperand h.rest hf hn, by rw [setReg_state]; exact h.rest, by rw [setReg_turns]; exact h.turns_eq⟩

/-! ### A whole-register write -/

/-- The state after `WR n, v`, with `sc` left of the script. -/
def State.written (n : RegName) (v : Int) (sc : List HostStmt) (s : State) : State :=
  { s.setReg n (.ofInt v) with script := sc }

theorem Ready.written {s : State} (h : Ready s) {n : RegName} {v : Int} (hf : s.cfg.fits v = true)
    (hn : n = .a ∨ n = .b ∨ n = .m) (sc : List HostStmt) : Ready (s.written n v sc) :=
  (h.setReg hf hn).of_host sc _

section Write

variable {s t : State} {n : RegName} {v : Int} {sc : List HostStmt} (h : Ready s) (hs : s.script = .writeInt n v :: sc)
include h hs

theorem runScript_writeInt (hf : s.cfg.fits v = true) (hn : n = .a ∨ n = .b ∨ n = .m) (fuel : Nat) :
    runScript (fuel + 1) s = runScript fuel (s.written n v sc) := by
  have hmay : hostMayWrite n s.state = true := hostMayWrite_iff.2 (.inl ⟨hn, h.rest⟩)
  have hwrite : hostWriteInt n v { s with script := sc } = s.written n v sc := by
    rw [hostWriteInt, if_pos hmay]
    cases n <;> rfl
  exact runScript_host h.turns_eq h.not_busy hs
    ((perform_writeInt (s := { s with script := sc }) hf n).trans (congrArg _ hwrite)) fuel

/-- A script that ran to its end has presented an Integer that fits (R10). -/
theorem fits_of_runScript {fuel : Nat} (hrun : runScript fuel s = .next t) (ht : t.script = []) :
    s.cfg.fits v = true := by
  by_contra hf
  have hstep : step s = .refused .operandTooWide := by
    rw [step_of_turns_nil_not_busy h.turns_eq h.not_busy, hostTurn_of_script_cons hs]
    exact perform_writeInt_tooWide (by simpa using hf) n
  cases fuel with
  | zero =>
    cases hrun
    simp [hs] at ht
  | succ fuel => simp [runScript, hs, hstep] at hrun

end Write

/-! ### A command and its POLL -/

/-- The state after a POLL that found STATE not BUSY and ended the script. -/
def State.polled (s : State) : State := { s.answer (.word s.status) with script := [] }

/-- `CMD i ; POLL`, for a command whose engine's run is known. -/
theorem runScript_accepted {s t : State} {i : Instr} {k : Nat} (hi : i ≠ .resume) (h : Ready s)
    (hs : s.script = [scriptCmd s.cfg i, .poll])
    (hrun : engineRun k (State.accepted i { s with script := [.poll] }) = t) (hdone : t.state = .done) :
    Ready t.polled ∧ ∀ fuel, k + 2 ≤ fuel → runScript fuel s = .next t.polled := by
  subst hrun
  have hready := h.of_host [.poll] s.replies
  have hexec := exec_accepted hi hready.rest
  have hinv := hready.inv.exec hexec
  obtain ⟨-, hscript, hturns, -, -⟩ := engineRun_host k (State.accepted i { s with script := [.poll] })
  exact ⟨⟨(engineRun_inv k _ hinv).of_host rfl, .inr hdone, hturns.trans h.turns_eq⟩,
    runScript_command k h.turns_eq h.not_busy hs hexec hinv.control h.turns_eq (by simp [hdone]) hscript⟩

/-! ### Scripts as the procedures see them -/

section Host

variable {fuel : Nat} {stmts : List HostStmt} {env : HostEnv} {t : State}

theorem hostCall_of_runScript (hrun : runScript fuel { env.machine with script := stmts } = .next t) (hs : t.script = [])
    (hb : t.state ≠ .busy) : hostCall fuel stmts env = .ok (t.replies.head?, { env with machine := t }) := by
  rw [hostCall, hrun]
  exact if_pos ⟨hs, hb⟩

/-- A script that ends in the POLL of a command that completed. -/
theorem hostCommand_of_runScript (hrun : runScript fuel { env.machine with script := stmts } = .next t.polled)
    (hdone : t.state = .done) (herr : t.err = .none) :
    hostCommand fuel stmts env = .ok (t.status, { env with machine := t.polled }) := by
  have hcall : hostCall fuel stmts env = .ok (some (.word t.status), { env with machine := t.polled }) :=
    hostCall_of_runScript hrun rfl (by simp [State.polled, hdone])
  rw [hostCommand, hcall]
  exact if_pos (by rw [statusErr_status, herr])

/-- The state after a script of one read that the port answered with `v`. -/
def State.told (v : Int) (s : State) : State := { s.answer (.int v) with script := [] }

/-- `RD n` of a register whose content is current (R70). -/
theorem hostRead_of_value {n : RegName} {v : Int} (h : Ready env.machine) (hr : env.machine.hostMayRead n = true)
    (hv : (env.machine.reg n).value = some v) (hfuel : fuel ≠ 0) :
    hostRead fuel n env = .ok (v, { env with machine := env.machine.told v }) := by
  obtain ⟨fuel, rfl⟩ := Nat.exists_eq_succ_of_ne_zero hfuel
  have hread : perform (.readInt n) { env.machine with script := [] } = .next (env.machine.told v) :=
    perform_readInt_current hr hv
  have hrun : runScript (fuel + 1) { env.machine with script := [.readInt n] } = .next (env.machine.told v) := by
    rw [runScript_host (s := { env.machine with script := [.readInt n] }) h.turns_eq h.not_busy rfl hread]
    exact runScript_done (s := env.machine.told v) rfl h.not_busy fuel
  have hcall : hostCall (fuel + 1) [.readInt n] env = .ok (some (.int v), { env with machine := env.machine.told v }) :=
    hostCall_of_runScript hrun rfl h.not_busy
  rw [hostRead, hcall]

end Host

end Sys2Proof.Machine
end

section
/-! PROOFS. TRANSFORM on the machine (spec 42_host_procedures.md R208): B and M stand as written, and each element is one MODPOW
whose result is read from R0. -/

namespace Sys2Proof.Machine

/-! ### What TRANSFORM computes -/

/-- MODPOW of each element (R122, R208). -/
def modpowAll (e m : Int) (seq : List Int) : List Int := seq.map fun v => v ^ e.toNat % m

/-- The steps that suffice for one MODPOW with its POLL: bitlen(e) passes, and the steps around them (R279). -/
def modpowPatience (e : Int) : Nat := e.toNat.size + 7

/-- An exponent and a modulus that MODPOW takes (R122), that the port can present (R10), and for which the host's patience is
enough. -/
structure TransformKey (c : Config) (fuel : Nat) (e m : Int) : Prop where
  exponent_nonneg : 0 ≤ e
  modulus_pos : 0 < m
  exponent_fits : c.fits e = true
  modulus_fits : c.fits m = true
  patience : modpowPatience e ≤ fuel

/-- A sequence of elements that MODPOW takes and the port can present. -/
def ElementsFit (c : Config) (seq : List Int) : Prop := ∀ v ∈ seq, 0 ≤ v ∧ c.fits v = true

theorem modpowAll_range {e m v : Int} {seq : List Int} (hm : 0 < m) (hv : v ∈ modpowAll e m seq) : 0 ≤ v ∧ v < m := by
  obtain ⟨u, -, rfl⟩ := List.mem_map.1 hv
  exact ⟨Int.emod_nonneg _ hm.ne', Int.emod_lt_of_pos _ hm⟩

/-- Elements below an Integer that fits fit. -/
theorem ElementsFit.of_range {c : Config} {m : Int} {seq : List Int} (hm : c.fits m = true)
    (h : ∀ v ∈ seq, 0 ≤ v ∧ v < m) : ElementsFit c seq := fun v hv => by
  obtain ⟨h0, hlt⟩ := h v hv
  exact ⟨h0, Config.fits_of_le hm (by omega)⟩

theorem TransformKey.elementsFit {c : Config} {fuel : Nat} {e m : Int} (h : TransformKey c fuel e m) (seq : List Int) :
    ElementsFit c (modpowAll e m seq) :=
  .of_range h.modulus_fits fun _ => modpowAll_range h.modulus_pos

/-! ### One element -/

/-- The machine between two elements of a TRANSFORM. -/
structure Loaded (c : Config) (e m : Int) (s : State) : Prop extends Ready s where
  cfg_eq : s.cfg = c
  b_eq : s.b = .ofInt e
  m_eq : s.m = .ofInt m

section Element

variable {c : Config} {fuel : Nat} {e m v : Int} {s : State} (h : Loaded c e m s) (hkey : TransformKey c fuel e m)
  (hv : 0 ≤ v) (hf : c.fits v = true)
include h hkey hv hf

/-- `WR A, v ; CMD MODPOW ; POLL` leaves the power in R0. -/
theorem runScript_modpow : ∃ t : State, Loaded c e m t.polled ∧ t.state = .done ∧ t.err = .none ∧
    t.r0 = .ofInt (v ^ e.toNat % m) ∧
      runScript fuel { s with script := [.writeInt .a v, scriptCmd c .modpow, .poll] } = .next t.polled := by
  obtain ⟨hready, rfl, hb, hm⟩ := h
  set s₀ : State := { s with script := [.writeInt .a v, scriptCmd s.cfg .modpow, .poll] }
  have hready₀ : Ready s₀ := hready.of_host _ s.replies
  set s₁ := s₀.written .a v [scriptCmd s.cfg .modpow, .poll]
  have hready₁ : Ready s₁ := hready₀.written hf (.inl rfl) _
  set s₂ := State.accepted .modpow { s₁ with script := [.poll] }
  have ha₂ : s₂.operand .a = v := operand_of_value (BigReg.ofInt_value v)
  have hb₂ : s₂.operand .b = e := operand_of_value ((congrArg BigReg.value hb).trans (BigReg.ofInt_value e))
  have hm₂ : s₂.operand .m = m := operand_of_value ((congrArg BigReg.value hm).trans (BigReg.ofInt_value m))
  obtain ⟨mexp, hrun⟩ := modpow_run (s := s₂) rfl rfl (hm₂ ▸ hkey.modulus_pos) (hb₂ ▸ hkey.exponent_nonneg) (ha₂ ▸ hv)
  rw [ha₂, hb₂, hm₂] at hrun
  obtain ⟨hready', hscript⟩ := runScript_accepted (i := .modpow) (by decide) hready₁ rfl hrun rfl
  refine ⟨_, ⟨hready', rfl, hb, hm⟩, rfl, rfl, rfl, ?_⟩
  obtain ⟨fuel, rfl⟩ := Nat.exists_eq_add_of_le' hkey.patience
  rw [show fuel + modpowPatience e = fuel + (e.toNat.size + 6) + 1 from rfl, runScript_writeInt hready₀ rfl hf (.inl rfl)]
  exact hscript _ (by omega)

end Element

/-! ### The sequence -/

/-- The loop of R208: MODPOW of each element, in order. -/
theorem transformLoop_eq {c : Config} {fuel : Nat} {e m : Int} (hkey : TransformKey c fuel e m) (seq : List Int) :
    ∀ env : HostEnv, Loaded c e m env.machine → ElementsFit c seq →
      ∃ s, transformLoop fuel seq env = .ok (modpowAll e m seq, { env with machine := s }) ∧ Loaded c e m s := by
  induction seq with
  | nil => exact fun env h _ => ⟨env.machine, rfl, h⟩
  | cons v seq ih =>
    intro env h hseq
    obtain ⟨⟨hv, hf⟩, hseq⟩ := List.forall_mem_cons.1 hseq
    obtain ⟨t, hloaded, hdone, herr, hr0, hrun⟩ := runScript_modpow h hkey hv hf
    have hcommand := hostCommand_of_runScript hrun hdone herr
    have hfuel : fuel ≠ 0 := Nat.ne_zero_of_lt hkey.patience
    have hread := hostRead_of_value (fuel := fuel) (env := { env with machine := t.polled }) (n := .r0)
      hloaded.toReady (hostMayRead_iff.2 (by simp [State.polled, hdone, herr]))
      ((congrArg BigReg.value hr0).trans (BigReg.ofInt_value _)) hfuel
    obtain ⟨s, hrest, hs⟩ := ih { env with machine := t.polled.told (v ^ e.toNat % m) }
      ⟨hloaded.toReady.of_host _ _, hloaded.cfg_eq, hloaded.b_eq, hloaded.m_eq⟩ hseq
    refine ⟨s, ?_, hs⟩
    rw [transformLoop, h.cfg_eq, hcommand]
    simp only [hread, hrest, modpowAll, List.map_cons]

/-- TRANSFORM is MODPOW on each element, and leaves the machine between commands. -/
theorem transform_eq {env : HostEnv} {e m : Int} {seq : List Int} {fuel : Nat} (h : Ready env.machine)
    (hkey : TransformKey env.machine.cfg fuel e m) (hseq : ElementsFit env.machine.cfg seq) :
    ∃ s, transform fuel seq e m env = .ok (modpowAll e m seq, { env with machine := s }) ∧ Ready s ∧
      s.cfg = env.machine.cfg := by
  set s₀ : State := { env.machine with script := [.writeInt .b e, .writeInt .m m] }
  have h₀ : Ready s₀ := h.of_host _ env.machine.replies
  set s₁ := s₀.written .b e [.writeInt .m m]
  have h₁ : Ready s₁ := h₀.written hkey.exponent_fits (.inr (.inl rfl)) _
  set s₂ := s₁.written .m m []
  have h₂ : Ready s₂ := h₁.written hkey.modulus_fits (.inr (.inr rfl)) _
  have hrun : runScript fuel s₀ = .next s₂ := by
    obtain ⟨fuel, rfl⟩ := Nat.exists_eq_add_of_le' hkey.patience
    rw [show fuel + modpowPatience e = fuel + (e.toNat.size + 5) + 1 + 1 from rfl,
      runScript_writeInt h₀ rfl hkey.exponent_fits (.inr (.inl rfl)),
      runScript_writeInt h₁ rfl hkey.modulus_fits (.inr (.inr rfl))]
    exact runScript_done rfl h₂.not_busy _
  obtain ⟨s, hloop, hs⟩ := transformLoop_eq hkey seq { env with machine := s₂ } ⟨h₂, rfl, rfl, rfl⟩ hseq
  refine ⟨s, ?_, hs.toReady, hs.cfg_eq⟩
  rw [transform, hostCall_of_runScript hrun rfl h₂.not_busy]
  exact hloop

/-- Settles O53: `modpowPatience e` steps are enough for each element. -/
theorem transformAppliesModpow : Obligations.TransformAppliesModpow := by
  intro env seq e m hinv hrest hturns he hm hef hmf hseq
  refine ⟨modpowPatience e, fun fuel hfuel => ?_⟩
  obtain ⟨s, htransform, hs, hcfg⟩ := transform_eq ⟨hinv, hrest, hturns⟩ ⟨he, hm, hef, hmf, hfuel⟩ hseq
  exact ⟨_, htransform, hs.inv, hs.rest, hs.turns_eq, hcfg, rfl⟩

end Sys2Proof.Machine
end

section
/-! PROOFS. RSA on the machine, for true primes (spec 42_host_procedures.md R205, R209 to R212): the round trip, and the channel
made of two of them, one inside the other. -/

namespace Sys2Proof.Machine

/-! ### The arithmetic of RSA -/

/-- The exponents `e` and `d` undo each other on the messages below `n` (R210). -/
def ExponentsInvert (n e d : Int) : Prop := ∀ v, 0 ≤ v → v < n → (v ^ e.toNat % n) ^ d.toNat % n = v

/-- Fermat: an exponent that is 1 modulo p - 1 fixes every residue, 0 among them. -/
theorem pow_modEq_self {p : Nat} (hp : Nat.Prime p) (v : Int) (j : Nat) : v ^ (1 + (p - 1) * j) ≡ v [ZMOD p] := by
  have : Fact p.Prime := ⟨hp⟩
  rw [← ZMod.intCast_eq_intCast_iff, Int.cast_pow, pow_add, pow_one, pow_mul]
  by_cases hv : (v : ZMod p) = 0
  · rw [hv, zero_mul]
  · rw [ZMod.pow_card_sub_one_eq_one hv, one_pow, mul_one]

theorem two_le_totient_of_ne {p q : Nat} (hp : Nat.Prime p) (hq : Nat.Prime q) (hne : p ≠ q) :
    2 ≤ (p - 1) * (q - 1) := by
  have h2p := hp.two_le
  have h2q := hq.two_le
  obtain h | h : 2 ≤ p - 1 ∨ 2 ≤ q - 1 := by omega
  · exact h.trans (Nat.le_mul_of_pos_right _ (by omega))
  · exact h.trans (Nat.le_mul_of_pos_left _ (by omega))

/-- R205's congruence makes the exponents inverse to each other: by Fermat modulo each prime, hence modulo their product. -/
theorem exponentsInvert_of_primes {p q : Nat} {e d : Int} (hp : Nat.Prime p) (hq : Nat.Prime q) (hne : p ≠ q) (he : 0 ≤ e)
    (hd : 0 ≤ d) (hed : e * d % ((p - 1) * (q - 1)) = 1 % ((p - 1) * (q - 1))) :
    ExponentsInvert ((p : Int) * q) e d := by
  lift e to Nat using he
  lift d to Nat using hd
  have h2 := two_le_totient_of_ne hp hq hne
  have hcast : ((p : Int) - 1) * ((q : Int) - 1) = (((p - 1) * (q - 1) : Nat) : Int) := by
    push_cast [Nat.cast_sub hp.one_le, Nat.cast_sub hq.one_le]
    rfl
  rw [hcast] at hed
  obtain ⟨j, hj⟩ : ∃ j, e * d = 1 + (p - 1) * (q - 1) * j := by
    have hmod : e * d % ((p - 1) * (q - 1)) = 1 % ((p - 1) * (q - 1)) := by exact_mod_cast hed
    have hdiv := Nat.mod_add_div (e * d) ((p - 1) * (q - 1))
    rw [hmod, Nat.mod_eq_of_lt h2] at hdiv
    exact ⟨_, hdiv.symm⟩
  intro v h0 hlt
  have hfixed : v ^ (e * d) ≡ v [ZMOD (p : Int) * q] := by
    rw [← Int.modEq_and_modEq_iff_modEq_mul (by simpa using (Nat.coprime_primes hp hq).2 hne), hj]
    refine ⟨?_, ?_⟩
    · rw [mul_assoc]
      exact pow_modEq_self hp v _
    · rw [mul_comm (p - 1), mul_assoc]
      exact pow_modEq_self hq v _
  calc (v ^ e % ((p : Int) * q)) ^ d % ((p : Int) * q)
      = (v ^ e) ^ d % ((p : Int) * q) := (Int.mod_modEq _ _).pow d
    _ = v % ((p : Int) * q) := by rw [← pow_mul]; exact hfixed
    _ = v := Int.emod_eq_of_lt h0 hlt

theorem ExponentsInvert.modpowAll_modpowAll {n e d : Int} (h : ExponentsInvert n e d) {seq : List Int}
    (hseq : ∀ v ∈ seq, 0 ≤ v ∧ v < n) : modpowAll d n (modpowAll e n seq) = seq := by
  unfold modpowAll
  rw [List.map_map]
  exact (List.map_congr_left fun v hv => h v (hseq v hv).1 (hseq v hv).2).trans (List.map_id seq)

/-! ### The round trip -/

theorem transformTwice_eq {env : HostEnv} {e₁ n₁ e₂ n₂ : Int} {seq : List Int} {fuel : Nat} (h : Ready env.machine)
    (hkey₁ : TransformKey env.machine.cfg fuel e₁ n₁) (hkey₂ : TransformKey env.machine.cfg fuel e₂ n₂)
    (hseq : ElementsFit env.machine.cfg seq) :
    ∃ s, transformTwice fuel seq e₁ n₁ e₂ n₂ env =
        .ok (modpowAll e₂ n₂ (modpowAll e₁ n₁ seq), { env with machine := s }) ∧
      Ready s ∧ s.cfg = env.machine.cfg := by
  obtain ⟨s₁, hfirst, hready₁, hcfg₁⟩ := transform_eq h hkey₁ hseq
  obtain ⟨s₂, hsecond, hready₂, hcfg₂⟩ := transform_eq (env := { env with machine := s₁ }) (fuel := fuel) hready₁
    (by rw [hcfg₁]; exact hkey₂) (by rw [hcfg₁]; exact hkey₁.elementsFit seq)
  refine ⟨s₂, ?_, hready₂, hcfg₂.trans hcfg₁⟩
  rw [transformTwice, hfirst]
  exact hsecond

/-- The two exponents of a key pair: each is a key for the machine, and they undo each other in either order. -/
structure InverseKeys (c : Config) (fuel : Nat) (n e d : Int) : Prop where
  first : TransformKey c fuel e n
  second : TransformKey c fuel d n
  invert : ExponentsInvert n e d
  invert' : ExponentsInvert n d e

theorem InverseKeys.symm {c : Config} {fuel : Nat} {n e d : Int} (h : InverseKeys c fuel n e d) :
    InverseKeys c fuel n d e :=
  ⟨h.second, h.first, h.invert', h.invert⟩

theorem inverseKeys_of_primes {c : Config} {fuel p q : Nat} {n e d : Int} (hp : Nat.Prime p) (hq : Nat.Prime q) (hne : p ≠ q)
    (hn : n = (p : Int) * q) (he : 0 ≤ e) (hd : 0 ≤ d) (hed : e * d % ((p - 1) * (q - 1)) = 1 % ((p - 1) * (q - 1)))
    (hnf : c.fits n = true) (hef : c.fits e = true) (hdf : c.fits d = true)
    (hfuel : max (modpowPatience e) (modpowPatience d) ≤ fuel) : InverseKeys c fuel n e d := by
  subst hn
  have hpos : (0 : Int) < (p : Int) * q := mul_pos (by exact_mod_cast hp.pos) (by exact_mod_cast hq.pos)
  obtain ⟨hfe, hfd⟩ := max_le_iff.1 hfuel
  exact ⟨⟨he, hpos, hef, hnf, hfe⟩, ⟨hd, hpos, hdf, hnf, hfd⟩, exponentsInvert_of_primes hp hq hne he hd hed,
    exponentsInvert_of_primes hp hq hne hd he (by rwa [mul_comm])⟩

/-- Settles O54: the second TRANSFORM undoes the first, the exponents being inverse to each other on messages below p*q. -/
theorem rsaRoundTrip : Obligations.RsaRoundTrip := by
  intro env p q e d msg hp hq hne he hd hed hmsg hinv hrest hturns hef hdf hnf
  refine ⟨max (modpowPatience e) (modpowPatience d), fun fuel hfuel => ?_⟩
  have hkeys := inverseKeys_of_primes hp hq hne rfl he hd hed hnf hef hdf hfuel
  obtain ⟨s, htwice, -, -⟩ := transformTwice_eq ⟨hinv, hrest, hturns⟩ hkeys.first hkeys.second (.of_range hnf hmsg)
  rw [hkeys.invert.modpowAll_modpowAll hmsg] at htwice
  exact ⟨_, htwice⟩

/-! ### The channel -/

/-- Two transforms and, in the mirrored order, the two that undo them: the smaller modulus is the inner one, so that what the first
transform makes is a message below the second modulus (R211, R212). -/
theorem transformTwice_mirrored {env : HostEnv} {e₁ d₁ n₁ e₂ d₂ n₂ : Int} {seq : List Int} {fuel : Nat}
    (h : Ready env.machine) (hkeys₁ : InverseKeys env.machine.cfg fuel n₁ e₁ d₁)
    (hkeys₂ : InverseKeys env.machine.cfg fuel n₂ e₂ d₂) (hle : n₁ ≤ n₂) (hseq : ∀ v ∈ seq, 0 ≤ v ∧ v < n₁) :
    ∃ cipher env₁ env₂, transformTwice fuel seq e₁ n₁ e₂ n₂ env = .ok (cipher, env₁) ∧
      transformTwice fuel cipher d₂ n₂ d₁ n₁ env₁ = .ok (seq, env₂) := by
  obtain ⟨s₁, hsend, hready₁, hcfg⟩ :=
    transformTwice_eq h hkeys₁.first hkeys₂.first (.of_range hkeys₁.first.modulus_fits hseq)
  obtain ⟨s₂, hreceive, -, -⟩ := transformTwice_eq (env := { env with machine := s₁ }) (fuel := fuel)
    (seq := modpowAll e₂ n₂ (modpowAll e₁ n₁ seq)) hready₁ (by rw [hcfg]; exact hkeys₂.second)
    (by rw [hcfg]; exact hkeys₁.second) (by rw [hcfg]; exact hkeys₂.first.elementsFit _)
  have hinner : ∀ v ∈ modpowAll e₁ n₁ seq, 0 ≤ v ∧ v < n₂ := fun v hv => by
    obtain ⟨h0, hlt⟩ := modpowAll_range hkeys₁.first.modulus_pos hv
    exact ⟨h0, hlt.trans_le hle⟩
  rw [hkeys₂.invert.modpowAll_modpowAll hinner, hkeys₁.invert.modpowAll_modpowAll hseq] at hreceive
  exact ⟨_, _, _, hsend, hreceive⟩

/-- RECEIVEVERIFIED decodes what its two transforms make, and finds it authentic when that is the original text (R212). -/
theorem receiveVerified_of_transforms {fuel : Nat} {c : ProcConfig} {cipher m text : List Int} {recipient : KeyPair}
    {sender : PublicKey} {env env' : HostEnv}
    (h : (if recipient.n < sender.n then transformTwice fuel cipher sender.e sender.n recipient.d recipient.n env
      else transformTwice fuel cipher recipient.d recipient.n sender.e sender.n env) = .ok (m, env'))
    (hdecode : decodeText c.blockLength c.alphabetSize m = text) :
    receiveVerified fuel c cipher recipient sender (some text) env = .ok ((text, some true), env') := by
  rw [receiveVerified, h]
  simp only [hdecode, Option.map_some, decide_true]

/-- The channel between two key pairs, on the blocks of a text: whichever modulus is smaller, the transforms are mirrored. -/
theorem channel_recovers {env : HostEnv} {c : ProcConfig} {text blocks : List Int} {A B : KeyPair} {fuel : Nat}
    (h : Ready env.machine) (hA : InverseKeys env.machine.cfg fuel A.n A.e A.d)
    (hB : InverseKeys env.machine.cfg fuel B.n B.e B.d)
    (hencode : encodeText c.blockLength c.alphabetSize text = .ok blocks)
    (hdecode : decodeText c.blockLength c.alphabetSize blocks = text)
    (hblocks : ∀ v ∈ blocks, 0 ≤ v ∧ v < min A.n B.n) :
    ∃ cipher env₁ env₂, sendSigned fuel c text A B.public env = .ok (cipher, env₁) ∧
      receiveVerified fuel c cipher B A.public (some text) env₁ = .ok ((text, some true), env₂) := by
  rw [sendSigned, hencode]
  by_cases hlt : B.n < A.n
  · have hbelow : ∀ v ∈ blocks, 0 ≤ v ∧ v < B.n := by rwa [min_eq_right hlt.le] at hblocks
    obtain ⟨cipher, env₁, env₂, hsend, hreceive⟩ := transformTwice_mirrored h hB hA.symm hlt.le hbelow
    exact ⟨cipher, env₁, env₂, (if_pos hlt).trans hsend, receiveVerified_of_transforms ((if_pos hlt).trans hreceive) hdecode⟩
  · have hle : A.n ≤ B.n := not_lt.1 hlt
    have hbelow : ∀ v ∈ blocks, 0 ≤ v ∧ v < A.n := by rwa [min_eq_left hle] at hblocks
    obtain ⟨cipher, env₁, env₂, hsend, hreceive⟩ := transformTwice_mirrored h hA.symm hB hle hbelow
    exact ⟨cipher, env₁, env₂, (if_neg hlt).trans hsend, receiveVerified_of_transforms ((if_neg hlt).trans hreceive) hdecode⟩

/-- Settles O55: the blocks lie below both moduli (R209), so the mirrored transforms give them back, and DECODE gives back the text. -/
theorem channelRecoversTheText : Obligations.ChannelRecoversTheText := by
  intro env c text A B pA qA pB qB hpA hqA hneA hpB hqB hneB hnA hnB heA hdA heB hdB hedA hedB hlen hsize htext hinv hrest
    hturns hfits
  simp only [List.forall_mem_cons, List.not_mem_nil, false_imp_iff, implies_true, and_true] at hfits
  obtain ⟨hnAf, heAf, hdAf, hnBf, heBf, hdBf⟩ := hfits
  obtain ⟨blocks, hencode, hdecode⟩ := codecRoundTrip c.blockLength c.alphabetSize text hlen htext
  have hblocks : ∀ v ∈ blocks, 0 ≤ v ∧ v < min A.n B.n := fun v hv => by
    obtain ⟨h0, hlt⟩ := (encodeText_blocks hlen hencode).2 v hv
    exact ⟨h0, hlt.trans hsize⟩
  refine ⟨max (max (modpowPatience A.e) (modpowPatience A.d)) (max (modpowPatience B.e) (modpowPatience B.d)),
    fun fuel hfuel => ?_⟩
  obtain ⟨hfuelA, hfuelB⟩ := max_le_iff.1 hfuel
  exact channel_recovers ⟨hinv, hrest, hturns⟩
    (inverseKeys_of_primes hpA hqA hneA hnA heA hdA hedA hnAf heAf hdAf hfuelA)
    (inverseKeys_of_primes hpB hqB hneB hnB heB hdB hedB hnBf heBf hdBf hfuelB) hencode hdecode hblocks

end Sys2Proof.Machine
end

section
/-! PROOFS. What a script of the host procedures leaves as it was, whether or not the host's patience sufficed for more of it (spec
42_host_procedures.md R200, R203): the parameters, and with no schedule MR_TRIALS; and that a script which ends in POLL answers
STATUS as it stands at the end. -/

namespace Sys2Proof.Machine

/-! ### Steps -/

theorem perform_cfg {st : HostStmt} {s s' : State} (hp : perform st s = .next s') : s'.cfg = s.cfg := by
  obtain ⟨sc, dr, rp, rfl⟩ | ⟨n, v, -, -, -, rfl⟩ | ⟨n, k, j, w, -, -, -, rfl⟩ | ⟨w, -, rfl⟩ | ⟨w, i, -, -, hexec⟩ |
    ⟨w, e, -, -, rfl⟩ := perform_cases hp
  · rfl
  · exact setReg_cfg _ n _
  · exact setReg_cfg _ n _
  · rfl
  · obtain rfl | ⟨-, -, rfl⟩ | ⟨-, -, rfl⟩ | ⟨-, -, rfl⟩ := exec_cases hexec <;> rfl
  · unfold illegalCommand
    split <;> rfl

/-- No step changes the parameters (R9; log 1). -/
theorem step_cfg {s s' : State} (h : step s = .next s') : s'.cfg = s.cfg := by
  obtain ⟨ts, rfl⟩ | ⟨ts, sc, st, hp⟩ | ⟨ts, rfl⟩ | ⟨ts, rfl⟩ := step_cases h
  · exact (microStep_host _).1
  · exact (perform_cfg hp :)
  · rfl
  · rfl

theorem Inv.step {s s' : State} (h : Inv s) (hs : step s = .next s') : Inv s' :=
  ⟨stepKeepsRegistersInRange s s' h hs, stepKeepsControl s s' h.control hs,
    stepKeepsTheIterations s s' h.control h.phase hs⟩

/-- The branches of `step` with the schedule left to the default. -/
theorem step_cases_of_no_turns {s s' : State} (ht : s.turns = []) (h : step s = .next s') :
    (s.state = .busy ∧ s' = microStep s) ∨ (s.state ≠ .busy ∧ s.script = [] ∧ s' = s) ∨
      (s.state ≠ .busy ∧ ∃ st sc, s.script = st :: sc ∧ perform st { s with script := sc } = .next s') := by
  by_cases hb : s.state = .busy
  · rw [step_of_turns_nil_busy ht hb] at h
    cases h
    exact .inl ⟨hb, rfl⟩
  · rw [step_of_turns_nil_not_busy ht hb] at h
    cases hs : s.script with
    | nil =>
      rw [hostTurn_of_script_nil hs] at h
      cases h
      exact .inr (.inl ⟨hb, rfl, rfl⟩)
    | cons st sc =>
      rw [hostTurn_of_script_cons hs] at h
      exact .inr (.inr ⟨hb, st, sc, rfl, h⟩)

/-! ### The statements of the procedures -/

/-- The statements that the scripts of the host procedures are made of: MR_TRIALS is not written by any. -/
inductive ProcStmt (c : Config) : HostStmt → Prop where
  | read (n : RegName) : ProcStmt c (.readInt n)
  | write (n : RegName) (v : Int) : ProcStmt c (.writeInt n v)
  | command (i : Instr) : ProcStmt c (scriptCmd c i)
  | poll : ProcStmt c .poll

theorem perform_procStmt {st : HostStmt} {s s' : State} (h : ProcStmt s.cfg st) (hb : s.state ≠ .busy)
    (hp : perform st s = .next s') : s'.turns = s.turns ∧ s'.trials = s.trials ∧ s'.script = s.script := by
  cases h with
  | read n =>
    cases hp
    rw [hostReadInt_frame n s]
    exact ⟨rfl, rfl, rfl⟩
  | write n v =>
    simp only [perform] at hp
    split at hp
    · cases hp
      unfold hostWriteInt
      split
      · exact ⟨setReg_turns _ n _, setReg_trials _ n _, setReg_script _ n _⟩
      · exact ⟨rfl, rfl, rfl⟩
    · cases hp
  | command i =>
    rw [perform_scriptCmd] at hp
    obtain rfl | ⟨-, -, rfl⟩ | ⟨-, -, rfl⟩ | ⟨-, -, rfl⟩ := exec_cases hp <;> exact ⟨rfl, rfl, rfl⟩
  | poll =>
    simp only [perform, if_neg hb] at hp
    cases hp
    exact ⟨rfl, rfl, rfl⟩

/-- A script of the procedures in progress, with no schedule: the parameters and MR_TRIALS stand at `c` and `t`. -/
structure InScript (c : Config) (t : Word) (s : State) : Prop where
  cfg_eq : s.cfg = c
  turns_eq : s.turns = []
  trials_eq : s.trials = t
  stmts : ∀ st ∈ s.script, ProcStmt c st

theorem InScript.step {c : Config} {t : Word} {s s' : State} (h : InScript c t s) (hs : step s = .next s') :
    InScript c t s' := by
  have hcfg := (step_cfg hs).trans h.cfg_eq
  obtain ⟨-, rfl⟩ | ⟨-, -, rfl⟩ | ⟨hb, st, sc, hscript, hp⟩ := step_cases_of_no_turns h.turns_eq hs
  · obtain ⟨-, hscript, hturns, -, -⟩ := microStep_host s
    obtain ⟨-, -, -, -, htrials⟩ := microStep_operands s
    exact ⟨hcfg, hturns.trans h.turns_eq, htrials.trans h.trials_eq, hscript ▸ h.stmts⟩
  · exact h
  · have hstmts := hscript ▸ h.stmts
    obtain ⟨hst, hsc⟩ := List.forall_mem_cons.1 hstmts
    obtain ⟨hturns, htrials, hrest⟩ := perform_procStmt (s := { s with script := sc }) (h.cfg_eq ▸ hst) hb hp
    exact ⟨hcfg, hturns.trans h.turns_eq, htrials.trans h.trials_eq, by rw [hrest]; exact hsc⟩

/-- The script still ends in a POLL, or it has ended and the last answer is STATUS as it stands. -/
def Polls (s : State) : Prop :=
  (∃ sc, s.script = sc ++ [.poll]) ∨ (s.script = [] ∧ s.state ≠ .busy ∧ s.replies.head? = some (.word s.status))

theorem Polls.step {c : Config} {t : Word} {s s' : State} (hi : InScript c t s) (h : Polls s) (hs : step s = .next s') :
    Polls s' := by
  obtain ⟨hb, rfl⟩ | ⟨-, -, rfl⟩ | ⟨hb, st, sc, hscript, hp⟩ := step_cases_of_no_turns hi.turns_eq hs
  · obtain h | ⟨-, hb', -⟩ := h
    · rw [Polls, (microStep_host s).2.1]
      exact .inl h
    · exact absurd hb hb'
  · exact h
  · obtain ⟨sc', hsc'⟩ | ⟨hnil, -, -⟩ := h
    · rw [hscript] at hsc'
      cases sc' with
      | nil =>
        cases hsc'
        rw [perform, if_neg hb] at hp
        cases hp
        exact .inr ⟨rfl, hb, rfl⟩
      | cons st' sc' =>
        cases hsc'
        have hst : ProcStmt s.cfg st := hi.cfg_eq ▸ hi.stmts st (by rw [hscript]; exact List.mem_cons_self)
        obtain ⟨-, -, hrest⟩ := perform_procStmt (s := { s with script := sc' ++ [.poll] }) hst hb hp
        exact .inl ⟨sc', hrest⟩
    · simp [hscript] at hnil

/-! ### Scripts -/

/-- What every step keeps, a script keeps. -/
theorem runScript_keeps {P : State → Prop} (hP : ∀ s s', P s → step s = .next s' → P s') (fuel : Nat) :
    ∀ {s t : State}, P s → runScript fuel s = .next t → P t := by
  induction fuel with
  | zero =>
    intro s t h hrun
    cases hrun
    exact h
  | succ fuel ih =>
    intro s t h hrun
    rw [runScript] at hrun
    split at hrun
    · cases hrun
      exact h
    · split at hrun
      · exact ih (hP _ _ h ‹_›) hrun
      · cases hrun
      · cases hrun

/-- More patience does not change a script that has ended. -/
theorem runScript_add {fuel : Nat} (k : Nat) : ∀ {s t : State}, runScript fuel s = .next t → t.script = [] →
    t.state ≠ .busy → runScript (fuel + k) s = .next t := by
  induction fuel with
  | zero =>
    intro s t hrun hs hb
    cases hrun
    exact runScript_done hs hb _
  | succ fuel ih =>
    intro s t hrun hs hb
    rw [Nat.succ_add]
    rw [runScript] at hrun ⊢
    split at hrun
    · rw [if_pos ‹_›]
      exact hrun
    · rw [if_neg ‹_›]
      split at hrun
      · exact ih hrun hs hb
      · cases hrun
      · cases hrun

/-! ### What the procedures see -/

section Host

variable {fuel : Nat} {stmts : List HostStmt} {env env' : HostEnv}

theorem hostCall_cases {r : Option Reply} (h : hostCall fuel stmts env = .ok (r, env')) :
    ∃ s, runScript fuel { env.machine with script := stmts } = .next s ∧ s.script = [] ∧ s.state ≠ .busy ∧
      r = s.replies.head? ∧ env' = { env with machine := s } := by
  unfold hostCall at h
  split at h
  · split at h
    · rename_i s hrun hend
      rw [Except.ok.injEq, Prod.mk.injEq] at h
      exact ⟨s, hrun, hend.1, hend.2, h.1.symm, h.2.symm⟩
    · cases h
  · cases h
  · cases h

/-- A command of the host that is answered: its script ran to an end. -/
theorem hostCommand_cases {w : Word} (h : hostCommand fuel stmts env = .ok (w, env')) :
    ∃ s, runScript fuel { env.machine with script := stmts } = .next s ∧ s.script = [] ∧ s.state ≠ .busy ∧
      s.replies.head? = some (.word w) ∧ env' = { env with machine := s } := by
  unfold hostCommand at h
  split at h
  · rename_i hcall
    obtain ⟨s, hrun, hs, hb, hreply, rfl⟩ := hostCall_cases hcall
    split at h
    · cases h
      exact ⟨s, hrun, hs, hb, hreply.symm, rfl⟩
    · repeat' split at h
      all_goals cases h
  · cases h
  · cases h

/-- What a command of the host leaves of the machine and of what the procedures act on, and what a procedure leaves: the parameters;
with no schedule, MR_TRIALS; of the source, what it has not consumed. -/
structure Leaves (env env' : HostEnv) : Prop where
  cfg_eq : env'.machine.cfg = env.machine.cfg
  quiet : env.machine.turns = [] → env'.machine.turns = [] ∧ env'.machine.trials = env.machine.trials
  source : env'.source <:+ env.source

theorem Leaves.trans {env₁ env₂ env₃ : HostEnv} (h₁ : Leaves env₁ env₂) (h₂ : Leaves env₂ env₃) : Leaves env₁ env₃ where
  cfg_eq := h₂.cfg_eq.trans h₁.cfg_eq
  quiet ht := by
    obtain ⟨ht₁, htrials₁⟩ := h₁.quiet ht
    obtain ⟨ht₂, htrials₂⟩ := h₂.quiet ht₁
    exact ⟨ht₂, htrials₂.trans htrials₁⟩
  source := h₂.source.trans h₁.source

/-- Only the machine has changed where the source stands as it was. -/
theorem Leaves.of_machine {env₁ env₂ : HostEnv} (h : env₂.machine = env₁.machine) (hs : env₂.source <:+ env₁.source) :
    Leaves env₁ env₂ := ⟨by rw [h], fun ht => by rw [h]; exact ⟨ht, rfl⟩, hs⟩

theorem hostCommand_leaves {w : Word} (hst : ∀ st ∈ stmts, ProcStmt env.machine.cfg st)
    (h : hostCommand fuel stmts env = .ok (w, env')) : Leaves env env' ∧ env'.budget = env.budget := by
  obtain ⟨s, hrun, -, -, -, rfl⟩ := hostCommand_cases h
  refine ⟨⟨?cfg, fun ht => ?quiet, List.suffix_refl _⟩, rfl⟩
  case cfg =>
    exact runScript_keeps (s := { env.machine with script := stmts }) (P := fun s => s.cfg = env.machine.cfg)
      (fun _ _ h hs => (step_cfg hs).trans h) fuel rfl hrun
  case quiet =>
    have hin : InScript env.machine.cfg env.machine.trials s :=
      runScript_keeps (s := { env.machine with script := stmts }) (fun _ _ h hs => h.step hs) fuel ⟨rfl, ht, rfl, hst⟩ hrun
    exact ⟨hin.turns_eq, hin.trials_eq⟩

/-- The machine between two statements of a procedure, when its last POLL answered `w`. -/
structure Reported (w : Word) (s : State) : Prop where
  inv : Inv s
  turns_eq : s.turns = []
  not_busy : s.state ≠ .busy
  word_eq : w = s.status

/-- A script that ends in POLL answers STATUS as it stands at the end. -/
theorem hostCommand_reported {sc : List HostStmt} {w : Word} (hinv : Inv env.machine) (ht : env.machine.turns = [])
    (hst : ∀ st ∈ sc ++ [.poll], ProcStmt env.machine.cfg st) (h : hostCommand fuel (sc ++ [.poll]) env = .ok (w, env')) :
    Reported w env'.machine := by
  obtain ⟨s, hrun, hs, hb, hw, rfl⟩ := hostCommand_cases h
  obtain ⟨hinv', hin, hpolls⟩ := runScript_keeps (s := { env.machine with script := sc ++ [.poll] })
    (P := fun s => Inv s ∧ InScript env.machine.cfg env.machine.trials s ∧ Polls s)
    (fun _ _ ⟨hinv, hin, hpolls⟩ hs => ⟨hinv.step hs, hin.step hs, hpolls.step hin hs⟩) fuel
    ⟨hinv.of_host rfl, ⟨rfl, ht, rfl, hst⟩, .inl ⟨sc, rfl⟩⟩ hrun
  refine ⟨hinv', hin.turns_eq, hb, ?_⟩
  obtain ⟨sc', hsc'⟩ | ⟨-, -, hstatus⟩ := hpolls
  · simp [hs] at hsc'
  · rw [hw] at hstatus
    cases hstatus
    rfl

/-- When the word does not ask for a witness the machine is between commands. -/
theorem Reported.ready {w : Word} {s : State} (h : Reported w s) (hw : statusState w ≠ EngState.waitRng.code) : Ready s := by
  rw [h.word_eq, statusState_status] at hw
  have hb := h.not_busy
  refine ⟨h.inv, ?_, h.turns_eq⟩
  cases hs : s.state
  case idle | done => simp
  case busy => exact absurd hs hb
  case waitRng => rw [hs] at hw; exact absurd rfl hw

end Host

end Sys2Proof.Machine
end

section
/-! PROOFS. GENPRIME (spec 42_host_procedures.md R202, R203): what an MRTEST with its witnesses leaves, and that the candidate returned
was drawn in range and accepted. -/

namespace Sys2Proof.Machine

/-! ### MRTEST with its witnesses -/

section Mrtest

variable {fuel : Nat} {w : Word} {v : Bool} {env env' : HostEnv}

/-- What a procedure leaves: as each of its commands, and between commands it leaves the machine between commands. -/
structure Later (env env' : HostEnv) : Prop extends Leaves env env' where
  ready : Ready env.machine → Ready env'.machine

theorem Later.refl (env : HostEnv) : Later env env := ⟨.of_machine rfl (List.suffix_refl _), id⟩

theorem Later.trans {env₁ env₂ env₃ : HostEnv} (h₁ : Later env₁ env₂) (h₂ : Later env₂ env₃) : Later env₁ env₃ :=
  ⟨h₁.toLeaves.trans h₂.toLeaves, h₂.ready ∘ h₁.ready⟩

/-- A draw, and a check of the cancellation budget, leave the machine alone. -/
theorem Later.of_machine {env₁ env₂ : HostEnv} (h : env₂.machine = env₁.machine) (hs : env₂.source <:+ env₁.source) :
    Later env₁ env₂ := ⟨.of_machine h hs, fun hready => h ▸ hready⟩

/-- `MRTEST n` and `WITNESS r` are scripts of this form (R98). -/
theorem operandCommand_procStmt (c : Config) (n : RegName) (v : Int) (i : Instr) :
    ∀ st ∈ [.writeInt n v, scriptCmd c i, .poll], ProcStmt c st := by
  simp only [List.forall_mem_cons, List.not_mem_nil, false_imp_iff, implies_true, and_true]
  exact ⟨.write n v, .command i, .poll⟩

/-- The loop over the witness requests ends with a word that asks for none, or answers the next one. -/
theorem answerWitnesses_cases {answers : List Int} (h : answerWitnesses fuel answers w env = .ok (v, env')) :
    (statusState w ≠ EngState.waitRng.code ∧ env' = env) ∨
      ∃ r rest w₁ env₁, answers = r :: rest ∧
        hostCommand fuel (scriptWitness env.machine.cfg r) { env with source := rest } = .ok (w₁, env₁) ∧
        answerWitnesses fuel rest w₁ env₁ = .ok (v, env') := by
  cases answers with
  | nil =>
    rw [answerWitnesses] at h
    split at h
    · cases h
    · cases h
      exact .inl ⟨‹_›, rfl⟩
  | cons r rest =>
    rw [answerWitnesses] at h
    split at h
    · split at h
      · exact .inr ⟨r, rest, _, _, rfl, ‹_›, h⟩
      · cases h
    · cases h
      exact .inl ⟨‹_›, rfl⟩

theorem answerWitnesses_keeps (answers : List Int) : ∀ {w : Word} {env : HostEnv}, env.source = answers →
    answerWitnesses fuel answers w env = .ok (v, env') →
      Leaves env env' ∧ env'.budget = env.budget ∧ (Reported w env.machine → Ready env'.machine) := by
  induction answers with
  | nil =>
    intro w env _ h
    obtain ⟨hw, rfl⟩ | ⟨_, _, _, _, hnil, -, -⟩ := answerWitnesses_cases h
    · exact ⟨.of_machine rfl (List.suffix_refl _), rfl, fun hr => hr.ready hw⟩
    · cases hnil
  | cons r rest ih =>
    intro w env hsource h
    obtain ⟨hw, rfl⟩ | ⟨r', rest', w₁, env₁, hcons, hcommand, hrest⟩ := answerWitnesses_cases h
    · exact ⟨.of_machine rfl (List.suffix_refl _), rfl, fun hr => hr.ready hw⟩
    · cases hcons
      have hst := operandCommand_procStmt env.machine.cfg .w r .resume
      have hdrawn : Leaves env { env with source := rest } := .of_machine rfl (hsource ▸ List.suffix_cons r rest)
      obtain ⟨hleaves, hbudget⟩ := hostCommand_leaves (env := { env with source := rest }) hst hcommand
      obtain ⟨s, -, -, -, -, rfl⟩ := hostCommand_cases hcommand
      obtain ⟨hleaves', hbudget', hready⟩ := ih rfl hrest
      refine ⟨hdrawn.trans (hleaves.trans hleaves'), hbudget'.trans hbudget, fun hr => hready ?_⟩
      exact hostCommand_reported (env := { env with source := rest }) (sc := [.writeInt .w r, scriptCmd _ .resume]) hr.inv
        hr.turns_eq hst hcommand

/-- An MRTEST that answered its witness requests from the source is over. -/
theorem hostMrtest_later {c : Int} (h : hostMrtest fuel c env = .ok (v, env')) :
    Later env env' ∧ env'.budget = env.budget := by
  rw [hostMrtest] at h
  split at h
  · rename_i w env₁ hcommand
    have hst := operandCommand_procStmt env.machine.cfg .a c .mrtest
    obtain ⟨hleaves, hbudget⟩ := hostCommand_leaves hst hcommand
    obtain ⟨hleaves', hbudget', hready⟩ := answerWitnesses_keeps _ rfl h
    refine ⟨⟨hleaves.trans hleaves', fun hr => hready ?_⟩, hbudget'.trans hbudget⟩
    exact hostCommand_reported (sc := [.writeInt .a c, scriptCmd _ .mrtest]) hr.inv hr.turns_eq hst hcommand
  · cases h

end Mrtest

/-! ### The candidates -/

section Genprime

variable {fuel : Nat} {lo hi c : Int} {env env' : HostEnv}

theorem hostDraw_cases {r : Int} (h : hostDraw lo hi env = .ok (r, env')) :
    ∃ rest, env.source = r :: rest ∧ lo ≤ r ∧ r ≤ hi ∧ env' = { env with source := rest } := by
  rw [hostDraw] at h
  split at h
  · cases h
  · rename_i r' rest hsource
    split at h
    · rename_i hrange
      cases h
      exact ⟨rest, hsource, hrange.1, hrange.2, rfl⟩
    · cases h

/-- One iteration of R203: the candidate is the next answer of the source; accepted, it is returned, and else the loop goes on. -/
theorem genprimeLoop_cases {n : Nat} (h : genprimeLoop fuel lo hi (n + 1) env = .ok (c, env')) :
    ∃ r rest v env₂, env.source = r :: rest ∧ lo ≤ r ∧ r ≤ hi ∧
      hostMrtest fuel r { env with source := rest, budget := n } = .ok (v, env₂) ∧
      ((v = true ∧ c = r ∧ env' = env₂) ∨ genprimeLoop fuel lo hi n env₂ = .ok (c, env')) := by
  rw [genprimeLoop] at h
  split at h
  · rename_i r env₁ hdraw
    obtain ⟨rest, hsource, hlo, hhi, rfl⟩ := hostDraw_cases hdraw
    split at h
    · rename_i v env₂ htest
      refine ⟨r, rest, v, env₂, hsource, hlo, hhi, htest, ?_⟩
      split at h
      · cases h
        exact .inl ⟨‹_›, rfl, rfl⟩
      · exact .inr h
    · cases h
  · cases h

/-- `c` was drawn from what `env` had of the source, and the MRTEST run on `env₁` accepted it. -/
structure Accepted (fuel : Nat) (c : Int) (env env₁ env' : HostEnv) : Prop where
  later : Later env env₁
  drawn : c :: env₁.source <:+ env.source
  test : hostMrtest fuel c env₁ = .ok (true, env')

theorem Accepted.of_later {env₀ env₁ : HostEnv} (h : Accepted fuel c env env₁ env') (h₀ : Later env₀ env) :
    Accepted fuel c env₀ env₁ env' :=
  ⟨h₀.trans h.later, h.drawn.trans h₀.source, h.test⟩

theorem Accepted.later_end {env₁ : HostEnv} (h : Accepted fuel c env env₁ env') : Later env env' :=
  h.later.trans (hostMrtest_later h.test).1

/-- The candidate that the loop returns: the last one drawn, with every earlier one tested before it. -/
theorem genprimeLoop_accepted (n : Nat) : ∀ {env : HostEnv}, genprimeLoop fuel lo hi n env = .ok (c, env') →
    lo ≤ c ∧ c ≤ hi ∧ env'.budget < n ∧ ∃ env₁, env₁.budget = env'.budget ∧ Accepted fuel c env env₁ env' := by
  induction n with
  | zero =>
    intro env h
    cases h
  | succ n ih =>
    intro env h
    obtain ⟨r, rest, v, env₂, hsource, hlo, hhi, htest, hend⟩ := genprimeLoop_cases h
    have hdrawn : Later env { env with source := rest, budget := n } := .of_machine rfl (hsource ▸ List.suffix_cons r rest)
    obtain ⟨hlater, hbudget⟩ := hostMrtest_later htest
    obtain ⟨rfl, rfl, rfl⟩ | hrest := hend
    · exact ⟨hlo, hhi, hbudget ▸ Nat.lt_succ_self n, _, hbudget.symm, hdrawn, hsource ▸ List.suffix_refl _, htest⟩
    · obtain ⟨hlo', hhi', hlt, env₁, hbudget₁, haccepted⟩ := ih hrest
      exact ⟨hlo', hhi', hlt.trans (Nat.lt_succ_self n), env₁, hbudget₁, haccepted.of_later (hdrawn.trans hlater)⟩

/-- What GENPRIME returns: a candidate of the width, accepted by MRTEST (R203). -/
theorem genprime_accepted {p : ProcConfig} {digitWidth : Nat} (h : genprime fuel p env digitWidth = .ok (c, env')) :
    1 ≤ digitWidth ∧ 10 ^ (digitWidth - 1) ≤ c ∧ c ≤ 10 ^ digitWidth - 1 ∧ env'.budget < env.budget ∧
      ∃ env₁, env₁.budget = env'.budget ∧ Accepted fuel c env env₁ env' := by
  rw [genprime] at h
  split at h
  · cases h
  · exact ⟨Nat.one_le_iff_ne_zero.2 ‹_›, genprimeLoop_accepted _ h⟩

theorem genprime_later {p : ProcConfig} {digitWidth : Nat} (h : genprime fuel p env digitWidth = .ok (c, env')) :
    Later env env' := by
  obtain ⟨-, -, -, -, env₁, -, haccepted⟩ := genprime_accepted h
  exact haccepted.later_end

/-- The default width (R8). -/
theorem genprime_default_range (h : genprime fuel { } env = .ok (c, env')) : (10 : Int) ^ 49 ≤ c ∧ c < (10 : Int) ^ 50 := by
  obtain ⟨-, hlo, hhi, -, -⟩ := genprime_accepted h
  exact ⟨hlo, Int.lt_of_le_sub_one hhi⟩

end Genprime

/-- Settles O56, from what the loop of R203 returns. -/
theorem genprimeReturnsAcceptedCandidate : Obligations.GenprimeReturnsAcceptedCandidate := by
  refine ⟨fun fuel digitWidth p env env' c h => ?_, fun fuel env env' c => genprime_default_range⟩
  obtain ⟨hwidth, hlo, hhi, hlt, env₁, hbudget, haccepted⟩ := genprime_accepted h
  obtain ⟨drawn, hdrawn⟩ := haccepted.drawn
  exact ⟨hwidth, hlo, hhi, hlt, env₁, drawn, hdrawn.symm, hbudget, haccepted.later.cfg_eq, haccepted.later.quiet,
    haccepted.test⟩

end Sys2Proof.Machine
end

section
/-! PROOFS. KEYGEN (spec 42_host_procedures.md R204, R205): its primes are what a GENPRIME returned, and its exponents are what a
MODINV found inverse to each other. -/

namespace Sys2Proof.Machine

/-! ### MODINV as the procedures see it -/

/-- The end of a MODINV of `a` modulo `m` (R132): V tells whether the inverse exists, and R0 holds it. -/
structure ModinvEnd (a m : Int) (t : State) : Prop where
  ready : Ready t
  done : t.state = .done
  err_eq : t.err = .none
  verdict : t.v = true → Int.gcd a m = 1 ∧ ∃ d, t.r0 = .ofInt d ∧ 0 ≤ d ∧ d < m ∧ a * d % m = 1 % m

/-- A script that ran to its end has gone past a write at its head, and the Integer fitted. -/
theorem runScript_writeInt_cases {s t : State} {n : RegName} {v : Int} {sc : List HostStmt} {fuel : Nat} (h : Ready s)
    (hs : s.script = .writeInt n v :: sc) (hn : n = .a ∨ n = .b ∨ n = .m) (hrun : runScript fuel s = .next t)
    (ht : t.script = []) : Ready (s.written n v sc) ∧ ∃ fuel', runScript fuel' (s.written n v sc) = .next t := by
  have hf := fits_of_runScript h hs hrun ht
  refine ⟨h.written hf hn sc, ?_⟩
  cases fuel with
  | zero =>
    cases hrun
    simp [hs] at ht
  | succ fuel => exact ⟨fuel, by rwa [runScript_writeInt h hs hf hn] at hrun⟩

/-- `CMD MODINV ; POLL` with A and M written, as far as it must go. -/
theorem runScript_modinv {s : State} {a m : Int} (h : Ready s) (hs : s.script = [scriptCmd s.cfg .modinv, .poll])
    (ha : s.a = .ofInt a) (hm : s.m = .ofInt m) (ha0 : 0 ≤ a) (hm0 : 0 < m) :
    ∃ (t : State) (k : Nat), ModinvEnd a m t.polled ∧ ∀ fuel, k ≤ fuel → runScript fuel s = .next t.polled := by
  set s₁ := State.accepted .modinv { s with script := [.poll] }
  have ha₁ : s₁.operand .a = a := operand_of_value ((congrArg BigReg.value ha).trans (BigReg.ofInt_value a))
  have hm₁ : s₁.operand .m = m := operand_of_value ((congrArg BigReg.value hm).trans (BigReg.ofInt_value m))
  obtain ⟨k, xg, mr, hinverse, hrun⟩ := modinv_run (s := s₁) rfl rfl (ha₁ ▸ ha0) (hm₁ ▸ hm0)
  rw [ha₁, hm₁] at hinverse hrun
  obtain ⟨hready, hscript⟩ := runScript_accepted (i := .modinv) (by decide) h hs hrun rfl
  refine ⟨_, k + 2, ⟨hready, rfl, rfl, fun hv => ?_⟩, hscript⟩
  have hgcd : Int.gcd a m = 1 := of_decide_eq_true hv
  exact ⟨hgcd, xg.inv, if_pos hgcd, hinverse hgcd⟩

/-- `MODINV a, m` of a host that saw it end. -/
theorem hostCommand_modinv {fuel : Nat} {env env' : HostEnv} {a m : Int} {w : Word} (h : Ready env.machine) (ha : 0 ≤ a)
    (hm : 0 < m) (hcommand : hostCommand fuel (scriptModinv env.machine.cfg a m) env = .ok (w, env')) :
    w = env'.machine.status ∧ ModinvEnd a m env'.machine := by
  obtain ⟨t, hrun, hs, hb, hw, rfl⟩ := hostCommand_cases hcommand
  obtain ⟨h₁, fuel₁, hrun₁⟩ := runScript_writeInt_cases (h.of_host _ env.machine.replies) rfl (.inl rfl) hrun hs
  obtain ⟨h₂, fuel₂, hrun₂⟩ := runScript_writeInt_cases h₁ rfl (.inr (.inr rfl)) hrun₁ hs
  obtain ⟨u, k, hend, hrun'⟩ := runScript_modinv h₂ rfl rfl rfl ha hm
  have heq := (runScript_add k hrun₂ hs hb).symm.trans (hrun' (fuel₂ + k) (Nat.le_add_left k fuel₂))
  cases heq
  cases hw
  exact ⟨rfl, hend⟩

/-- `RD n` of a host that was answered with a current register: the answer is its value. -/
theorem hostRead_eq_value {fuel : Nat} {env env' : HostEnv} {n : RegName} {u v : Int} (h : Ready env.machine)
    (hr : env.machine.hostMayRead n = true) (hv : (env.machine.reg n).value = some v)
    (hread : hostRead fuel n env = .ok (u, env')) : u = v := by
  have hfuel : fuel ≠ 0 := by
    rintro rfl
    simp [hostRead, hostCall, runScript] at hread
  rw [hostRead_of_value h hr hv hfuel] at hread
  cases hread
  rfl

/-! ### The exponents -/

/-- What R205 says of the exponents for `phi`. -/
structure ExponentsFor (phi e d : Int) : Prop where
  one_lt : 1 < e
  lt_phi : e < phi
  gcd_eq : Int.gcd e phi = 1
  d_pos : 0 < d
  d_lt : d < phi
  inverse : e * d % phi = 1

/-- The range of e leaves more than one residue, so 1 is its own remainder and the inverse of e is not 0. -/
theorem ExponentsFor.of_inverse {phi e d : Int} (hlo : 2 ≤ e) (hhi : e ≤ phi - 1) (hgcd : Int.gcd e phi = 1) (h0 : 0 ≤ d)
    (hlt : d < phi) (hinverse : e * d % phi = 1 % phi) : ExponentsFor phi e d := by
  have hone : (1 : Int) % phi = 1 := Int.emod_eq_of_lt (by norm_num) (by omega)
  rw [hone] at hinverse
  have hne : d ≠ 0 := by
    rintro rfl
    simp at hinverse
  exact ⟨by omega, by omega, hgcd, by omega, hlt, hinverse⟩

section Exponents

variable {fuel : Nat} {phi e d : Int} {env env' : HostEnv}

/-- One iteration of the choice of e (R204): with V = 1 the inverse is read from R0, and else the loop goes on. -/
theorem chooseExponent_cases {n : Nat} (h : chooseExponent fuel phi (n + 1) env = .ok ((e, d), env')) :
    ∃ r rest w env₂, 2 ≤ r ∧ r ≤ phi - 1 ∧
      hostCommand fuel (scriptModinv env.machine.cfg r phi) { env with source := rest, budget := n } = .ok (w, env₂) ∧
      ((statusV w = true ∧ e = r ∧ hostRead fuel .r0 env₂ = .ok (d, env')) ∨
        chooseExponent fuel phi n env₂ = .ok ((e, d), env')) := by
  rw [chooseExponent] at h
  split at h
  · rename_i r env₁ hdraw
    obtain ⟨rest, -, hlo, hhi, rfl⟩ := hostDraw_cases hdraw
    split at h
    · rename_i w env₂ hcommand
      refine ⟨r, rest, w, env₂, hlo, hhi, hcommand, ?_⟩
      split at h
      · split at h
        · cases h
          exact .inl ⟨‹_›, rfl, ‹_›⟩
        · cases h
      · exact .inr h
    · cases h
  · cases h

theorem chooseExponent_spec (n : Nat) : ∀ {env : HostEnv}, Ready env.machine →
    chooseExponent fuel phi n env = .ok ((e, d), env') → ExponentsFor phi e d := by
  induction n with
  | zero =>
    intro env _ h
    cases h
  | succ n ih =>
    intro env hready h
    obtain ⟨r, rest, w, env₂, hlo, hhi, hcommand, hend⟩ := chooseExponent_cases h
    obtain ⟨rfl, hmodinv⟩ := hostCommand_modinv (env := { env with source := rest, budget := n }) hready (by omega) (by omega)
      hcommand
    obtain ⟨hv, rfl, hread⟩ | hrest := hend
    · rw [statusV_status] at hv
      obtain ⟨hgcd, x, hr0, hx0, hxlt, hx⟩ := hmodinv.verdict hv
      have hmay : env₂.machine.hostMayRead .r0 = true := hostMayRead_iff.2 (by simp [hmodinv.done, hmodinv.err_eq])
      obtain rfl := hostRead_eq_value hmodinv.ready hmay ((congrArg BigReg.value hr0).trans (BigReg.ofInt_value x)) hread
      exact .of_inverse hlo hhi hgcd hx0 hxlt hx
    · exact ih hmodinv.ready hrest

end Exponents

/-! ### The key pair -/

section Keygen

variable {fuel digitWidth : Nat} {c : ProcConfig} {env env' : HostEnv}

/-- The second prime is what some later GENPRIME returned, and is not the first (R204). -/
theorem distinctPrime_cases {p q : Int} (tries : Nat) : ∀ {env : HostEnv},
    distinctPrime fuel c digitWidth p tries env = .ok (q, env') →
      q ≠ p ∧ ∃ env₀, Later env env₀ ∧ genprime fuel c env₀ digitWidth = .ok (q, env') := by
  induction tries with
  | zero =>
    intro env h
    cases h
  | succ n ih =>
    intro env h
    rw [distinctPrime] at h
    split at h
    · rename_i hgenprime
      split at h
      · cases h
        exact ⟨‹_›, env, .refl env, hgenprime⟩
      · obtain ⟨hne, env₀, hlater, hq⟩ := ih h
        exact ⟨hne, env₀, (genprime_later hgenprime).trans hlater, hq⟩
    · cases h

/-- The parts of a KEYGEN that returned. -/
theorem keygen_cases {k : KeyPair} (h : keygen fuel c env digitWidth = .ok (k, env')) :
    ∃ env₁ env₂, genprime fuel c env digitWidth = .ok (k.p, env₁) ∧
      distinctPrime fuel c digitWidth k.p (env₁.budget + 1) env₁ = .ok (k.q, env₂) ∧
      chooseExponent fuel ((k.p - 1) * (k.q - 1)) env₂.budget env₂ = .ok ((k.e, k.d), env') ∧ k.n = k.p * k.q := by
  rw [keygen] at h
  split at h
  · rename_i p env₁ hp
    split at h
    · rename_i q env₂ hq
      split at h
      · cases h
      · split at h
        · cases h
          exact ⟨env₁, env₂, hp, hq, ‹_›, rfl⟩
        · cases h
    · cases h
  · cases h

/-- Each prime of a key pair is what a GENPRIME returned. -/
theorem keygen_primes {k : KeyPair} (h : keygen fuel c env digitWidth = .ok (k, env')) :
    ∀ x ∈ [k.p, k.q], ∃ env₀ env₁, Later env env₀ ∧ genprime fuel c env₀ digitWidth = .ok (x, env₁) := by
  obtain ⟨env₁, env₂, hp, hq, -, -⟩ := keygen_cases h
  obtain ⟨-, env₀, hlater, hq'⟩ := distinctPrime_cases _ hq
  simp only [List.forall_mem_cons, List.not_mem_nil, false_imp_iff, implies_true, and_true]
  exact ⟨⟨env, env₁, .refl env, hp⟩, env₀, env₂, (genprime_later hp).trans hlater, hq'⟩

theorem keygen_keyPair {k : KeyPair} (hready : Ready env.machine) (h : keygen fuel c env digitWidth = .ok (k, env')) :
    k.n = k.p * k.q ∧ k.p ≠ k.q ∧ ExponentsFor ((k.p - 1) * (k.q - 1)) k.e k.d := by
  obtain ⟨env₁, env₂, hp, hq, hexponent, hn⟩ := keygen_cases h
  obtain ⟨hne, env₀, hlater, hq'⟩ := distinctPrime_cases _ hq
  have hready₂ : Ready env₂.machine := (genprime_later hq').ready (hlater.ready ((genprime_later hp).ready hready))
  exact ⟨hn, hne.symm, chooseExponent_spec _ hready₂ hexponent⟩

end Keygen

/-- Settles O57: the primes are GENPRIME's, and the machine is between commands again when the exponents are chosen. -/
theorem keygenReturnsAKeyPair : Obligations.KeygenReturnsAKeyPair := by
  refine ⟨fun fuel digitWidth c env env' k hinv hrest hturns h => ?_, fun fuel env env' k h x hx => ?default⟩
  case default =>
    obtain ⟨env₀, env₁, -, hx⟩ := keygen_primes h x hx
    exact genprime_default_range hx
  obtain ⟨hn, hne, hexponents⟩ := keygen_keyPair ⟨hinv, hrest, hturns⟩ h
  refine ⟨hn, hne, hexponents.one_lt, hexponents.lt_phi, hexponents.gcd_eq, hexponents.d_pos, hexponents.d_lt,
    hexponents.inverse, fun x hx => ?_⟩
  obtain ⟨env₀, env₂, hlater, hgenprime⟩ := keygen_primes h x hx
  obtain ⟨-, hlo, hhi, -, env₁, -, haccepted⟩ := genprime_accepted hgenprime
  obtain ⟨drawn, hdrawn⟩ := (haccepted.of_later hlater).drawn
  have hfrom := (haccepted.of_later hlater).later
  exact ⟨hlo, hhi, env₁, env₂, drawn, hdrawn.symm, hfrom.cfg_eq, (hfrom.quiet hturns).2, haccepted.test⟩

end Sys2Proof.Machine
end

section
/-! PROOFS. Taking a fault (spec 60_exceptions.md R243, R244, R247): RESUME with the witness out of range, and that a step takes a
fault by `raiseFault` or leaves the history of faults alone. -/

namespace Sys2Proof.Machine

/-! ### RNG_RANGE -/

theorem exec_resume_outOfRange {s : State} (hs : s.state = .waitRng)
    (hw : s.operand .w < 2 ∨ s.operand .w > s.operand .a - 2) : exec .resume s = .next (raiseFault .rngRange s) := by
  rw [exec_resume, if_pos hs, deliverWitness, if_pos hw]

/-- Settles O9: the range check fails, and the state asked for is the fault entry of RNG_RANGE. -/
theorem resumeOutOfRangeFaults : Obligations.ResumeOutOfRangeFaults := fun _ => exec_resume_outOfRange

/-! ### The fault entry -/

/-- What a move from `s` to a next state does about faults: it takes none, and then ERR is kept or cleared, or it is the fault
entry `raiseFault` and nothing besides (R247). -/
inductive FaultMove (s : State) : State → Prop where
  | quiet {s' : State} (hhistory : s'.history = s.history) (herr : s'.err = s.err ∨ s'.err = .none) : FaultMove s s'
  | fault (f : FaultCode) (hf : f ≠ .none) : FaultMove s (raiseFault f s)

theorem microStep_faultMove (s : State) : FaultMove s (microStep s) := by
  obtain ⟨ph, ret, mexp, xg, mr, h⟩ | ⟨-, h⟩ | h | ⟨x, y, z, v, h⟩ := microStep_cases s <;> rw [h]
  · exact .quiet rfl (.inl rfl)
  · exact .quiet rfl (.inl rfl)
  · exact .fault _ (by decide)
  · exact .quiet rfl (.inr rfl)

theorem exec_faultMove {i : Instr} {s s' : State} (h : exec i s = .next s') : FaultMove s s' := by
  obtain rfl | ⟨-, -, rfl⟩ | ⟨-, -, rfl⟩ | ⟨-, -, rfl⟩ := exec_cases h
  · exact .quiet rfl (.inl rfl)
  · exact .quiet rfl (.inr rfl)
  · exact .fault _ (by decide)
  · exact .quiet rfl (.inl rfl)

theorem illegalCommand_faultMove (s : State) : FaultMove s (illegalCommand s) := by
  unfold illegalCommand
  split
  · exact .fault _ (by decide)
  · exact .quiet rfl (.inl rfl)

theorem perform_faultMove {st : HostStmt} {s s' : State} (hp : perform st s = .next s') : FaultMove s s' := by
  obtain ⟨sc, dr, rp, rfl⟩ | ⟨n, v, -, -, -, rfl⟩ | ⟨n, k, j, w, -, -, -, rfl⟩ | ⟨w, -, rfl⟩ | ⟨w, i, -, -, hexec⟩ |
    ⟨w, e, -, -, rfl⟩ := perform_cases hp
  · exact .quiet rfl (.inl rfl)
  · exact .quiet (setReg_history ..) (.inl (setReg_err ..))
  · exact .quiet (setReg_history ..) (.inl (setReg_err ..))
  · exact .quiet rfl (.inl rfl)
  · exact exec_faultMove hexec
  · exact illegalCommand_faultMove s

/-- Reset clears ERR and keeps the history (R40; log 20). -/
theorem applyReset_faultMove (s : State) : FaultMove s (applyReset s) := .quiet rfl (.inr rfl)

/-- The host's turn is a `FaultMove` once its statement is off the script. -/
theorem hostTurn_faultMove {s s' : State} (h : hostTurn s = .next s') :
    ∃ sc, (sc = s.script ∨ sc = s.script.tail) ∧ FaultMove { s with script := sc } s' := by
  cases hs : s.script with
  | nil =>
    rw [hostTurn_of_script_nil hs] at h
    cases h
    exact ⟨[], .inl rfl, .quiet rfl (.inl rfl)⟩
  | cons st sc =>
    rw [hostTurn_of_script_cons hs] at h
    exact ⟨sc, .inr rfl, perform_faultMove h⟩

/-- A step is a `FaultMove` once the schedule has moved on by one, and the script by at most one. -/
theorem step_faultMove {s s' : State} (h : step s = .next s') :
    ∃ sc, (sc = s.script ∨ sc = s.script.tail) ∧ FaultMove { s with turns := s.turns.tail, script := sc } s' := by
  match ht : s.turns with
  | .engine :: ts =>
    rw [step_of_turns_engine ht] at h
    cases h
    exact ⟨s.script, .inl rfl, microStep_faultMove _⟩
  | .host :: ts =>
    rw [step_of_turns_host ht] at h
    exact (hostTurn_faultMove h :)
  | .rst :: ts =>
    rw [step_of_turns_rst ht] at h
    cases h
    exact ⟨s.script, .inl rfl, applyReset_faultMove _⟩
  | [] =>
    have hstay : ({ s with turns := [].tail } : State) = s := by rw [List.tail_nil, ← ht]
    by_cases hb : s.state = .busy
    · rw [step_of_turns_nil_busy ht hb, ← hstay] at h
      cases h
      exact ⟨s.script, .inl rfl, microStep_faultMove _⟩
    · rw [step_of_turns_nil_not_busy ht hb, ← hstay] at h
      exact (hostTurn_faultMove h :)

/-- Settles O29: a step whose history grows or whose ERR takes a new code is no quiet `FaultMove`. -/
theorem faultEntryIsAtomic : Obligations.FaultEntryIsAtomic := by
  intro s s' hstep htakes
  obtain ⟨sc, hsc, hmove⟩ := step_faultMove hstep
  cases hmove with
  | quiet hhistory herr =>
    obtain hgrows | ⟨hnew, hcode⟩ := htakes
    · exact absurd hhistory hgrows
    · exact absurd herr (not_or.2 ⟨hnew, hcode⟩)
  | fault f hf => exact ⟨hsc, f, hf, rfl⟩

end Sys2Proof.Machine
end

section
/-! PROOFS. Reset (spec 10_state.md R40; 70_reset_and_hazards.md R270), the host's writes while the engine runs (R272), and the engine
waiting for a witness (R278). -/

namespace Sys2Proof.Machine

/-! ### Reset -/

/-- A register none of whose cells is written holds `none`; every register has a cell. -/
theorem BigReg.void_value {cells : Nat} (h : 0 < cells) : (BigReg.void cells).value = none :=
  if_neg (by simpa [BigReg.void] using h.ne')

theorem Config.cells_pos (c : Config) : 0 < c.cells := by
  unfold Config.cells
  split <;> omega

/-- Settles O34: a reset turn is `applyReset`, which sets each of these fields, whatever the state held. -/
theorem resetAbandonsEverything : Obligations.ResetAbandonsEverything := by
  intro s ts ht
  have hvoid := BigReg.void_value (Config.cells_pos s.cfg)
  exact ⟨_, step_of_turns_rst ht, rfl, rfl, rfl, rfl, rfl, rfl, fun n => by cases n <;> exact hvoid, rfl, rfl, rfl⟩

/-! ### Writes while BUSY -/

theorem hostWriteInt_busy {s : State} (h : s.state = .busy) (n : RegName) (v : Int) : hostWriteInt n v s = s :=
  if_neg (by simp [hostMayWrite_iff, h])

theorem hostWriteCell_busy {s : State} (h : s.state = .busy) (n : RegName) (j : Nat) (w : Word) : hostWriteCell n j w s = s :=
  if_neg (by simp [hostMayWrite_iff, h])

theorem hostWriteTrials_busy {s : State} (h : s.state = .busy) (w : Word) : hostWriteTrials w s = s :=
  if_neg (by simp [mayAccept_iff, h])

/-- A word written to CMD while BUSY is dropped, a command or not (R95). -/
theorem writeCmd_busy {s : State} (h : s.state = .busy) (w : Word) : writeCmd w s = .next s := by
  unfold writeCmd
  split
  · exact commandOutOfTurnIsDropped s _ (.inl h)
  · rw [illegalCommand_dropped (.inl h)]

/-- A word written while BUSY, to any place of the register map at which the port answers, is dropped (R69). -/
theorem writeTarget_busy {t : PortTarget} {w : Word} {s s' : State} (h : s.state = .busy)
    (hw : writeTarget t w s = .next s') : s' = s := by
  cases t with
  | cmd => exact Host.Outcome.next.inj (hw.symm.trans (writeCmd_busy h w))
  | trials => exact (Host.Outcome.next.inj hw).symm.trans (hostWriteTrials_busy h w)
  | cell n j => exact (Host.Outcome.next.inj hw).symm.trans (hostWriteCell_busy h n j w)
  | status | unmapped => exact (Host.Outcome.next.inj hw).symm
  | wordless => cases hw

/-- Settles O44: a word write reaches a place of the register map, and a whole-register write its register. -/
theorem busyDropsEveryWrite : Obligations.BusyDropsEveryWrite := by
  refine fun s s' hb => ⟨fun addr size w h => ?word, fun r v h => ?whole⟩
  case word =>
    rw [perform_memWrite] at h
    obtain ⟨t, ht⟩ := target_of_portAccess_next h
    exact writeTarget_busy hb ht
  case whole =>
    cases hfits : s.cfg.fits v with
    | false =>
      rw [perform_writeInt_tooWide hfits] at h
      cases h
    | true =>
      rw [perform_writeInt hfits, hostWriteInt_busy hb] at h
      exact (Host.Outcome.next.inj h).symm

/-! ### WAIT_RNG -/

/-- A statement of the host that leaves WAIT_RNG is a CMD write of the word of RESUME (R278): of all that a statement can do only a
command changes STATE there, and every command but RESUME is dropped. -/
theorem perform_waitRng {st : HostStmt} {s s' : State} (hs : s.state = .waitRng) (hp : perform st s = .next s')
    (hne : s'.state ≠ .waitRng) : st = .memWrite s.cfg.base 4 (encode .resume) := by
  obtain ⟨sc, dr, rp, rfl⟩ | ⟨n, v, -, -, -, rfl⟩ | ⟨n, k, j, w, -, -, -, rfl⟩ | ⟨w, -, rfl⟩ | ⟨w, i, hst, hdec, hexec⟩ |
    ⟨w, e, -, -, rfl⟩ := perform_cases hp
  · exact absurd hs hne
  · exact absurd ((setReg_state ..).trans hs) hne
  · exact absurd ((setReg_state ..).trans hs) hne
  · exact absurd hs hne
  · by_cases hi : i = .resume
    · rw [hst, decode_eq_ok_iff.1 hdec, hi]
    · rw [exec_dropped hi (.inr hs)] at hexec
      cases hexec
      exact absurd hs hne
  · rw [illegalCommand_dropped (.inr hs)] at hne
    exact absurd hs hne

/-- Settles O32: the engine is at rest, commands other than RESUME are dropped, and `perform_waitRng`. -/
theorem onlyResumeLeavesWaitRng : Obligations.OnlyResumeLeavesWaitRng := fun _ hc hs =>
  ⟨engineRun_rest hc (by simp [hs]), fun _ hi => exec_dropped hi (.inr hs), fun _ _ => perform_waitRng hs⟩

end Sys2Proof.Machine
end

section
/-! PROOFS. Every command ends (spec 70_reset_and_hazards.md R277): from every state of the invariant the engine leaves BUSY, and an
MRTEST whose requests are answered runs out of trials (20_memory.md R76; 41_primality.md R163). -/

namespace Sys2Proof.Machine

/-! ### The engine leaves BUSY -/

/-- How many phases a command in this phase may still enter, the one in which it leaves BUSY included. Between two requests of
MRTEST no phase comes again once it is left, for RESUME alone begins the next trial (R165). -/
def Phase.ahead : Phase → Nat
  | .idle | .mrWait => 0
  | .mpFin | .xgFin | .miFin | .mrFin | .tdFin => 1
  | .miNorm | .mrTrial | .tdLoop => 2
  | .mrDecomp | .mrSq | .xgLoop | .tdCheck => 3
  | .mrSpecial | .mrFirst | .xgInit => 4
  | .mpLoop | .xgCheck | .miCheck => 5
  | .mpInit => 6
  | .mpCheck => 7

/-- The phases that repeat. -/
def Phase.loops : List Phase := [.mpLoop, .xgLoop, .mrDecomp, .mrSq, .tdLoop]

/-- From `s` to `t` the engine has left BUSY or entered a later phase. -/
def MovesOn (s t : State) : Prop := t.state ≠ .busy ∨ t.ph.ahead < s.ph.ahead

/-- A phase that is no loop moves on in one micro-step. -/
theorem microStep_movesOn {s : State} (hs : s.state = .busy) (hc : ControlInv s)
    (hp : s.ph ∉ Phase.loops) : MovesOn s (microStep s) := by
  have hidle : s.ph ≠ .idle := fun h => by simpa [hs] using hc.idle_iff.1 h
  have hwait : s.ph ≠ .mrWait := fun h => by simpa [hs] using hc.wait_iff.1 h
  unfold MovesOn
  cases hph : s.ph <;> simp only [microStep, hph]
  case idle => exact absurd hph hidle
  case mrWait => exact absurd hph hwait
  case mpLoop | xgLoop | mrDecomp | mrSq | tdLoop => simp [hph, Phase.loops] at hp
  case mpFin | xgFin | miFin | mrFin | tdFin => exact .inl (by simp [mpFin, xgFin, miFin, mrFin, tdFin, finishVerdict])
  case mpInit | xgInit => exact .inr (by simp [mpInit, xgInit, Phase.ahead])
  case mpCheck | xgCheck | miCheck =>
    simp only [mpCheck, xgCheck, miCheck]
    split
    · exact .inl (by simp)
    · exact .inr (by simp [Phase.ahead])
  case mrTrial =>
    unfold mrTrial
    split
    · exact .inr (by simp [Phase.ahead])
    · exact .inl (by simp)
  case miNorm | mrSpecial | mrFirst | tdCheck =>
    simp only [miNorm, mrSpecial, mrFirst, tdCheck]
    repeat' split
    all_goals exact .inr (by simp [Phase.ahead])

/-- A loop moves on after finitely many passes: each has its run to the exit. -/
theorem loop_movesOn {s : State} (hc : ControlInv s) (h : PhaseInv s)
    (hp : s.ph ∈ Phase.loops) : ∃ k, MovesOn s (engineRun k s) := by
  have hlatch := hc.latches
  have hrun : ∀ {k : Nat} {t : State}, engineRun k s = t → t.ph.ahead < s.ph.ahead → ∃ k, MovesOn s (engineRun k s) :=
    fun hk hlt => ⟨_, .inr (hk ▸ hlt)⟩
  cases hph : s.ph <;> simp only [hph, latchesFit, PhaseInv, Bool.or_eq_true, decide_eq_true_eq] at hlatch h
  case mpLoop =>
    obtain ⟨mexp, hk, -⟩ := mpLoop_run_of_inv hph h.1
    refine hrun hk ?_
    obtain ⟨-, hret⟩ | ⟨-, hret⟩ := hlatch <;> simp [hph, hret, Phase.ahead]
  case xgLoop =>
    have hg0 := Int.toNat_of_nonneg h.1.g0_nonneg
    have hg1 := Int.toNat_of_nonneg h.1.g1_nonneg
    obtain ⟨k, xg, hk, -⟩ := xgLoop_run _ s _ hph hg0.symm hg1.symm
    refine hrun hk ?_
    obtain ⟨-, hret⟩ | ⟨-, hret⟩ := hlatch <;> simp [hph, hret, Phase.ahead]
  case mrDecomp =>
    obtain ⟨-, -, hd, -, -⟩ := h
    obtain ⟨k, e, d, hk, -⟩ := mrDecomp_run s.mr.d.toNat s hph (by omega) (by omega)
    exact hrun hk (by simp [hph, Phase.ahead])
  case mrSq =>
    obtain ⟨htrial, hj, hjs, hx, -, -⟩ := h
    obtain ⟨k, x, j, haccept, hreject⟩ := mrSq_run _ s hph htrial.a_large hj hjs hx rfl
    by_cases hlater : ∃ r, s.mr.j.toNat < r ∧ r < s.mr.s.toNat ∧
        s.operand .w ^ (s.mr.d.toNat * 2 ^ r) % s.operand .a = s.operand .a - 1
    · exact hrun (haccept hlater) (by simp [hph, Phase.ahead])
    · exact hrun (hreject hlater) (by simp [hph, Phase.ahead])
  case tdLoop =>
    obtain ⟨ha, hkd, hnone⟩ := h
    obtain ⟨k, kd, hk⟩ := tdLoop_run _ s hph hkd rfl ha hnone
    exact hrun hk (by simp [hph, Phase.ahead])
  all_goals simp [hph, Phase.loops] at hp

/-- From every state of the invariant the engine leaves BUSY. -/
theorem Inv.leavesBusy {s : State} (h : Inv s) : ∃ k, (engineRun k s).state ≠ .busy := by
  induction hn : s.ph.ahead using Nat.strong_induction_on generalizing s with
  | _ n ih =>
    by_cases hs : s.state = .busy
    · have hmove : ∃ k, MovesOn s (engineRun k s) := by
        by_cases hp : s.ph ∈ Phase.loops
        · exact loop_movesOn h.control h.phase hp
        · exact ⟨1, microStep_movesOn hs h.control hp⟩
      obtain ⟨k, hleft | hlater⟩ := hmove
      · exact ⟨k, hleft⟩
      · obtain ⟨j, hj⟩ := ih _ (hn ▸ hlater) (engineRun_inv k s h) rfl
        exact ⟨k + j, by rwa [engineRun_add]⟩
    · exact ⟨0, hs⟩

/-! ### RESUME makes progress -/

/-- Settles O30: `Inv.leavesBusy`; and the trial that RESUME begins is O19's, or the witness is out of range (O9). -/
theorem engineLeavesBusyAndTrialsProgress : Obligations.EngineLeavesBusyAndTrialsProgress := by
  refine fun s h => ⟨h.leavesBusy, fun s₁ hs hexec => ?_⟩
  by_cases hw : s.operand .w < 2 ∨ s.operand .w > s.operand .a - 2
  · obtain rfl := Host.Outcome.next.inj (hexec.symm.trans (exec_resume_outOfRange hs hw))
    exact ⟨0, .inl rfl⟩
  · push Not at hw
    obtain ⟨s₂, k, mexp, mr, hexec₂, -, -, -, haccept, hend⟩ := trialFollowsMillerRabin s h hs hw.1 hw.2
    obtain rfl := Host.Outcome.next.inj (hexec.symm.trans hexec₂)
    obtain ⟨-, -, -, -, ht⟩ := h.of_waiting hs
    refine ⟨k, ?_⟩
    by_cases hlast : ¬ WitnessAccepted (s.operand .a) (s.operand .w) ∨ s.mr.t = 1
    · obtain ⟨verdict, -, hrun⟩ := hend hlast
      exact .inl (by rw [hrun])
    · push Not at hlast
      obtain ⟨hmt, hrun⟩ := haccept hlast.1 (by omega)
      rw [hrun]
      exact .inr ⟨hs, by show 1 ≤ mr.t; omega, by show mr.t < s.mr.t; omega⟩

/-! ### Answered commands end -/

theorem engineRun_op (k : Nat) : ∀ s : State, (engineRun k s).op = s.op := by
  induction k with
  | zero => exact fun _ => rfl
  | succ k ih => exact fun s => (ih (microStep s)).trans (microStep_op s)

/-- No micro-step leads to IDLE. -/
theorem microStep_state_ne_idle {s : State} (h : s.state ≠ .idle) : (microStep s).state ≠ .idle := by
  obtain ⟨ph, ret, mexp, xg, mr, e⟩ | ⟨-, e⟩ | e | ⟨x, y, z, v, e⟩ := microStep_cases s <;> rw [e]
  · exact h
  all_goals simp

theorem engineRun_state_ne_idle (k : Nat) : ∀ {s : State}, s.state ≠ .idle → (engineRun k s).state ≠ .idle := by
  induction k with
  | zero => exact id
  | succ k ih => exact fun h => ih (microStep_state_ne_idle h)

/-- A running command other than MRTEST asks for no witness, so that it is in DONE where the engine leaves BUSY. -/
theorem Inv.reachesDone {s : State} (h : Inv s) (hs : s.state = .busy) (ho : s.op ≠ Instr.mrtest.opcode) :
    ∃ k, (engineRun k s).state = .done := by
  obtain ⟨k, hk⟩ := h.leavesBusy
  have hidle := engineRun_state_ne_idle k (s := s) (by simp [hs])
  have hwait : (engineRun k s).state ≠ .waitRng := fun hw => by
    obtain ⟨-, hop, -⟩ := (engineRun_inv k s h).of_waiting hw
    exact ho ((engineRun_op k s).symm.trans hop)
  cases hst : (engineRun k s).state with
  | busy => exact absurd hst hk
  | idle => exact absurd hst hidle
  | waitRng => exact absurd hst hwait
  | done => exact ⟨k, hst⟩

theorem WitnessExchange.done {ws : List Int} {s t : State} (h : WitnessExchange ws s t) : t.state = .done := by
  induction h with
  | ended _ _ hdone => exact hdone
  | answered _ _ _ _ _ _ _ _ _ ih => exact ih

/-- An answer, in range or not, ends the test or leads to the next request, with a trial less to run. -/
theorem Asks.answer {s u : State} {n : Nat} {r : Int} (h : Asks s (n + 1) u) (hr : s.cfg.fits r = true) :
    (∃ t, WitnessExchange [r] u t) ∨
      ∃ u', Asks s n u' ∧ ∀ ws t, WitnessExchange ws u' t → WitnessExchange (r :: ws) u t := by
  by_cases hrange : 2 ≤ r ∧ r ≤ s.operand .a - 2
  · have hmay : s.MayAnswer r := ⟨hr, hrange⟩
    by_cases hlast : ¬ WitnessAccepted (s.operand .a) r ∨ n = 0
    · obtain ⟨t, -, hex, -⟩ := h.ends hmay (hlast.imp_right (congrArg (· + 1)))
      exact .inl ⟨t, hex⟩
    · push Not at hlast
      exact .inr (h.next (Nat.pos_of_ne_zero hlast.2) hmay hlast.1)
  · obtain ⟨hwrite, -, hw⟩ := h.inv.writeWitness h.waiting (h.cfg_eq ▸ hr)
    have ha : ({ u with w := .ofInt r } : State).operand .a = s.operand .a := h.operand_eq
    have hfault := exec_resume_outOfRange (s := { u with w := .ofInt r }) h.waiting (by rw [hw, ha]; omega)
    exact .inl ⟨_, .answered u _ _ 0 r [] h.waiting (hwrite ▸ hfault) (.ended _ 0 rfl)⟩

/-- With `n` trials to run at most `n` of the answers are asked for, by induction on the trials. -/
theorem Asks.reachesDone {s : State} (n : Nat) : ∀ {u : State} {answers : Nat → Int}, Asks s n u →
    (∀ j, s.cfg.fits (answers j) = true) → ∃ m ≤ n, ∃ t, WitnessExchange ((List.range m).map answers) u t := by
  induction n with
  | zero =>
    intro u _ h _
    obtain ⟨-, -, -, -, hpos⟩ := h.inv.of_waiting h.waiting
    have hleft := h.left
    omega
  | succ n ih =>
    intro u answers h hfits
    obtain ⟨t, hex⟩ | ⟨u', h', hfirst⟩ := h.answer (hfits 0)
    · exact ⟨1, by omega, t, hex⟩
    · obtain ⟨m, hm, t, hex⟩ := ih h' (answers := fun j => answers (j + 1)) fun j => hfits (j + 1)
      refine ⟨m + 1, by omega, t, ?_⟩
      rw [List.range_succ_eq_map, List.map_cons, List.map_map]
      exact hfirst _ t hex

/-- MRTEST ends, whatever A: at once in the special cases, with no trial to run, or after its answers. -/
theorem mrtest_reachesDone {s s₁ : State} {answers : Nat → Int} (h : Inv s) (hs : s.state = .idle ∨ s.state = .done)
    (hexec : exec .mrtest s = .next s₁) (hfits : ∀ j, s.cfg.fits (answers j) = true) :
    ∃ n ≤ s.trials.toNat, ∃ t, WitnessExchange ((List.range n).map answers) s₁ t := by
  by_cases hspecial : s.operand .a = 2 ∨ s.operand .a = 3 ∨ s.operand .a < 2 ∨ s.operand .a % 2 = 0
  · obtain ⟨s₂, hexec₂, -, -, mr, hrun⟩ := mrtestSpecialCases s hs hspecial
    obtain rfl := Host.Outcome.next.inj (hexec.symm.trans hexec₂)
    exact ⟨0, Nat.zero_le _, _, .ended _ 2 (by rw [hrun])⟩
  · have ha : 5 ≤ s.operand .a := by omega
    have hodd : s.operand .a % 2 = 1 := by omega
    by_cases h0 : s.trials = 0#32
    · obtain ⟨t, hex, -⟩ := mrtest_ends_of_no_trials hs hexec ha hodd h0
      exact ⟨0, Nat.zero_le _, t, hex⟩
    · obtain ⟨k, hasks⟩ := mrtest_asks h hs hexec ha hodd h0
      obtain ⟨n, hn, t, hex⟩ := hasks.reachesDone _ hfits
      exact ⟨n, hn, t, hex.of_engineRun k rfl⟩

/-- Settles O31: MRTEST ends by its trials, and any other command without a request. -/
theorem answeredCommandsReachDone : Obligations.AnsweredCommandsReachDone := by
  intro s s₁ i answers h hs hi hexec hfits
  have hexchange : ∃ n ≤ s.trials.toNat, ∃ t, WitnessExchange ((List.range n).map answers) s₁ t := by
    by_cases hm : i = .mrtest
    · subst hm
      exact mrtest_reachesDone h hs hexec hfits
    · have hinv := h.exec hexec
      obtain rfl := Host.Outcome.next.inj (hexec.symm.trans (exec_accepted hi hs))
      obtain ⟨k, hk⟩ := hinv.reachesDone rfl (mt Instr.opcode_injective hm)
      exact ⟨0, Nat.zero_le _, _, .ended _ k hk⟩
  obtain ⟨n, hn, t, hex⟩ := hexchange
  exact ⟨n, t, hn, hex, hex.done⟩

end Sys2Proof.Machine
end
